-- ==== Sys2Proof/Word.lean ====
section
/-!
DEFINITION. The value types of the block: the byte and the payload word of `00_scope.md` R7, and the numeric type
`Num` of R6 and R8 as plain data. Only types stand here; the operations on real numbers are in `Machine/Real.lean`, those
of `Num` in `Machine/Num.lean`.
-/
namespace Sys2Proof

/-- `u8`, one item of either channel (`20_memory.md` R61). -/
abbrev Byte := BitVec 8

/-- `u16`, one half of a split view (`30_encoding.md` R105). -/
abbrev Half := BitVec 16

/-- `u32` (and, read through `toInt`, `s32`) of `00_scope.md` R7. -/
abbrev Word := BitVec 32

/-- The command selector `cmd_sel[4:0]` of `10_state.md` R44. -/
abbrev Sel := BitVec 5

/-- The term `cosC * cos angle + sinC * sin angle` of an exact real. -/
structure TrigTerm where
  angle : ℚ
  cosC : ℚ
  sinC : ℚ
  deriving DecidableEq, Repr, Inhabited

/-- A real number of the form that the block computes from rational operands: the rational `rat` plus the sum of the
terms `trig` (log entry 1). Canonical: the angles are positive and rise strictly, and no term is zero (`Exact.wf`). -/
structure Exact where
  rat : ℚ
  trig : List TrigTerm
  deriving DecidableEq, Repr, Inhabited

/-- A real number of the reference meaning of `Num` (`00_scope.md` R8), written out as plain data: a number in the form
`Exact`, `π`, any real number at all under a code (its digits are free values), and what the operations make of these
(log entry 1). The inverse of 0 is written, as 0, and is never built. -/
inductive RealNum where
  | exact (v : Exact)
  | pi
  | named (code : Nat)
  | add (a b : RealNum)
  | neg (a : RealNum)
  | mul (a b : RealNum)
  | inv (a : RealNum)
  | cos (a : RealNum)
  | sin (a : RealNum)
  deriving DecidableEq, Repr, Inhabited

/-- A value that is no real number: a number of another `Num` (`00_scope.md` R8: IEEE-754 binary64, say), or a
non-finite value. The code names it; nothing is known of it (log entry 2). -/
inductive OtherNum where
  | finite (code : Nat)
  | nonFinite (code : Nat)
  deriving DecidableEq, Repr, Inhabited

/-- The numeric type of real quantities (`00_scope.md` R6 `Num`). -/
inductive NumVal where
  | real (v : RealNum)
  | other (v : OtherNum)
  deriving DecidableEq, Repr, Inhabited

/-- The rational `q` as a real number. -/
abbrev RealNum.ofRat (q : ℚ) : RealNum := .exact ⟨q, []⟩

/-- The rational `q` as a `Num`. -/
abbrev NumVal.ofRat (q : ℚ) : NumVal := .real (.ofRat q)

/-- The integer `n` as a `Num` (exact, `42_odometry.md` R222). -/
abbrev NumVal.ofInt (n : Int) : NumVal := NumVal.ofRat n

end Sys2Proof
end

