-- ==== Sys2Proof/Config.lean ====
section
/-!
DEFINITION. What is fixed for one block: the parameters of `00_scope.md` R6 (with their defaults) and the configuration
record of `10_state.md` R21, as plain data that State carries; and the free values, opaque constants of which nothing
can be proved but that they depend on their arguments alone.
-/
namespace Sys2Proof

/-- `STR_MAX` (`00_scope.md` R6): the string bound of `40_codec.md` R139. -/
abbrev strMax : Nat := 32

/-- The fourteen wire operation kinds, the rows of `30_encoding.md` R108. -/
inductive OpKind where
  | version | encM1 | encM2 | speedM1 | speedM2 | temp | error | batt | currents | modes | reset | pidM1 | pidM2 | mixed
  deriving DecidableEq, Repr, Inhabited

/-- Every kind, in the order of the table of R108. -/
def OpKind.all : List OpKind :=
  [.version, .encM1, .encM2, .speedM1, .speedM2, .temp, .error, .batt, .currents, .modes, .reset, .pidM1, .pidM2, .mixed]

/-- The opcode parameter table `OPC` of `30_encoding.md` R108: one byte per wire operation kind. -/
structure OpcTable where
  version : Byte
  encM1 : Byte
  encM2 : Byte
  speedM1 : Byte
  speedM2 : Byte
  temp : Byte
  error : Byte
  batt : Byte
  currents : Byte
  modes : Byte
  reset : Byte
  pidM1 : Byte
  pidM2 : Byte
  mixed : Byte
  deriving DecidableEq, Repr, Inhabited

/-- `SPEED_WIRE_ENC` (`30_encoding.md` R104). -/
inductive SpeedWireEnc where
  | twos | signMag
  deriving DecidableEq, Repr, Inhabited

/-- `TICK_DELTA_MODE` (`42_odometry.md` R222). -/
inductive TickDeltaMode where
  | wrap32 | exact
  deriving DecidableEq, Repr, Inhabited

/-- The parameters of `00_scope.md` R6 that are not configuration fields. -/
structure Params where
  opc : OpcTable
  ackLen : Fin 2
  readReqChecksum : Bool
  speedWireEnc : SpeedWireEnc
  tickDeltaMode : TickDeltaMode
  leftIsM1 : Bool
  modesM1High : Bool
  initLeftTicks : Word
  initRightTicks : Word
  initTime : NumVal
  deriving DecidableEq, Repr, Inhabited

/-- The configuration registers of `10_state.md` R21. -/
structure Cfg where
  address : Byte
  timeoutS : NumVal
  port : String
  baud : Int
  updateRateHz : NumVal
  wheelBase : NumVal
  ticksPerMeter : NumVal
  kp : NumVal
  ki : NumVal
  kd : NumVal
  qpps : Word
  deriving DecidableEq, Repr, Inhabited

/-- The defaults of `30_encoding.md` R108, which the spec marks as general knowledge (log entry 5). -/
def OpcTable.default : OpcTable where
  version := 0x15
  encM1 := 0x10
  encM2 := 0x11
  speedM1 := 0x12
  speedM2 := 0x13
  temp := 0x52
  error := 0x5A
  batt := 0x18
  currents := 0x31
  modes := 0x5B
  reset := 0x14
  pidM1 := 0x1C
  pidM2 := 0x1D
  mixed := 0x25

/-- The defaults of `00_scope.md` R6 (log entry 5). -/
def Params.default : Params where
  opc := .default
  ackLen := 0
  readReqChecksum := true
  speedWireEnc := .twos
  tickDeltaMode := .wrap32
  leftIsM1 := true
  modesM1High := true
  initLeftTicks := 0
  initRightTicks := 0
  initTime := .ofRat 0

/-- A legal configuration for `State.reset`. R21 gives no value to any field: these are the model's (log entry 6), the
address, wheel base and ticks per metre of the common configuration of `95_test_vectors.md`. -/
def Cfg.default : Cfg where
  address := 0x80
  timeoutS := .ofRat 1
  port := ""
  baud := 1
  updateRateHz := .ofRat 1
  wheelBase := .ofRat (1 / 2)
  ticksPerMeter := .ofRat 100
  kp := .ofRat 0
  ki := .ofRat 0
  kd := .ofRat 0
  qpps := 0

/-- The environment's answer to `RxByte` (`20_memory.md` R63). -/
inductive RxAnswer where
  | byte (b : Byte)
  | timeout
  deriving DecidableEq, Repr, Inhabited

/-- The environment's answer to the lifecycle `OPEN` (`70_reset_and_hazards.md` R301). -/
inductive OpenAnswer where
  | ok | fail
  deriving DecidableEq, Repr, Inhabited

/-! The digits of the real numbers that are named by a code (log entry 1): an integer part and binary digits. -/

opaque Config.realInt : Nat → Int
opaque Config.realDigit : Nat → Nat → Bool

/-! Free values of `Num`: the result of an operation on operands of which one is no real number (`00_scope.md` R8: "a
configuration function the model assumes nothing of beyond depending only on its operands"), and of a division by 0 (log
entry 2). -/

opaque Config.addN : NumVal → NumVal → OtherNum
opaque Config.subN : NumVal → NumVal → OtherNum
opaque Config.mulN : NumVal → NumVal → OtherNum
opaque Config.divN : NumVal → NumVal → OtherNum
opaque Config.negN : OtherNum → OtherNum
opaque Config.cosN : OtherNum → OtherNum
opaque Config.sinN : OtherNum → OtherNum
opaque Config.ltN : NumVal → NumVal → Bool
opaque Config.eqN : NumVal → NumVal → Bool
opaque Config.roundN : OtherNum → Int
opaque Config.truncN : OtherNum → Int

/-! Free values of the codec outside the ranges of its registers, where no run comes (log entry 13): the byte that a
transmit step reads past the end of `tx_frame`, and the string that a completed `S_STRING` reads past the end of an
`rx_str` without a zero byte. -/

opaque Config.frameByte : List Byte → Nat → Byte
opaque Config.strBeyond : List Byte

/-! Free choices of the environment and of the host, one for each value of the counter `Link.draws` (log entries 3
and 4). -/

opaque Config.rxAnswer : Nat → RxAnswer
opaque Config.openAnswer : Nat → OpenAnswer
opaque Config.lifecycleFirst : Nat → Bool

end Sys2Proof
end

