-- ==== Sys2Proof/Machine/Flags.lean ====
section
/-!
DEFINITION. The checksum and the validity comparison (`40_codec.md` R130, R143): the block's only condition flag is
`res_valid` (`10_state.md` R31), and this is how it is computed.
-/
namespace Sys2Proof

/-- `sum8` of `00_scope.md` R9: the sum modulo 256. -/
def sum8 : List Byte → Byte
  | [] => 0
  | b :: bs => b + sum8 bs

/-- `ReqChk` (`40_codec.md` R130). -/
def reqChk (addr opc : Byte) (payload : List Byte) : Byte := sum8 ([addr, opc] ++ payload) &&& 0x7F

/-- The response seed (`40_codec.md` R133). -/
def respSeed (addr opc : Byte) : Byte := addr + opc

/-- `RespSum` (R130). -/
def respSum (addr opc : Byte) (body : List Byte) : Byte := respSeed addr opc + sum8 body

/-- The comparison of R143: the sum masked to 7 bits, the trailing byte `c` in all 8. -/
def chkMatches (sum c : Byte) : Bool := (sum &&& 0x7F) == c

/-- `RespValid` (R130). -/
def respValid (addr opc : Byte) (body : List Byte) (c : Byte) : Bool := chkMatches (respSum addr opc body) c

end Sys2Proof
end

