-- ==== Sys2Proof/Machine/Real.lean ====
section
/-!
DEFINITION. Exact real arithmetic (`00_scope.md` R8), on real numbers written as plain data. An operation on numbers in
the form `Exact` computes in that form where it can; any other result is written as the operation itself. The sign and
the integer part of a number that is no rational are found in rational enclosures of it, each narrower than the last
(`Laws/Real.lean`: they are those of the real number).
-/
namespace Sys2Proof

/-! The form `Exact` -/

/-- The rational it is, where it is written as one. -/
def Exact.rat? (e : Exact) : Option ℚ :=
  match e.trig with
  | [] => some e.rat
  | _ :: _ => none

/-- Puts a term before terms of greater angle, unless it is the zero term. -/
def TrigTerm.consNonzero (t : TrigTerm) (ts : List TrigTerm) : List TrigTerm :=
  if t.cosC = 0 ∧ t.sinC = 0 then ts else t :: ts

/-- Adds the term `t` to a sum, keeping the angles in rising order and like angles together. -/
def TrigTerm.insert (t : TrigTerm) : List TrigTerm → List TrigTerm
  | [] => t.consNonzero []
  | u :: us =>
    if t.angle < u.angle then t.consNonzero (u :: us)
    else if t.angle = u.angle then TrigTerm.consNonzero ⟨u.angle, u.cosC + t.cosC, u.sinC + t.sinC⟩ us
    else u :: TrigTerm.insert t us

/-- Adds `c * cos a + s * sin a`, with the angle brought to its canonical sign. -/
def Exact.addTerm (a c s : ℚ) (e : Exact) : Exact :=
  if a = 0 then ⟨e.rat + c, e.trig⟩
  else if a < 0 then ⟨e.rat, TrigTerm.insert ⟨-a, c, -s⟩ e.trig⟩
  else ⟨e.rat, TrigTerm.insert ⟨a, c, s⟩ e.trig⟩

/-- Adds the terms of a list. -/
def Exact.addTerms : List TrigTerm → Exact → Exact
  | [], e => e
  | t :: ts, e => Exact.addTerms ts (e.addTerm t.angle t.cosC t.sinC)

def Exact.add (a b : Exact) : Exact := Exact.addTerms b.trig ⟨a.rat + b.rat, a.trig⟩

/-- The product of `q` and the terms `ts`, added to `e`. -/
def Exact.addScaled (q : ℚ) : List TrigTerm → Exact → Exact
  | [], e => e
  | t :: ts, e => Exact.addScaled q ts (e.addTerm t.angle (q * t.cosC) (q * t.sinC))

/-- The number `q * e`. -/
def Exact.scale (q : ℚ) (e : Exact) : Exact := Exact.addScaled q e.trig ⟨q * e.rat, []⟩

def Exact.neg (a : Exact) : Exact := a.scale (-1)

/-- The product of two terms, added to `e`: the product-to-sum identities of sine and cosine. -/
def Exact.addTermMul (t u : TrigTerm) (e : Exact) : Exact :=
  (e.addTerm (t.angle - u.angle) ((t.cosC * u.cosC + t.sinC * u.sinC) / 2) ((t.sinC * u.cosC - t.cosC * u.sinC) / 2)).addTerm
    (t.angle + u.angle) ((t.cosC * u.cosC - t.sinC * u.sinC) / 2) ((t.sinC * u.cosC + t.cosC * u.sinC) / 2)

/-- The product of the term `t` and the terms of a list, added to `e`. -/
def Exact.addTermMuls (t : TrigTerm) : List TrigTerm → Exact → Exact
  | [], e => e
  | u :: us, e => Exact.addTermMuls t us (e.addTermMul t u)

/-- The product of the terms of two lists, added to `e`. -/
def Exact.addMuls : List TrigTerm → List TrigTerm → Exact → Exact
  | [], _, e => e
  | t :: ts, us, e => Exact.addMuls ts us (Exact.addTermMuls t us e)

def Exact.mul (a b : Exact) : Exact :=
  Exact.addMuls a.trig b.trig (Exact.addScaled b.rat a.trig (b.scale a.rat))

/-- The cosine of a rational. -/
def Exact.cos (q : ℚ) : Exact := Exact.addTerm q 1 0 ⟨0, []⟩

/-- The sine of a rational. -/
def Exact.sin (q : ℚ) : Exact := Exact.addTerm q 0 1 ⟨0, []⟩

/-! Real numbers -/

/-- The rational it is, where it is written as one. -/
def RealNum.rat? : RealNum → Option ℚ
  | .exact e => e.rat?
  | _ => none

def RealNum.plus : RealNum → RealNum → RealNum
  | .exact a, .exact b => .exact (a.add b)
  | a, b => .add a b

def RealNum.negate : RealNum → RealNum
  | .exact a => .exact a.neg
  | a => .neg a

def RealNum.minus (a b : RealNum) : RealNum := a.plus b.negate

def RealNum.times : RealNum → RealNum → RealNum
  | .exact a, .exact b => .exact (a.mul b)
  | a, b => .mul a b

/-- The inverse of a number other than 0. -/
def RealNum.recip (a : RealNum) : RealNum :=
  match a.rat? with
  | some q => .ofRat q⁻¹
  | none => .inv a

def RealNum.quotient (a b : RealNum) : RealNum := a.times b.recip

def RealNum.cosine (a : RealNum) : RealNum :=
  match a.rat? with
  | some q => .exact (Exact.cos q)
  | none => .cos a

def RealNum.sine (a : RealNum) : RealNum :=
  match a.rat? with
  | some q => .exact (Exact.sin q)
  | none => .sin a

/-! Enclosures -/

/-- The first answer of `f`, from `n` on. -/
def searchFrom {α : Type} (f : Nat → Option α) (n : Nat) : Option α :=
  match f n with
  | some a => some a
  | none => searchFrom f (n + 1)
partial_fixpoint

/-- The real numbers within `rad` of `mid`. -/
structure Ball where
  mid : ℚ
  rad : ℚ
  deriving DecidableEq, Repr, Inhabited

def Ball.add (a b : Ball) : Ball := ⟨a.mid + b.mid, a.rad + b.rad⟩

def Ball.neg (a : Ball) : Ball := ⟨-a.mid, a.rad⟩

def Ball.mul (a b : Ball) : Ball := ⟨a.mid * b.mid, |a.mid| * b.rad + |b.mid| * a.rad + a.rad * b.rad⟩

/-- The inverses of the numbers of a ball that lies off 0. -/
def Ball.inv (a : Ball) : Ball := ⟨a.mid⁻¹, a.rad / (|a.mid| * (|a.mid| - a.rad))⟩

/-- The sign that all numbers of a ball have, where it lies off 0. -/
def Ball.sign? (a : Ball) : Option SignType :=
  if a.rad < a.mid then some 1 else if a.mid < -a.rad then some (-1) else none

/-- The ball, where it lies off 0. -/
def Ball.off0? (a : Ball) : Option Ball := if a.rad < |a.mid| then some a else none

/-- An integer less than 1 away from every number of a ball, where the ball is narrow enough. -/
def Ball.nearInt? (a : Ball) : Option Int := if a.rad < 1 / 4 then some ⌊a.mid + 1 / 2⌋ else none

/-- The term `k` of the power series of `cos q` and `sin q` taken as one, `(i q) ^ k / k!`: its real and its imaginary
part. -/
def cisTerm (q : ℚ) : Nat → ℚ × ℚ
  | 0 => (1, 0)
  | k + 1 => (-((cisTerm q k).2 * q / (k + 1)), (cisTerm q k).1 * q / (k + 1))

/-- The sum of the first `k` terms. -/
def cisSum (q : ℚ) : Nat → ℚ × ℚ
  | 0 => (0, 0)
  | k + 1 => ((cisSum q k).1 + (cisTerm q k).1, (cisSum q k).2 + (cisTerm q k).2)

/-- How many terms: enough for the bound of `cisRad`. -/
def cisTerms (q : ℚ) (n : Nat) : Nat := n + 2 * ⌈|q|⌉₊

/-- What the terms left out come to at most. -/
def cisRad (q : ℚ) (k : Nat) : ℚ := |q| ^ k / k.factorial * 2

/-- The cosines of the numbers of a ball. -/
def Ball.cos (a : Ball) (n : Nat) : Ball :=
  ⟨(cisSum a.mid (cisTerms a.mid n)).1, a.rad + cisRad a.mid (cisTerms a.mid n)⟩

/-- The sines of the numbers of a ball. -/
def Ball.sin (a : Ball) (n : Nat) : Ball :=
  ⟨(cisSum a.mid (cisTerms a.mid n)).2, a.rad + cisRad a.mid (cisTerms a.mid n)⟩

/-- `arctan q`, for `q` in 0 .. 1, by `n` terms of its power series. -/
def arctanSum (q : ℚ) : Nat → ℚ
  | 0 => 0
  | n + 1 => arctanSum q n + (-1) ^ n * q ^ (2 * n + 1) / (2 * n + 1)

def arctanBall (q : ℚ) (n : Nat) : Ball := ⟨arctanSum q n, q * (q ^ 2) ^ n / (1 - q ^ 2)⟩

/-- `π = 16 arctan (1 / 5) - 4 arctan (1 / 239)`. -/
def piBall (n : Nat) : Ball :=
  (Ball.mul ⟨16, 0⟩ (arctanBall (1 / 5) n)).add (Ball.mul ⟨-4, 0⟩ (arctanBall (1 / 239) n))

/-- The first `n` digits of a named number. -/
def namedSum (code : Nat) : Nat → ℚ
  | 0 => Config.realInt code
  | n + 1 => namedSum code n + if Config.realDigit code n then (1 / 2) ^ (n + 1) else 0

/-- The enclosure number `n` of a sum of terms. -/
def TrigTerm.ballSum (n : Nat) : List TrigTerm → Ball
  | [] => ⟨0, 0⟩
  | t :: ts =>
    ((Ball.mul ⟨t.cosC, 0⟩ (Ball.cos ⟨t.angle, 0⟩ n)).add (Ball.mul ⟨t.sinC, 0⟩ (Ball.sin ⟨t.angle, 0⟩ n))).add
      (TrigTerm.ballSum n ts)

/-- The enclosure number `n` of a number. For an inverse it is made from the first enclosure, from number `n` on, that
lies off 0. -/
def RealNum.ball : RealNum → Nat → Ball
  | .exact e => fun n => Ball.add ⟨e.rat, 0⟩ (TrigTerm.ballSum n e.trig)
  | .pi => piBall
  | .named code => fun n => ⟨namedSum code n, (1 / 2) ^ n⟩
  | .add a b => fun n => (a.ball n).add (b.ball n)
  | .neg a => fun n => (a.ball n).neg
  | .mul a b => fun n => (a.ball n).mul (b.ball n)
  | .inv a => fun n =>
    match searchFrom (fun m => (a.ball m).off0?) n with
    | some b => b.inv
    | none => ⟨0, 0⟩
  | .cos a => fun n => (a.ball n).cos n
  | .sin a => fun n => (a.ball n).sin n

/-! Sign and integer part -/

/-- The sign of a number: that of the first enclosure off 0. A number that no enclosure tells from 0 is 0. -/
def RealNum.sign (a : RealNum) : SignType :=
  match a.rat? with
  | some q => SignType.sign q
  | none => (searchFrom (fun n => (a.ball n).sign?) 0).getD 0

/-- An integer less than 1 away from a number. -/
def RealNum.nearInt (a : RealNum) : Int := (searchFrom (fun n => (a.ball n).nearInt?) 0).getD 0

/-- The greatest integer that is not greater than a number. -/
def RealNum.floor (a : RealNum) : Int :=
  match a.rat? with
  | some q => ⌊q⌋
  | none => if (a.minus (.ofRat a.nearInt)).sign = -1 then a.nearInt - 1 else a.nearInt

/-- The integer nearest to a number, ties away from zero (R8). -/
def RealNum.round (a : RealNum) : Int :=
  if a.sign = -1 then -(a.negate.plus (.ofRat (1 / 2))).floor else (a.plus (.ofRat (1 / 2))).floor

/-- The integer part of a number rounded toward zero (R8). -/
def RealNum.trunc (a : RealNum) : Int := if a.sign = -1 then -a.negate.floor else a.floor

end Sys2Proof
end

