-- ==== Sys2Proof/Machine/Num.lean ====
section
/-!
DEFINITION. The operations of `Num` (`00_scope.md` R6, R8). On real numbers each is exact real arithmetic, the reference
meaning; where an operand is no real number it is a free value of `Config`.
-/
namespace Sys2Proof

/-- Whether a number is finite (`92_eei_decisions.md` D31). -/
def NumVal.isFinite : NumVal → Bool
  | .real _ => true
  | .other (.finite _) => true
  | .other (.nonFinite _) => false

def addN : NumVal → NumVal → NumVal
  | .real a, .real b => .real (a.plus b)
  | a, b => .other (Config.addN a b)

def subN : NumVal → NumVal → NumVal
  | .real a, .real b => .real (a.minus b)
  | a, b => .other (Config.subN a b)

def mulN : NumVal → NumVal → NumVal
  | .real a, .real b => .real (a.times b)
  | a, b => .other (Config.mulN a b)

/-- Division. R8 states no quotient by 0: it is a free value. -/
def divN : NumVal → NumVal → NumVal
  | .real a, .real b => if b.sign = 0 then .other (Config.divN (.real a) (.real b)) else .real (a.quotient b)
  | a, b => .other (Config.divN a b)

/-- The unary minus of `42_odometry.md` R220 step 6. -/
def negN : NumVal → NumVal
  | .real a => .real a.negate
  | .other a => .other (Config.negN a)

def cosN : NumVal → NumVal
  | .real a => .real a.cosine
  | .other a => .other (Config.cosN a)

def sinN : NumVal → NumVal
  | .real a => .real a.sine
  | .other a => .other (Config.sinN a)

def ltN : NumVal → NumVal → Bool
  | .real a, .real b => decide ((b.minus a).sign = 1)
  | a, b => Config.ltN a b

def eqN : NumVal → NumVal → Bool
  | .real a, .real b => decide ((b.minus a).sign = 0)
  | a, b => Config.eqN a b

/-- `a <= b`, by the two comparisons R6 lists. -/
def leN (a b : NumVal) : Bool := ltN a b || eqN a b

/-- `round_half_away` (R8). -/
def roundHalfAway : NumVal → Int
  | .real a => a.round
  | .other a => Config.roundN a

/-- `trunc` (R8). -/
def truncN : NumVal → Int
  | .real a => a.trunc
  | .other a => Config.truncN a

end Sys2Proof
end

