-- ==== Sys2Proof/Machine/Operands.lean ====
section
/-!
DEFINITION. Operand assembly and the views of decoded values (`30_encoding.md` R90 to R105, `42_odometry.md` R222).
-/
namespace Sys2Proof

/-- `be16` (`00_scope.md` R9). -/
def be16 (b0 b1 : Byte) : Half := b0 ++ b1

/-- `be32` (R9). -/
def be32 (b0 b1 b2 b3 : Byte) : Word := b0 ++ b1 ++ b2 ++ b3

/-- `bytes32` (R9): most significant byte first (`20_memory.md` R64). -/
def bytes32 (w : Word) : List Byte :=
  [w.extractLsb' 24 8, w.extractLsb' 16 8, w.extractLsb' 8 8, w.extractLsb' 0 8]

/-- The step of `10_state.md` R27: `rx_acc <- ((rx_acc << 8) | b) mod 2^32`. -/
def accShift (acc : Word) (b : Byte) : Word := (acc <<< 8) ||| b.setWidth 32

/-- `to_s32` (`00_scope.md` R7). -/
def toS32 (w : Word) : Int := w.toInt

/-- `ToFix16` (`30_encoding.md` R103); `none` is the refusal `RangeError`. -/
def toFix16 (r : NumVal) : Option Word :=
  if r.isFinite then
    let q := roundHalfAway (mulN r (.ofInt 65536))
    if q < 0 ∨ 4294967295 < q then none else some (BitVec.ofInt 32 q)
  else none

/-- The integer-to-word step of `ToWireRate` (`30_encoding.md` R104); `none` is the refusal `RangeError`. -/
def wireOfInt (enc : SpeedWireEnc) (q : Int) : Option Word :=
  match enc with
  | .twos => if q < -2147483648 ∨ 2147483647 < q then none else some (BitVec.ofInt 32 q)
  | .signMag =>
    if q < -2147483647 ∨ 2147483647 < q then none
    else some (if q < 0 then 0x80000000 ||| BitVec.ofInt 32 (-q) else BitVec.ofInt 32 q)

/-- `ToWireRate` (R104). -/
def toWireRate (enc : SpeedWireEnc) (r : NumVal) : Option Word :=
  if r.isFinite then wireOfInt enc (truncN r) else none

/-- The payload of `F_PID` (`30_encoding.md` R93). -/
def pidPayload (kd kp ki qpps : Word) : List Byte := bytes32 kd ++ bytes32 kp ++ bytes32 ki ++ bytes32 qpps

/-- The payload of `F_MIX` (`30_encoding.md` R94, `41_operations.md` R186): the word of the M1 wheel first. -/
def mixPayload (leftIsM1 : Bool) (wl wr : Word) : List Byte :=
  if leftIsM1 then bytes32 wl ++ bytes32 wr else bytes32 wr ++ bytes32 wl

/-- A request frame (`30_encoding.md` R90), with or without the checksum byte (R92). -/
def frameBytes (addr opc : Byte) (payload : List Byte) (withChk : Bool) : List Byte :=
  if withChk then [addr, opc] ++ payload ++ [reqChk addr opc payload] else [addr, opc] ++ payload

/-- The halves of `ReadCurrents` (`30_encoding.md` R105): M1 high, M2 low. -/
def splitCurrents (w : Word) : Half × Half := (w.extractLsb' 16 16, w.extractLsb' 0 16)

/-- The halves of `ReadEncoderModes` (R105), in the order M1, M2. -/
def splitModes (m1High : Bool) (w : Word) : Half × Half :=
  let high : Half := (w.extractLsb' 8 8).setWidth 16
  let low : Half := (w.extractLsb' 0 8).setWidth 16
  if m1High then (high, low) else (low, high)

/-- The post-processing of `41_operations.md` R170: `(res_m1, res_m2)` for the two operations that have them. -/
def splitHalves (m1High : Bool) (op : Sel) (w : Word) : Option (Half × Half) :=
  if op = 0x08 then some (splitCurrents w)
  else if op = 0x09 then some (splitModes m1High w)
  else none

/-- `TickDelta` (`42_odometry.md` R222). -/
def tickDelta (mode : TickDeltaMode) (new last : Word) : Int :=
  match mode with
  | .wrap32 => toS32 (new - last)
  | .exact => toS32 new - toS32 last

/-- The bytes of a string up to and including its first zero byte, out of the array `rx_str` (`40_codec.md` R139);
`none` where an entry holds no value before any zero byte, or there is no zero byte. -/
def stringOf : List (Option Byte) → Option (List Byte)
  | [] => none
  | none :: _ => none
  | some b :: bs => if b = 0 then some [b] else (stringOf bs).map (b :: ·)

/-- The string that a completed `S_STRING` reads from `rx_str` (R139, R142): `stringOf`, and past an array without a zero
byte a free value (log entry 13). `none` only where an entry before any zero byte holds no value (`10_state.md` R42). -/
def readString : List (Option Byte) → Option (List Byte)
  | [] => some Config.strBeyond
  | none :: _ => none
  | some b :: bs => if b = 0 then some [b] else (readString bs).map (b :: ·)

/-- The byte of a frame that a transmit step reads at an index (`40_codec.md` R132): past its end a free value (log entry
13). -/
def frameByte (frame : List Byte) (i : Nat) : Byte := (frame[i]?).getD (Config.frameByte frame i)

/-- The opcode byte of a kind (`30_encoding.md` R108). -/
def OpcTable.get (t : OpcTable) : OpKind → Byte
  | .version => t.version
  | .encM1 => t.encM1
  | .encM2 => t.encM2
  | .speedM1 => t.speedM1
  | .speedM2 => t.speedM2
  | .temp => t.temp
  | .error => t.error
  | .batt => t.batt
  | .currents => t.currents
  | .modes => t.modes
  | .reset => t.reset
  | .pidM1 => t.pidM1
  | .pidM2 => t.pidM2
  | .mixed => t.mixed

/-- The fourteen values are pairwise distinct (R108). -/
def OpcTable.distinct (t : OpcTable) : Bool := decide (OpKind.all.map t.get).Nodup

/-- `0 < a`, with `a` finite. -/
def NumVal.positive (a : NumVal) : Bool := a.isFinite && ltN (.ofRat 0) a

/-- `0 <= a`, with `a` finite. -/
def NumVal.nonnegative (a : NumVal) : Bool := a.isFinite && leN (.ofRat 0) a

/-- The legal values of `10_state.md` R21, which R46 demands (log entry 8). -/
def Cfg.legal (c : Cfg) : Bool :=
  c.timeoutS.positive && decide (0 < c.baud) && c.updateRateHz.positive && c.wheelBase.positive
    && c.ticksPerMeter.positive && c.kp.nonnegative && c.ki.nonnegative && c.kd.nonnegative

end Sys2Proof
end

