-- ==== Sys2Proof/Syntax.lean ====
section
/-!
DEFINITION. The operations of the block: one constructor of `Instr` per row of `spec/opcode_table.json`, with the
operands of its rule in its rule's order, and the command port's record (`10_state.md` R44).
-/
namespace Sys2Proof

/-- One operation with its operands. An operand that the host may offer without a value (`42_odometry.md` R221) is an
`Option`. -/
inductive Instr where
  /-- `41_operations.md` R171 -/
  | readVersion
  /-- R172 -/
  | readEncoderM1
  /-- R173 -/
  | readEncoderM2
  /-- R174 -/
  | readSpeedM1
  /-- R175 -/
  | readSpeedM2
  /-- R176 -/
  | readTemperature
  /-- R177 -/
  | readErrorState
  /-- R178 -/
  | readMainBatteryVoltage
  /-- R179 -/
  | readCurrents
  /-- R180 -/
  | readEncoderModes
  /-- R181 -/
  | resetEncoders
  /-- R182 -/
  | setM1Constants (kd kp ki qpps : Word)
  /-- R183 -/
  | setM2Constants (kd kp ki qpps : Word)
  /-- R184 -/
  | setM1VelocityPID (kd kp ki : NumVal) (qpps : Word)
  /-- R185 -/
  | setM2VelocityPID (kd kp ki : NumVal) (qpps : Word)
  /-- R186 -/
  | setMixedSpeed (left right : NumVal)
  /-- `42_odometry.md` R220 -/
  | update (now : Option NumVal) (leftTicks rightTicks : Option Word) (leftValid rightValid : Bool)
  /-- `43_mixer.md` R250 -/
  | mix (linear angular wheelBase ticksPerMeter : NumVal)
  deriving DecidableEq, Repr, Inhabited

/-- The operand record of the command port (`10_state.md` R44): one field per operand that some operation names. An
operation reads the fields its rule names and no other (log entry 7). -/
structure OperandRecord where
  /-- `kd`, `kp`, `ki` of `SetM1Constants`, `SetM2Constants` -/
  kdWord : Word
  kpWord : Word
  kiWord : Word
  /-- `qpps` of the four PID operations -/
  qpps : Word
  /-- `kd`, `kp`, `ki` of `SetM1VelocityPID`, `SetM2VelocityPID` -/
  kd : NumVal
  kp : NumVal
  ki : NumVal
  /-- `left`, `right` of `SetMixedSpeed` -/
  left : NumVal
  right : NumVal
  /-- the operands of `Update` -/
  now : Option NumVal
  leftTicks : Option Word
  rightTicks : Option Word
  leftValid : Bool
  rightValid : Bool
  /-- the operands of `Mix` -/
  linear : NumVal
  angular : NumVal
  wheelBase : NumVal
  ticksPerMeter : NumVal
  deriving DecidableEq, Repr, Inhabited

/-- The operand record with every operand zero: "operand words of zeros". -/
def OperandRecord.zero : OperandRecord where
  kdWord := 0
  kpWord := 0
  kiWord := 0
  qpps := 0
  kd := .ofRat 0
  kp := .ofRat 0
  ki := .ofRat 0
  left := .ofRat 0
  right := .ofRat 0
  now := some (.ofRat 0)
  leftTicks := some 0
  rightTicks := some 0
  leftValid := false
  rightValid := false
  linear := .ofRat 0
  angular := .ofRat 0
  wheelBase := .ofRat 0
  ticksPerMeter := .ofRat 0

/-- One command as the host offers it on the command port (`10_state.md` R44): the selector and the operand record. -/
structure Command where
  sel : Sel
  operands : OperandRecord
  deriving DecidableEq, Repr, Inhabited

/-- A request on the lifecycle port (`10_state.md` R44): `OPEN` or `CLOSE`. -/
inductive LifeReq where
  | openReq | closeReq
  deriving DecidableEq, Repr, Inhabited

end Sys2Proof
end

