-- ==== Sys2Proof/Machine/State.lean ====
section
/-!
DEFINITION. The state of the block (`10_state.md`), its reset values (R42), and the reasons a step can stop.

A register that R42 and R30 say "holds no value" is an `Option`: holding no value is the spec's own state of it ("a
model read of it before a write is a fault"), at reset and again whenever an operation does not name it.
-/
namespace Sys2Proof.Machine

open Sys2Proof

/-- `phase` (`10_state.md` R22). -/
inductive Phase where
  | closed | fatal | idle | tx | rx
  deriving DecidableEq, Repr, Inhabited

/-- The response shapes (`10_state.md` R25, `30_encoding.md` R95 to R100). -/
inductive Shape where
  | sByte | sWord | sDword | sDwordStatus | sString | sAck | sNone
  deriving DecidableEq, Repr, Inhabited

/-- The error kinds (`60_exceptions.md` R270). -/
inductive ErrCode where
  | ok | transportTimeout | checksumMismatch | malformedResponse | transportUnavailable
  deriving DecidableEq, Repr, Inhabited

/-- `odo_result` (`10_state.md` R38). -/
inductive OdoResult where
  | none | updated | skipped
  deriving DecidableEq, Repr, Inhabited

/-- The reasons of a refusal (`60_exceptions.md` R275). -/
inductive RefuseReason where
  | reservedCommand | rangeError | nonFinite | invalidConfig
  deriving DecidableEq, Repr, Inhabited

/-- The names of the registers that may hold no value (`10_state.md` R42, R30). -/
inductive Reg where
  | curOp | curOpc
  | txFrame | txLen | txIdx | txChk
  | rxShape | rxIdx | rxSum | rxAcc | rxStatus | rxStr | rxTerm
  | resOp | resErr | resValid | resValue | resStatus | resM1 | resM2 | resStr | resStrLen
  | mixLeft | mixRight
  deriving DecidableEq, Repr, Inhabited

/-- The codec's working registers (`10_state.md` R23 to R29). -/
structure CodecRegs where
  /-- R23 -/
  curOp : Option Sel
  curOpc : Option Byte
  /-- R24 -/
  txFrame : Option (List Byte)
  txLen : Option Nat
  txIdx : Option Nat
  txChk : Option Byte
  /-- R25 -/
  rxShape : Option Shape
  rxIdx : Option Nat
  /-- R26 -/
  rxSum : Option Byte
  /-- R27 -/
  rxAcc : Option Word
  /-- R28 -/
  rxStatus : Option Byte
  /-- R29: each entry holds a byte or no value -/
  rxStr : Vector (Option Byte) 32
  rxTerm : Option Bool
  deriving DecidableEq, Repr

/-- The result registers (`10_state.md` R30 to R32). -/
structure ResRegs where
  resReady : Bool
  resOp : Option Sel
  resErr : Option ErrCode
  resValid : Option Bool
  resValue : Option Word
  resStatus : Option Byte
  resM1 : Option Half
  resM2 : Option Half
  resStr : Option (List Byte)
  resStrLen : Option (BitVec 6)
  deriving DecidableEq, Repr

/-- The odometry integrator's registers (`10_state.md` R35 to R38). -/
structure OdoRegs where
  x : NumVal
  y : NumVal
  theta : NumVal
  vLin : NumVal
  vAng : NumVal
  lastLeft : Word
  lastRight : Word
  lastTime : NumVal
  odoResult : OdoResult
  deriving DecidableEq, Repr

/-- The mixer's latches (`10_state.md` R39). -/
structure MixRegs where
  mixLeft : Option NumVal
  mixRight : Option NumVal
  mixReady : Bool
  deriving DecidableEq, Repr

/-- The environment's side of the link (`20_memory.md` R60 to R63): what the block has transmitted, and the answers that
the environment will give. The two answer lists and `draws` are the model's own (log entry 3): an answer past the end of
its list is a free value of `Config` at `draws`. -/
structure Link where
  /-- the transmit stream, first byte first -/
  txStream : List Byte
  rxAnswers : List RxAnswer
  openAnswers : List OpenAnswer
  draws : Nat
  deriving DecidableEq, Repr

/-- The host's side (`10_state.md` R44): the commands and the lifecycle requests it offers, the next one first. The
model's own (log entry 4): the port carries the first, and the host offers the next once it is taken. -/
structure HostPorts where
  cmds : List Command
  lifecycle : List LifeReq
  deriving DecidableEq, Repr

/-- The whole state of the block and what its two neighbours hold out to it. -/
structure State where
  /-- the parameters of `00_scope.md` R6; no step writes them -/
  par : Params
  /-- R21; no step writes them -/
  cfg : Cfg
  /-- R22 -/
  phase : Phase
  codec : CodecRegs
  res : ResRegs
  /-- R33 -/
  desync : Bool
  /-- R34: `none` is `refused = 0`, and `some r` is `refused = 1`, first set by `refuse(r)` -/
  refused : Option RefuseReason
  odo : OdoRegs
  mix : MixRegs
  link : Link
  host : HostPorts
  deriving DecidableEq, Repr

/-- What stops the machine. -/
inductive Fault where
  /-- Raised by a read of a register that holds no value and by nothing else: `10_state.md` R42, "a model read of it before
  a write is a fault", and R30, "reading it is a fault in the model". The readers are `txStep`, `rxStep` and `complete`
  (only from states that no run reaches) and the host at the result port. Safe: the machine stops where the spec says
  that the read is a fault. -/
  | noValue (r : Reg)
  /-- Raised by `Update` with both validity operands 1 and a tick or time operand that holds no value
  (`41_operations.md` R188, U20). Safe. -/
  | operandNoValue
  /-- Raised by a step in `phase = FATAL` (`60_exceptions.md` R274, U14: stuck). Safe. -/
  | transportUnavailable
  deriving DecidableEq, Repr

/-- The model's own refusals. A refusal of the spec is no outcome of this type: it sets `State.refused` and the machine
goes on (`00_scope.md` R9). -/
inductive Refusal where
  /-- Raised by an arm of `exec` that has no meaning yet; no arm is one. Safe. -/
  | notModelled (mnemonic : String)
  deriving DecidableEq, Repr

/-- The outcome of a step of this machine. -/
abbrev Out := Host.Outcome State Fault Refusal

/-- The reset values of `10_state.md` R42, for any parameters and configuration (R300). -/
def State.resetWith (p : Params) (c : Cfg) : State where
  par := p
  cfg := c
  phase := .closed
  codec :=
    { curOp := none, curOpc := none, txFrame := none, txLen := none, txIdx := none, txChk := none, rxShape := none
      rxIdx := none, rxSum := none, rxAcc := none, rxStatus := none, rxStr := Vector.replicate 32 none, rxTerm := none }
  res :=
    { resReady := false, resOp := none, resErr := none, resValid := none, resValue := none, resStatus := none
      resM1 := none, resM2 := none, resStr := none, resStrLen := none }
  desync := false
  refused := none
  odo :=
    { x := .ofRat 0, y := .ofRat 0, theta := .ofRat 0, vLin := .ofRat 0, vAng := .ofRat 0
      lastLeft := p.initLeftTicks, lastRight := p.initRightTicks, lastTime := p.initTime, odoResult := .none }
  mix := { mixLeft := none, mixRight := none, mixReady := false }
  link := { txStream := [], rxAnswers := [], openAnswers := [], draws := 0 }
  host := { cmds := [], lifecycle := [] }

/-- The machine right after reset, under the default parameters and the model's legal configuration (log entries 5 and
6). -/
def State.reset : State := State.resetWith .default .default

end Sys2Proof.Machine
end

