-- ==== Sys2Proof/Machine/Ops.lean ====
section
/-!
DEFINITION. The named operations over the registers and the channels, and how an operation ends: `Complete` with or
without an error (`40_codec.md` R141, R142, `60_exceptions.md` R278), the one place where an error result is made.
-/
namespace Sys2Proof.Machine

open Sys2Proof

/-! Reading a register, refusing, the channels -/

/-- Reads a register; one that holds no value is a fault (`10_state.md` R42: "a model read of it before a write is a
fault"; R30). -/
def need {α : Type} (o : Option α) (r : Reg) (k : α → Out) : Out :=
  match o with
  | some a => k a
  | none => .fault (.noValue r)

/-- `refuse(reason)` (`00_scope.md` R9): sets the sticky mark, and nothing else. The first reason stands. -/
def State.refuse (r : RefuseReason) (s : State) : State :=
  { s with refused := some (s.refused.getD r) }

/-- `TxByte` (`20_memory.md` R62). -/
def State.txByte (b : Byte) (s : State) : State :=
  { s with link := { s.link with txStream := s.link.txStream ++ [b] } }

/-- The environment's next answer to `RxByte`, and the link once it is taken (`20_memory.md` R63). -/
def Link.rxByte (l : Link) : RxAnswer × Link :=
  match l.rxAnswers with
  | a :: rest => (a, { l with rxAnswers := rest })
  | [] => (Config.rxAnswer l.draws, { l with draws := l.draws + 1 })

/-- The environment's next answer to `OPEN` (`70_reset_and_hazards.md` R301). -/
def Link.openAnswer (l : Link) : OpenAnswer × Link :=
  match l.openAnswers with
  | a :: rest => (a, { l with openAnswers := rest })
  | [] => (Config.openAnswer l.draws, { l with draws := l.draws + 1 })

/-! The response shapes -/

/-- The five shapes of a read (`30_encoding.md` R95 to R99). -/
def Shape.isRead : Shape → Bool
  | .sByte | .sWord | .sDword | .sDwordStatus | .sString => true
  | .sAck | .sNone => false

/-- `n` of `40_codec.md` R134: the number of value bytes of a fixed shape. -/
def Shape.valueBytes : Shape → Nat
  | .sByte => 1
  | .sWord => 2
  | .sDword | .sDwordStatus => 4
  | .sString | .sAck | .sNone => 0

/-- `m` of R134: the number of value and status bytes. -/
def Shape.bodyBytes : Shape → Nat
  | .sDwordStatus => 5
  | s => s.valueBytes

/-- The shape of a write operation's response (`30_encoding.md` R100). -/
def writeShape (p : Params) : Shape := if p.ackLen = 0 then .sNone else .sAck

/-- The three-bit code of an error kind (`60_exceptions.md` R270). -/
def ErrCode.code : ErrCode → BitVec 3
  | .ok => 0
  | .transportTimeout => 1
  | .checksumMismatch => 2
  | .malformedResponse => 3
  | .transportUnavailable => 4

/-! Completion -/

/-- The result registers at a completion before any value register is written: an operation leaves no value in a
register it does not name (`10_state.md` R30, `40_codec.md` R142). -/
def ResRegs.latched (op : Sel) (valid : Bool) (err : ErrCode) : ResRegs :=
  { resReady := true, resOp := some op, resErr := some err, resValid := some valid, resValue := none
    resStatus := none, resM1 := none, resM2 := none, resStr := none, resStrLen := none }

/-- Latches the result registers and returns to `IDLE` (R142). -/
def State.finish (r : ResRegs) (s : State) : State := { s with res := r, phase := .idle }

/-- The result registers of a valid read of a value (`40_codec.md` R142, with the split of `41_operations.md` R170). -/
def valueResult (m1High : Bool) (op : Sel) (v : Word) : ResRegs :=
  { ResRegs.latched op true .ok with
    resValue := some v
    resM1 := (splitHalves m1High op v).map Prod.fst
    resM2 := (splitHalves m1High op v).map Prod.snd }

/-- The result registers of a valid read of a string (`40_codec.md` R139): the bytes up to and including the terminator,
and the count before it. -/
def stringResult (op : Sel) (str : List Byte) : ResRegs :=
  { ResRegs.latched op true .ok with
    resStr := some str
    resStrLen := some (BitVec.ofNat 6 (str.length - 1)) }

/-- `Complete(valid = 1)` (`40_codec.md` R142). -/
def completeValid (s : State) : Out :=
  need s.codec.curOp .curOp fun op =>
  need s.codec.rxShape .rxShape fun shape =>
  match shape with
  | .sByte | .sWord | .sDword =>
    need s.codec.rxAcc .rxAcc fun v => .next (s.finish (valueResult s.par.modesM1High op v))
  | .sDwordStatus =>
    need s.codec.rxAcc .rxAcc fun v =>
    need s.codec.rxStatus .rxStatus fun st =>
      .next (s.finish { valueResult s.par.modesM1High op v with resStatus := some st })
  | .sString =>
    need (readString s.codec.rxStr.toList) .rxStr fun str => .next (s.finish (stringResult op str))
  | .sAck | .sNone => .next (s.finish (ResRegs.latched op true .ok))

/-- `Complete(valid = 0, err)` (R142): the way every error ends an operation (`60_exceptions.md` R278). -/
def completeError (err : ErrCode) (s : State) : Out :=
  need s.codec.curOp .curOp fun op => .next (s.finish (ResRegs.latched op false err))

/-- `Complete(valid)`, with the error that R142 gives it by default. -/
def complete (valid : Bool) (s : State) : Out :=
  if valid then completeValid s else completeError .checksumMismatch s

/-- `Timeout` (`40_codec.md` R141). -/
def timeout (s : State) : Out := completeError .transportTimeout { s with desync := true }

/-- `Malformed` (`40_codec.md` R139). -/
def malformed (s : State) : Out := completeError .malformedResponse { s with desync := true }

/-! Accepting a command -/

/-- A command is accepted only in `IDLE`; in any other phase it is not, and the host waits (`10_state.md` R45). -/
def accept (s : State) (k : Out) : Out :=
  match s.phase with
  | .idle => k
  | .closed | .fatal | .tx | .rx => .next s

/-- A command that the model gives no meaning: only the `refused` mark changes (`41_operations.md` R170). -/
def refuseCommand (r : RefuseReason) (s : State) : Out := .next (s.refuse r)

/-! Construction and reset -/

/-- A legal configuration and opcode table (`10_state.md` R46, `30_encoding.md` R108). -/
def legalConfig (p : Params) (c : Cfg) : Bool := c.legal && p.opc.distinct

/-- Construction (`70_reset_and_hazards.md` R304 (1), (2)): from an illegal configuration no block is built. -/
def State.construct (p : Params) (c : Cfg) : Except RefuseReason State :=
  if legalConfig p c then .ok (State.resetWith p c) else .error .invalidConfig

/-- Reset (R300), the only way out of `FATAL` (`10_state.md` R22): every register of the block at its reset value. What
the environment and the host hold out is theirs. -/
def State.resetBlock (s : State) : State :=
  { State.resetWith s.par s.cfg with link := s.link, host := s.host }

end Sys2Proof.Machine
end

