-- ==== Sys2Proof/Machine/Mixer.lean ====
section
/-!
DEFINITION. The velocity mixer (`43_mixer.md`).
-/
namespace Sys2Proof.Machine

open Sys2Proof

/-- `angular * wheelBase / 2`, evaluated as `43_mixer.md` R250 says. -/
def halfTurn (angular wheelBase : NumVal) : NumVal := divN (mulN angular wheelBase) (.ofRat 2)

/-- `mix_left` (R250). -/
def mixLeftRate (linear angular wheelBase ticksPerMeter : NumVal) : NumVal :=
  mulN (subN linear (halfTurn angular wheelBase)) ticksPerMeter

/-- `mix_right` (R250). -/
def mixRightRate (linear angular wheelBase ticksPerMeter : NumVal) : NumVal :=
  mulN (addN linear (halfTurn angular wheelBase)) ticksPerMeter

/-- `Mix` (`43_mixer.md` R250). -/
def execMix (linear angular wheelBase ticksPerMeter : NumVal) (s : State) : Out :=
  accept s <|
    if linear.isFinite && angular.isFinite && wheelBase.isFinite && ticksPerMeter.isFinite then
      .next
        { s with
          mix :=
            { mixLeft := some (mixLeftRate linear angular wheelBase ticksPerMeter)
              mixRight := some (mixRightRate linear angular wheelBase ticksPerMeter)
              mixReady := true } }
    else refuseCommand .nonFinite s

end Sys2Proof.Machine
end

