-- ==== Sys2Proof/Machine/Odometry.lean ====
section
/-!
DEFINITION. The odometry integrator (`42_odometry.md`).
-/
namespace Sys2Proof.Machine

open Sys2Proof

/-- Step 3 of `Update` (`42_odometry.md` R220): the distance one wheel has run. -/
def wheelDist (s : State) (new last : Word) : NumVal :=
  divN (.ofInt (tickDelta s.par.tickDeltaMode new last)) s.cfg.ticksPerMeter

/-- Step 4: the distance of the centre. -/
def centreDist (distLeft distRight : NumVal) : NumVal := divN (addN distLeft distRight) (.ofRat 2)

/-- Step 4: the change of heading. -/
def headingDelta (wheelBase distLeft distRight : NumVal) : NumVal := divN (subN distRight distLeft) wheelBase

/-- Steps 2 and 5: a velocity, 0 where no time has passed (`42_odometry.md` R223). -/
def velocityOf (elapsed q : NumVal) : NumVal := if leN elapsed (.ofRat 0) then .ofRat 0 else divN q elapsed

/-- Step 6: the new `x` and `y`, with `theta` before step 7 (`42_odometry.md` R224). -/
def translatePose (theta dist dtheta x y : NumVal) : NumVal × NumVal :=
  if eqN dist (.ofRat 0) then (x, y)
  else
    let dx := mulN (cosN dtheta) dist
    let dy := negN (mulN (sinN dtheta) dist)
    (addN x (subN (mulN dx (cosN theta)) (mulN dy (sinN theta))),
      addN y (addN (mulN dx (sinN theta)) (mulN dy (cosN theta))))

/-- Step 7 (`42_odometry.md` R225). -/
def turn (theta dtheta : NumVal) : NumVal := if eqN dtheta (.ofRat 0) then theta else addN theta dtheta

/-- Steps 2 to 8 of `Update` (`42_odometry.md` R220): the integrator's registers after it. -/
def integrate (s : State) (now : NumVal) (left right : Word) : OdoRegs :=
  let elapsed := subN now s.odo.lastTime
  let distLeft := wheelDist s left s.odo.lastLeft
  let distRight := wheelDist s right s.odo.lastRight
  let dist := centreDist distLeft distRight
  let dtheta := headingDelta s.cfg.wheelBase distLeft distRight
  let xy := translatePose s.odo.theta dist dtheta s.odo.x s.odo.y
  { x := xy.1
    y := xy.2
    theta := turn s.odo.theta dtheta
    vLin := velocityOf elapsed dist
    vAng := velocityOf elapsed dtheta
    lastLeft := left
    lastRight := right
    lastTime := now
    odoResult := .updated }

/-- The skipped `Update` (`42_odometry.md` R221). -/
def State.skipUpdate (s : State) : State := { s with odo := { s.odo with odoResult := .skipped } }

/-- The `Update` that is not skipped, from tick operands that hold a value (R220). -/
def updateWith (now : NumVal) (left right : Word) (s : State) : Out := .next { s with odo := integrate s now left right }

/-- Steps 2 to 8 with operands that may hold no value, in the order of R220: the time is read, and refused where it is not
finite, before a tick operand is read; a read of an operand that holds no value is a fault (`41_operations.md` R188). -/
def updateValid (now : Option NumVal) (left right : Option Word) (s : State) : Out :=
  match now with
  | none => .fault .operandNoValue
  | some t =>
    if t.isFinite then
      match left, right with
      | some l, some r => updateWith t l r s
      | _, _ => .fault .operandNoValue
    else refuseCommand .nonFinite s

/-- `Update` (`42_odometry.md` R220). No operand but the two validities is read where one of these is 0 (R221). -/
def execUpdate (now : Option NumVal) (left right : Option Word) (leftValid rightValid : Bool) (s : State) : Out :=
  accept s (if leftValid && rightValid then updateValid now left right s else .next s.skipUpdate)

end Sys2Proof.Machine
end

