-- ==== Sys2Proof/Machine/Codec.lean ====
section
/-!
DEFINITION. The codec's steps (`40_codec.md`): `SendCommand`, the transmit step and the receive step.
-/
namespace Sys2Proof.Machine

open Sys2Proof

/-- `SendCommand` (`40_codec.md` R131), with `cur_op <- cmd_sel` of the accept step (`41_operations.md` R170). -/
def sendCommand (op : Sel) (opc : Byte) (payload : List Byte) (shape : Shape) (s : State) : State :=
  let frame := frameBytes s.cfg.address opc payload (!(shape.isRead && !s.par.readReqChecksum))
  { s with
    phase := .tx
    codec :=
      { s.codec with
        curOp := some op
        curOpc := some opc
        txChk := some (reqChk s.cfg.address opc payload)
        txFrame := some frame
        txLen := some frame.length
        txIdx := some 0
        rxShape := some shape } }

/-- `StartRx` (`40_codec.md` R133), with `opc` the opcode byte just sent. -/
def State.startRx (opc : Byte) (s : State) : State :=
  { s with
    phase := .rx
    codec :=
      { s.codec with
        rxSum := some (respSeed s.cfg.address opc)
        rxAcc := some 0
        rxIdx := some 0
        rxTerm := some false } }

/-- A transmit step's byte on the stream and its index counted (`40_codec.md` R132). -/
def State.sent (i : Nat) (b : Byte) (s : State) : State :=
  { s.txByte b with codec := { s.codec with txIdx := some (i + 1) } }

/-- The end of the frame (R132): the completion of an operation without a response, or the start of reception. -/
def endTx (shape : Shape) (s : State) : Out :=
  match shape with
  | .sNone => complete true s
  | .sByte | .sWord | .sDword | .sDwordStatus | .sString | .sAck =>
    need s.codec.curOpc .curOpc fun opc => .next (s.startRx opc)

/-- `TxStep` (`40_codec.md` R132). -/
def txStep (s : State) : Out :=
  need s.codec.txFrame .txFrame fun frame =>
  need s.codec.txIdx .txIdx fun i =>
  need s.codec.txLen .txLen fun len =>
  need s.codec.rxShape .rxShape fun shape =>
  let t := s.sent i (frameByte frame i)
  if i + 1 = len then endTx shape t else .next t

/-- A value byte (R134): `rx_acc` and `rx_sum`. -/
def State.takeValue (acc : Word) (sum b : Byte) (s : State) : State :=
  { s with codec := { s.codec with rxAcc := some (accShift acc b), rxSum := some (sum + b) } }

/-- A status byte (R134): `rx_status` and `rx_sum`. -/
def State.takeStatus (sum b : Byte) (s : State) : State :=
  { s with codec := { s.codec with rxStatus := some b, rxSum := some (sum + b) } }

/-- A string byte at index `i` (R134): `rx_str[i]`, `rx_sum`, and `rx_term` at a zero byte. Past the array there is no
entry to write (log entry 13). -/
def State.takeChar (i : Nat) (sum b : Byte) (term : Bool) (s : State) : State :=
  { s with
    codec :=
      { s.codec with
        rxStr := s.codec.rxStr.setIfInBounds i (some b)
        rxSum := some (sum + b)
        rxTerm := some (if b = 0 then true else term) } }

/-- The arm of the fixed shapes of `RxStep` (R134), at index `i`. -/
def rxFixed (shape : Shape) (i : Nat) (b : Byte) (s : State) : Out :=
  need s.codec.rxSum .rxSum fun sum =>
  if i < shape.valueBytes then need s.codec.rxAcc .rxAcc fun acc => .next (s.takeValue acc sum b)
  else if i < shape.bodyBytes then .next (s.takeStatus sum b)
  else complete (chkMatches sum b) s

/-- The `S_STRING` arm of `RxStep` (R134, R139), at index `i`. -/
def rxString (i : Nat) (b : Byte) (s : State) : Out :=
  need s.codec.rxTerm .rxTerm fun term =>
  need s.codec.rxSum .rxSum fun sum =>
  if term then complete (chkMatches sum b) s
  else if b ≠ 0 ∧ i = strMax - 1 then malformed (s.takeChar i sum b term)
  else .next (s.takeChar i sum b term)

/-- The `S_ACK` arm of `RxStep` (R134, R140). -/
def rxAck (b : Byte) (s : State) : Out :=
  need s.codec.txChk .txChk fun chk => complete (b == chk) s

/-- A receive step's byte `b` (R134): `rx_idx` counts it, and the shape says what becomes of it. -/
def receive (b : Byte) (s : State) : Out :=
  need s.codec.rxShape .rxShape fun shape =>
  need s.codec.rxIdx .rxIdx fun i =>
  let t : State := { s with codec := { s.codec with rxIdx := some (i + 1) } }
  match shape with
  | .sByte | .sWord | .sDword | .sDwordStatus => rxFixed shape i b t
  | .sString => rxString i b t
  | .sAck => rxAck b t
  | .sNone => .next t

/-- `RxStep` (`40_codec.md` R134). -/
def rxStep (s : State) : Out :=
  let t : State := { s with link := s.link.rxByte.2 }
  match s.link.rxByte.1 with
  | .timeout => timeout t
  | .byte b => receive b t

/-- An operation that sends a frame, accepted in `IDLE` (`41_operations.md` R170). -/
def startWire (op : Sel) (kind : OpKind) (payload : List Byte) (shape : Shape) (s : State) : Out :=
  accept s (.next (sendCommand op (s.par.opc.get kind) payload shape s))

end Sys2Proof.Machine
end

