-- ==== Sys2Proof/Machine/Read.lean ====
section
/-!
DEFINITION. The ten read operations (`41_operations.md` R171 to R180): each an opcode kind and a response shape. What
the response brings is `40_codec.md` R134 and R142.
-/
namespace Sys2Proof.Machine

open Sys2Proof

/-- `ReadVersion` (`41_operations.md` R171). -/
def execReadVersion (s : State) : Out := startWire 0x00 .version [] .sString s

/-- `ReadEncoderM1` (`41_operations.md` R172). -/
def execReadEncoderM1 (s : State) : Out := startWire 0x01 .encM1 [] .sDwordStatus s

/-- `ReadEncoderM2` (`41_operations.md` R173). -/
def execReadEncoderM2 (s : State) : Out := startWire 0x02 .encM2 [] .sDwordStatus s

/-- `ReadSpeedM1` (`41_operations.md` R174). -/
def execReadSpeedM1 (s : State) : Out := startWire 0x03 .speedM1 [] .sDwordStatus s

/-- `ReadSpeedM2` (`41_operations.md` R175). -/
def execReadSpeedM2 (s : State) : Out := startWire 0x04 .speedM2 [] .sDwordStatus s

/-- `ReadTemperature` (`41_operations.md` R176). -/
def execReadTemperature (s : State) : Out := startWire 0x05 .temp [] .sWord s

/-- `ReadErrorState` (`41_operations.md` R177). -/
def execReadErrorState (s : State) : Out := startWire 0x06 .error [] .sByte s

/-- `ReadMainBatteryVoltage` (`41_operations.md` R178). -/
def execReadMainBatteryVoltage (s : State) : Out := startWire 0x07 .batt [] .sWord s

/-- `ReadCurrents` (`41_operations.md` R179). -/
def execReadCurrents (s : State) : Out := startWire 0x08 .currents [] .sDword s

/-- `ReadEncoderModes` (`41_operations.md` R180). -/
def execReadEncoderModes (s : State) : Out := startWire 0x09 .modes [] .sWord s

end Sys2Proof.Machine
end

