-- ==== Sys2Proof/Machine/Write.lean ====
section
/-!
DEFINITION. The six write operations (`41_operations.md` R181 to R186).
-/
namespace Sys2Proof.Machine

open Sys2Proof

/-- `ResetEncoders` (`41_operations.md` R181). -/
def execResetEncoders (s : State) : Out := startWire 0x0A .reset [] (writeShape s.par) s

/-- The shared part of the four PID operations (`41_operations.md` R182, R183). -/
def setConstants (op : Sel) (kind : OpKind) (kd kp ki qpps : Word) (s : State) : Out :=
  startWire op kind (pidPayload kd kp ki qpps) (writeShape s.par) s

/-- The conversion of the three gains (R184), before anything is sent; a gain out of range is the refusal `RangeError`. -/
def setVelocityPid (op : Sel) (kind : OpKind) (kd kp ki : NumVal) (qpps : Word) (s : State) : Out :=
  match toFix16 kd, toFix16 kp, toFix16 ki with
  | some wkd, some wkp, some wki => setConstants op kind wkd wkp wki qpps s
  | _, _, _ => accept s (refuseCommand .rangeError s)

/-- `SetM1Constants` (`41_operations.md` R182). -/
def execSetM1Constants (kd kp ki qpps : Word) (s : State) : Out := setConstants 0x0B .pidM1 kd kp ki qpps s

/-- `SetM2Constants` (`41_operations.md` R183). -/
def execSetM2Constants (kd kp ki qpps : Word) (s : State) : Out := setConstants 0x0C .pidM2 kd kp ki qpps s

/-- `SetM1VelocityPID` (`41_operations.md` R184). Its `cur_op` is its own selector (log entry 9). -/
def execSetM1VelocityPID (kd kp ki : NumVal) (qpps : Word) (s : State) : Out := setVelocityPid 0x0D .pidM1 kd kp ki qpps s

/-- `SetM2VelocityPID` (`41_operations.md` R185). -/
def execSetM2VelocityPID (kd kp ki : NumVal) (qpps : Word) (s : State) : Out := setVelocityPid 0x0E .pidM2 kd kp ki qpps s

/-- `SetMixedSpeed` (`41_operations.md` R186). -/
def execSetMixedSpeed (left right : NumVal) (s : State) : Out :=
  match toWireRate s.par.speedWireEnc left, toWireRate s.par.speedWireEnc right with
  | some wl, some wr => startWire 0x0F .mixed (mixPayload s.par.leftIsM1 wl wr) (writeShape s.par) s
  | _, _ => accept s (refuseCommand .rangeError s)

end Sys2Proof.Machine
end

