-- ==== Sys2Proof/Machine/Dispatch.lean ====
section
/-! DEFINITION. The accept step's multiplexer (`41_operations.md` R170): one arm per operation. -/
namespace Sys2Proof.Machine

open Sys2Proof

def exec (i : Instr) (s : State) : Host.Outcome State Fault Refusal :=
  match i with
  | .readVersion => Sys2Proof.Machine.execReadVersion s
  | .readEncoderM1 => Sys2Proof.Machine.execReadEncoderM1 s
  | .readEncoderM2 => Sys2Proof.Machine.execReadEncoderM2 s
  | .readSpeedM1 => Sys2Proof.Machine.execReadSpeedM1 s
  | .readSpeedM2 => Sys2Proof.Machine.execReadSpeedM2 s
  | .readTemperature => Sys2Proof.Machine.execReadTemperature s
  | .readErrorState => Sys2Proof.Machine.execReadErrorState s
  | .readMainBatteryVoltage => Sys2Proof.Machine.execReadMainBatteryVoltage s
  | .readCurrents => Sys2Proof.Machine.execReadCurrents s
  | .readEncoderModes => Sys2Proof.Machine.execReadEncoderModes s
  | .resetEncoders => Sys2Proof.Machine.execResetEncoders s
  | .setM1Constants kd kp ki qpps => Sys2Proof.Machine.execSetM1Constants kd kp ki qpps s
  | .setM2Constants kd kp ki qpps => Sys2Proof.Machine.execSetM2Constants kd kp ki qpps s
  | .setM1VelocityPID kd kp ki qpps => Sys2Proof.Machine.execSetM1VelocityPID kd kp ki qpps s
  | .setM2VelocityPID kd kp ki qpps => Sys2Proof.Machine.execSetM2VelocityPID kd kp ki qpps s
  | .setMixedSpeed left right => Sys2Proof.Machine.execSetMixedSpeed left right s
  | .update now left right leftValid rightValid => Sys2Proof.Machine.execUpdate now left right leftValid rightValid s
  | .mix linear angular wheelBase ticksPerMeter => Sys2Proof.Machine.execMix linear angular wheelBase ticksPerMeter s

end Sys2Proof.Machine
end

