-- ==== Sys2Proof/WellFormed.lean ====
section
/-!
DEFINITION. Well-formedness: a real number is written in its canonical form, and an operation's real operands are.
-/
namespace Sys2Proof

/-- The term is not the zero term. -/
def TrigTerm.nonzero (t : TrigTerm) : Bool := t.cosC != 0 || t.sinC != 0

/-- Angles above `lo`, strictly rising, and no zero term. -/
def TrigTerm.canonicalFrom : ℚ → List TrigTerm → Bool
  | _, [] => true
  | lo, t :: ts => decide (lo < t.angle) && t.nonzero && TrigTerm.canonicalFrom t.angle ts

/-- The canonical form of an `Exact` (log entry 1). -/
def Exact.wf (e : Exact) : Bool := TrigTerm.canonicalFrom 0 e.trig

/-- Every `Exact` in it is canonical, and no inverse is that of 0. -/
def RealNum.wf : RealNum → Bool
  | .exact e => e.wf
  | .pi | .named _ => true
  | .add a b | .mul a b => a.wf && b.wf
  | .neg a | .cos a | .sin a => a.wf
  | .inv a => a.wf && a.sign != 0

/-- A real number is well formed; every other number is its code. -/
def NumVal.wf : NumVal → Bool
  | .real a => a.wf
  | .other _ => true

/-- Every real operand is canonical. A word, a tick count and a flag have no ill-formed value. -/
def Instr.wf : Instr → Bool
  | .readVersion | .readEncoderM1 | .readEncoderM2 | .readSpeedM1 | .readSpeedM2 | .readTemperature | .readErrorState
  | .readMainBatteryVoltage | .readCurrents | .readEncoderModes | .resetEncoders => true
  | .setM1Constants _ _ _ _ | .setM2Constants _ _ _ _ => true
  | .setM1VelocityPID kd kp ki _ | .setM2VelocityPID kd kp ki _ => kd.wf && kp.wf && ki.wf
  | .setMixedSpeed l r => l.wf && r.wf
  | .update now _ _ _ _ => now.all NumVal.wf
  | .mix a b c d => a.wf && b.wf && c.wf && d.wf

end Sys2Proof
end

