-- ==== Sys2Proof/Decode.lean ====
section
/-!
DEFINITION. The encodings of an operation: on the command port, a selector and an operand record (`30_encoding.md` R109,
R110), decoded for every selector; on the link, a request frame (R90 to R94, R108), read back from any bytes; and the
assembly spelling (R113).
-/
namespace Sys2Proof

/-! The command port -/

/-- Why a command has no operation. -/
inductive DecodeError where
  /-- `cmd_sel` in 0x12 .. 0x1F (`30_encoding.md` R110) -/
  | reservedCommand (sel : Sel)
  deriving DecidableEq, Repr

/-- The command a port word and its operand record select (`30_encoding.md` R109). -/
def decode (c : Command) : Except DecodeError Instr :=
  let o := c.operands
  match c.sel.toNat with
  | 0x00 => .ok .readVersion
  | 0x01 => .ok .readEncoderM1
  | 0x02 => .ok .readEncoderM2
  | 0x03 => .ok .readSpeedM1
  | 0x04 => .ok .readSpeedM2
  | 0x05 => .ok .readTemperature
  | 0x06 => .ok .readErrorState
  | 0x07 => .ok .readMainBatteryVoltage
  | 0x08 => .ok .readCurrents
  | 0x09 => .ok .readEncoderModes
  | 0x0A => .ok .resetEncoders
  | 0x0B => .ok (.setM1Constants o.kdWord o.kpWord o.kiWord o.qpps)
  | 0x0C => .ok (.setM2Constants o.kdWord o.kpWord o.kiWord o.qpps)
  | 0x0D => .ok (.setM1VelocityPID o.kd o.kp o.ki o.qpps)
  | 0x0E => .ok (.setM2VelocityPID o.kd o.kp o.ki o.qpps)
  | 0x0F => .ok (.setMixedSpeed o.left o.right)
  | 0x10 => .ok (.update o.now o.leftTicks o.rightTicks o.leftValid o.rightValid)
  | 0x11 => .ok (.mix o.linear o.angular o.wheelBase o.ticksPerMeter)
  | _ => .error (.reservedCommand c.sel)

/-- The selector of an operation (`30_encoding.md` R109). -/
def Instr.sel : Instr → Sel
  | .readVersion => 0x00
  | .readEncoderM1 => 0x01
  | .readEncoderM2 => 0x02
  | .readSpeedM1 => 0x03
  | .readSpeedM2 => 0x04
  | .readTemperature => 0x05
  | .readErrorState => 0x06
  | .readMainBatteryVoltage => 0x07
  | .readCurrents => 0x08
  | .readEncoderModes => 0x09
  | .resetEncoders => 0x0A
  | .setM1Constants _ _ _ _ => 0x0B
  | .setM2Constants _ _ _ _ => 0x0C
  | .setM1VelocityPID _ _ _ _ => 0x0D
  | .setM2VelocityPID _ _ _ _ => 0x0E
  | .setMixedSpeed _ _ => 0x0F
  | .update _ _ _ _ _ => 0x10
  | .mix _ _ _ _ => 0x11

/-- The operand record that carries an operation's operands, every other field zero. -/
def Instr.record : Instr → OperandRecord
  | .readVersion | .readEncoderM1 | .readEncoderM2 | .readSpeedM1 | .readSpeedM2 | .readTemperature | .readErrorState
  | .readMainBatteryVoltage | .readCurrents | .readEncoderModes | .resetEncoders => .zero
  | .setM1Constants kd kp ki qpps | .setM2Constants kd kp ki qpps =>
    { OperandRecord.zero with kdWord := kd, kpWord := kp, kiWord := ki, qpps := qpps }
  | .setM1VelocityPID kd kp ki qpps | .setM2VelocityPID kd kp ki qpps =>
    { OperandRecord.zero with kd := kd, kp := kp, ki := ki, qpps := qpps }
  | .setMixedSpeed left right => { OperandRecord.zero with left := left, right := right }
  | .update now l r lv rv =>
    { OperandRecord.zero with now := now, leftTicks := l, rightTicks := r, leftValid := lv, rightValid := rv }
  | .mix a b c d => { OperandRecord.zero with linear := a, angular := b, wheelBase := c, ticksPerMeter := d }

/-- The command that offers an operation. -/
def encode (i : Instr) : Command := ⟨i.sel, i.record⟩

/-- The command whose selector is the low five bits of a table word, with operands of zeros. -/
def tableCommand (w : Nat) : Command := ⟨BitVec.ofNat 5 w, .zero⟩

/-- What `decode` reads from the table word `w`. The port carries `cmd_sel[4:0]` and no further bit (R109), so a table
row of one byte has three bits that nothing reads. -/
def decodeTableWord (nbits w : Nat) : Option Instr :=
  match decode (tableCommand (w % 2 ^ nbits)) with
  | .ok i => some i
  | .error _ => none

/-! The link -/

/-- The request that a frame carries: the opcode kind and the payload's words. -/
structure Request where
  kind : OpKind
  words : List Word
  deriving DecidableEq, Repr

/-- How many 32-bit words the payload of a kind holds (`30_encoding.md` R92 to R94, `90_conflicts.md` C1). -/
def OpKind.payloadWords : OpKind → Nat
  | .pidM1 | .pidM2 => 4
  | .mixed => 2
  | .version | .encM1 | .encM2 | .speedM1 | .speedM2 | .temp | .error | .batt | .currents | .modes | .reset => 0

/-- A request whose words are as many as its kind carries. -/
def Request.wf (r : Request) : Bool := r.words.length == r.kind.payloadWords

/-- The kinds of the ten read operations, which may go without a checksum byte (`30_encoding.md` R92). -/
def OpKind.isRead : OpKind → Bool
  | .version | .encM1 | .encM2 | .speedM1 | .speedM2 | .temp | .error | .batt | .currents | .modes => true
  | .reset | .pidM1 | .pidM2 | .mixed => false

/-- The request an operation sends (`41_operations.md` R171 to R186); `none` for a local operation and for one whose
operands are refused. -/
def Instr.request (p : Params) : Instr → Option Request
  | .readVersion => some ⟨.version, []⟩
  | .readEncoderM1 => some ⟨.encM1, []⟩
  | .readEncoderM2 => some ⟨.encM2, []⟩
  | .readSpeedM1 => some ⟨.speedM1, []⟩
  | .readSpeedM2 => some ⟨.speedM2, []⟩
  | .readTemperature => some ⟨.temp, []⟩
  | .readErrorState => some ⟨.error, []⟩
  | .readMainBatteryVoltage => some ⟨.batt, []⟩
  | .readCurrents => some ⟨.currents, []⟩
  | .readEncoderModes => some ⟨.modes, []⟩
  | .resetEncoders => some ⟨.reset, []⟩
  | .setM1Constants kd kp ki qpps => some ⟨.pidM1, [kd, kp, ki, qpps]⟩
  | .setM2Constants kd kp ki qpps => some ⟨.pidM2, [kd, kp, ki, qpps]⟩
  | .setM1VelocityPID kd kp ki qpps =>
    match toFix16 kd, toFix16 kp, toFix16 ki with
    | some a, some b, some c => some ⟨.pidM1, [a, b, c, qpps]⟩
    | _, _, _ => none
  | .setM2VelocityPID kd kp ki qpps =>
    match toFix16 kd, toFix16 kp, toFix16 ki with
    | some a, some b, some c => some ⟨.pidM2, [a, b, c, qpps]⟩
    | _, _, _ => none
  | .setMixedSpeed left right =>
    match toWireRate p.speedWireEnc left, toWireRate p.speedWireEnc right with
    | some wl, some wr => some ⟨.mixed, if p.leftIsM1 then [wl, wr] else [wr, wl]⟩
    | _, _ => none
  | .update _ _ _ _ _ | .mix _ _ _ _ => none

/-- The payload of a request: its words, each big-endian (`30_encoding.md` R101). -/
def Request.payload (r : Request) : List Byte := r.words.flatMap bytes32

/-- The frame of a request (`30_encoding.md` R90, R92). -/
def Request.frame (p : Params) (addr : Byte) (r : Request) : List Byte :=
  frameBytes addr (p.opc.get r.kind) r.payload (!(r.kind.isRead && !p.readReqChecksum))

/-- Why bytes are no request frame. -/
inductive FrameError where
  | tooShort
  | wrongAddress (b : Byte)
  | unknownOpcode (b : Byte)
  | wrongLength (n : Nat)
  | wrongChecksum (b : Byte)
  deriving DecidableEq, Repr

/-- The kind an opcode byte stands for in a table. -/
def OpcTable.kindOf (t : OpcTable) (b : Byte) : Option OpKind := OpKind.all.find? (fun k => t.get k == b)

/-- The words of a payload of whole 32-bit fields. -/
def wordsOf : List Byte → Option (List Word)
  | [] => some []
  | a :: b :: c :: d :: rest => (wordsOf rest).map (be32 a b c d :: ·)
  | _ => none

/-- Reads the payload of `kind`, and the checksum byte where the frame has one. -/
def parseBody (p : Params) (addr opc : Byte) (kind : OpKind) (rest : List Byte) : Except FrameError Request :=
  let n := 4 * kind.payloadWords
  let chk := if kind.isRead && !p.readReqChecksum then [] else [reqChk addr opc (rest.take n)]
  if rest.length = n + chk.length then
    if rest.drop n = chk then
      match wordsOf (rest.take n) with
      | some ws => .ok ⟨kind, ws⟩
      | none => .error (.wrongLength rest.length)
    else .error (.wrongChecksum (rest.getLastD 0))
  else .error (.wrongLength rest.length)

/-- Reads a request frame from any bytes, as a listener on the link may. The block itself decodes no frame (R108). -/
def parseFrame (p : Params) (addr : Byte) (bytes : List Byte) : Except FrameError Request :=
  match bytes with
  | a :: opc :: rest =>
    if a = addr then
      match p.opc.kindOf opc with
      | some kind => parseBody p addr opc kind rest
      | none => .error (.unknownOpcode opc)
    else .error (.wrongAddress a)
  | _ => .error .tooShort

/-! The assembly spelling (`30_encoding.md` R113) -/

/-- An operand as it is spelled: an integer, a real or a boolean. -/
inductive AsmOperand where
  | int (n : Int)
  | real (q : ℚ)
  | bool (b : Bool)
  deriving DecidableEq, Repr

/-- The operation that a mnemonic and its operands, in the order of the operation's rule, spell. An integer operand is
taken modulo 2^32 (a `u32`, or an `s32` in two's complement). -/
def assemble (mnemonic : String) (ops : List AsmOperand) : Option Instr :=
  let w (n : Int) : Word := BitVec.ofInt 32 n
  match mnemonic, ops with
  | "ReadVersion", [] => some .readVersion
  | "ReadEncoderM1", [] => some .readEncoderM1
  | "ReadEncoderM2", [] => some .readEncoderM2
  | "ReadSpeedM1", [] => some .readSpeedM1
  | "ReadSpeedM2", [] => some .readSpeedM2
  | "ReadTemperature", [] => some .readTemperature
  | "ReadErrorState", [] => some .readErrorState
  | "ReadMainBatteryVoltage", [] => some .readMainBatteryVoltage
  | "ReadCurrents", [] => some .readCurrents
  | "ReadEncoderModes", [] => some .readEncoderModes
  | "ResetEncoders", [] => some .resetEncoders
  | "SetM1Constants", [.int kd, .int kp, .int ki, .int qpps] => some (.setM1Constants (w kd) (w kp) (w ki) (w qpps))
  | "SetM2Constants", [.int kd, .int kp, .int ki, .int qpps] => some (.setM2Constants (w kd) (w kp) (w ki) (w qpps))
  | "SetM1VelocityPID", [.real kd, .real kp, .real ki, .int qpps] =>
    some (.setM1VelocityPID (.ofRat kd) (.ofRat kp) (.ofRat ki) (w qpps))
  | "SetM2VelocityPID", [.real kd, .real kp, .real ki, .int qpps] =>
    some (.setM2VelocityPID (.ofRat kd) (.ofRat kp) (.ofRat ki) (w qpps))
  | "SetMixedSpeed", [.real l, .real r] => some (.setMixedSpeed (.ofRat l) (.ofRat r))
  | "Update", [.real t, .int l, .int r, .bool lv, .bool rv] =>
    some (.update (some (.ofRat t)) (some (w l)) (some (w r)) lv rv)
  | "Mix", [.real a, .real b, .real c, .real d] => some (.mix (.ofRat a) (.ofRat b) (.ofRat c) (.ofRat d))
  | _, _ => none

end Sys2Proof
end

