-- ==== Sys2Proof/Machine/Ports.lean ====
section
/-!
DEFINITION. The ports (`10_state.md` R44): what the block does next, the lifecycle steps (`70_reset_and_hazards.md` R301
to R305), what the host reads on the result port, and the operations its duties make of those readings
(`60_exceptions.md` R285).
-/
namespace Sys2Proof.Machine

open Sys2Proof

/-! What the block does next -/

/-- The next step of the block. A state in an action is the one after its offer is taken from the port. -/
inductive Action where
  | transmit
  | receive
  | openLink (t : State)
  | closeLink (t : State)
  | command (c : Command) (t : State)
  | wait
  | stuck
  deriving DecidableEq, Repr

/-- The state once the first command is taken. -/
def State.popCmd (s : State) : State := { s with host := { s.host with cmds := s.host.cmds.tail } }

/-- The state once the first lifecycle request is taken. -/
def State.popLifecycle (s : State) : State := { s with host := { s.host with lifecycle := s.host.lifecycle.tail } }

/-- The state once a free choice is drawn. -/
def State.drawn (s : State) : State := { s with link := { s.link with draws := s.link.draws + 1 } }

/-- In `IDLE` a command or a `CLOSE` is taken. Where both are offered the spec does not say which comes first: a free
choice (log entry 4). An `OPEN` is not accepted in `IDLE` and stays offered (R301). -/
def idleAction (s : State) : Action :=
  match s.host.lifecycle.head?, s.host.cmds.head? with
  | some .closeReq, none => .closeLink s.popLifecycle
  | some .closeReq, some c =>
    if Config.lifecycleFirst s.link.draws then .closeLink s.drawn.popLifecycle else .command c s.drawn.popCmd
  | some .openReq, some c | none, some c => .command c s.popCmd
  | some .openReq, none | none, none => .wait

/-- What is enabled (`10_state.md` R22, R45, `70_reset_and_hazards.md` R301, R303, R305). In `CLOSED` only an `OPEN` is
accepted, in `TX` and `RX` nothing, and in `FATAL` a `CLOSE`, which leaves `FATAL`. -/
def nextAction (s : State) : Action :=
  match s.phase with
  | .tx => .transmit
  | .rx => .receive
  | .idle => idleAction s
  | .closed =>
    match s.host.lifecycle.head? with
    | some .openReq => .openLink s.popLifecycle
    | some .closeReq | none => .wait
  | .fatal =>
    match s.host.lifecycle.head? with
    | some .closeReq => .closeLink s.popLifecycle
    | some .openReq | none => .stuck

/-- `OPEN` (R301): `IDLE` on `OPEN_OK`, after `SetTimeout`, which changes no register (R302); `FATAL` on `OPEN_FAIL`
(R303). -/
def openLink (s : State) : State :=
  { s with
    link := s.link.openAnswer.2
    phase :=
      match s.link.openAnswer.1 with
      | .ok => .idle
      | .fail => .fatal }

/-- `CLOSE` (R305): `CLOSED` from `IDLE`; `FATAL` stays `FATAL` (R303). -/
def closeLink (s : State) : State :=
  { s with
    phase :=
      match s.phase with
      | .fatal => .fatal
      | .closed | .idle | .tx | .rx => .closed }

/-- A command that decodes to no operation (`30_encoding.md` R110): the refusal `ReservedCommand`. -/
def rejectCommand (e : DecodeError) (s : State) : Out :=
  match e with
  | .reservedCommand _ => refuseCommand .reservedCommand s

/-! The result port -/

/-- A read of the result port: a register that holds no value is a fault (`10_state.md` R30, R42,
`93_implementation_defined.md` U3, U4). -/
def readPort {α : Type} (r : Reg) (o : Option α) : Except Fault α :=
  match o with
  | some a => .ok a
  | none => .error (.noValue r)

def State.readOp (s : State) : Except Fault Sel := readPort .resOp s.res.resOp
/-- The three-bit error code (`60_exceptions.md` R270). -/
def State.readErr (s : State) : Except Fault (BitVec 3) := (readPort .resErr s.res.resErr).map ErrCode.code
def State.readValid (s : State) : Except Fault Bool := readPort .resValid s.res.resValid
def State.readValue (s : State) : Except Fault Word := readPort .resValue s.res.resValue
def State.readStatus (s : State) : Except Fault Byte := readPort .resStatus s.res.resStatus
def State.readM1 (s : State) : Except Fault Half := readPort .resM1 s.res.resM1
def State.readM2 (s : State) : Except Fault Half := readPort .resM2 s.res.resM2
def State.readStr (s : State) : Except Fault (List Byte) := readPort .resStr s.res.resStr
def State.readStrLen (s : State) : Except Fault (BitVec 6) := readPort .resStrLen s.res.resStrLen
def State.readMixLeft (s : State) : Except Fault NumVal := readPort .mixLeft s.mix.mixLeft
def State.readMixRight (s : State) : Except Fault NumVal := readPort .mixRight s.mix.mixRight

/-- The source's `EncoderReading` (`41_operations.md` R172). -/
structure EncoderReading where
  ticks : Option Word
  status : Option Byte
  valid : Bool
  deriving DecidableEq, Repr

/-- The reading that `ReadEncoderM1` or `ReadEncoderM2` leaves (R172, R173): ticks and status hold no value where it is
invalid. -/
def State.encoderReading (s : State) : Except Fault EncoderReading :=
  s.readValid.map fun v => ⟨s.res.resValue, s.res.resStatus, v⟩

/-- `ticks = to_s32(res_value)` of a reading (`30_encoding.md` R102). -/
def EncoderReading.ticksS32 (r : EncoderReading) : Except Fault Int := (readPort .resValue r.ticks).map toS32

/-! The host's duties -/

/-- The `Update` that the host makes of the two readings (`42_odometry.md` R227, `41_operations.md` R188). -/
def hostUpdate (p : Params) (now : NumVal) (m1 m2 : EncoderReading) : Instr :=
  if p.leftIsM1 then .update (some now) m1.ticks m2.ticks m1.valid m2.valid
  else .update (some now) m2.ticks m1.ticks m2.valid m1.valid

/-- The `Mix` that the host makes of a velocity command (`43_mixer.md` R252). -/
def hostMix (c : Cfg) (linear angular : NumVal) : Instr := .mix linear angular c.wheelBase c.ticksPerMeter

/-- The `SetMixedSpeed` that the host makes of the mixer's latches (R252). -/
def hostDrive (s : State) : Except Fault Instr :=
  s.readMixLeft.bind fun l => s.readMixRight.map fun r => .setMixedSpeed l r

/-- The stop command (`70_reset_and_hazards.md` R305). -/
def stopCommand : Instr := .setMixedSpeed (.ofRat 0) (.ofRat 0)

/-- What the host holds out first at shutdown (R305): the stop command, and no request to close yet. -/
def State.offerStop (s : State) : State := { s with host := { cmds := [encode stopCommand], lifecycle := [] } }

/-- What the host holds out next (R305): it waits until the stop command is taken and the phase is `IDLE`, whatever came
of the command, and only then requests `CLOSE`. -/
def State.offerClose (s : State) : State :=
  if s.phase = .idle ∧ s.host.cmds = [] then { s with host := { s.host with lifecycle := [.closeReq] } } else s

/-! Where an operation and a run end (`70_reset_and_hazards.md` R317) -/

/-- An operation is in progress. It ends where the block returns to `IDLE`; an `OPEN`, in one step, in `IDLE` or
`FATAL`. -/
def State.inOperation (s : State) : Bool :=
  match s.phase with
  | .tx | .rx => true
  | .closed | .fatal | .idle => false

/-- The run has ended: no operation is in progress, and the host offers nothing more. -/
def State.runEnded (s : State) : Bool := !s.inOperation && s.host.cmds.isEmpty && s.host.lifecycle.isEmpty

/-- A good final state: the run has ended, and nothing was refused. DESIGN CHOICE: R317 says only that a state with
`refused = 1` is never one; that these two conditions are enough, also in `FATAL` or with `desync` set, is the model's
choice (log entry 23). -/
def State.goodEnd (s : State) : Bool := s.runEnded && s.refused.isNone

end Sys2Proof.Machine
end

