-- ==== Sys2Proof/Machine/Step.lean ====
section
/-!
DEFINITION. One step of the block: it transmits or receives one byte, takes one lifecycle request, or accepts one command
(`92_eei_decisions.md` D1); with nothing enabled it waits (`70_reset_and_hazards.md` R306).
-/
namespace Sys2Proof.Machine

open Sys2Proof

/-- The accept step of a command taken from the port (`41_operations.md` R170). -/
def acceptCommand (c : Command) (s : State) : Out :=
  match decode c with
  | .ok i => exec i s
  | .error e => rejectCommand e s

/-- One step of the block. -/
def step (s : State) : Host.Outcome State Fault Refusal :=
  match nextAction s with
  | .transmit => txStep s
  | .receive => rxStep s
  | .openLink t => .next (openLink t)
  | .closeLink t => .next (closeLink t)
  | .command c t => acceptCommand c t
  | .wait => .next s
  | .stuck => .fault .transportUnavailable

/-- `s` with the operation of a table word, its operands zeros, as the one command offered, the transport open and no
lifecycle request offered: the next step accepts it (log entry 10). -/
def State.withFetchWord (s : State) (nbits w : Nat) : State :=
  { s with phase := .idle, host := { cmds := [tableCommand (w % 2 ^ nbits)], lifecycle := [] } }

end Sys2Proof.Machine
end

