-- ==== Sys2Proof/Safety.lean ====
section
/-!
DEFINITION. The terms that claims about the block use: runs of steps, the real number that a `RealNum` is, and the
invariants of a run.
-/
namespace Sys2Proof

/-! The reference meaning of numbers (`00_scope.md` R8) -/

/-- The real number a term is. -/
noncomputable def TrigTerm.val (t : TrigTerm) : ℝ :=
  (t.cosC : ℝ) * Real.cos (t.angle : ℝ) + (t.sinC : ℝ) * Real.sin (t.angle : ℝ)

/-- The real number that the terms of a list sum to. -/
noncomputable def TrigTerm.sumVal : List TrigTerm → ℝ
  | [] => 0
  | t :: ts => t.val + TrigTerm.sumVal ts

/-- The real number that an `Exact` is. -/
noncomputable def Exact.val (e : Exact) : ℝ := (e.rat : ℝ) + TrigTerm.sumVal e.trig

/-- The real number that a code names: its integer part and its binary digits. -/
noncomputable def namedVal (code : Nat) : ℝ :=
  (Config.realInt code : ℝ) + ∑' n : Nat, if Config.realDigit code n then (1 / 2 : ℝ) ^ (n + 1) else 0

/-- The real number that a `RealNum` is. -/
noncomputable def RealNum.val : RealNum → ℝ
  | .exact e => e.val
  | .pi => Real.pi
  | .named code => namedVal code
  | .add a b => a.val + b.val
  | .neg a => -a.val
  | .mul a b => a.val * b.val
  | .inv a => a.val⁻¹
  | .cos a => Real.cos a.val
  | .sin a => Real.sin a.val

/-- The number `a` is the real number `r`. -/
def NumVal.Denotes (a : NumVal) (r : ℝ) : Prop := ∃ e : RealNum, a = .real e ∧ e.val = r

/-- Every real operand of the record is canonical. -/
def OperandRecord.wf (o : OperandRecord) : Bool :=
  o.kd.wf && o.kp.wf && o.ki.wf && o.left.wf && o.right.wf && o.now.all NumVal.wf && o.linear.wf && o.angular.wf
    && o.wheelBase.wf && o.ticksPerMeter.wf

namespace Machine

/-! Runs -/

/-- `k` steps, stopping at the first fault or refusal. -/
def stepN : Nat → State → Out
  | 0, s => .next s
  | k + 1, s =>
    match step s with
    | .next t => stepN k t
    | .fault r => .fault r
    | .refused r => .refused r

/-- The accept step of an operation and `k` steps after it (`00_scope.md` R11). -/
def runOperation (i : Instr) (k : Nat) (s : State) : Out :=
  match exec i s with
  | .next t => stepN k t
  | .fault r => .fault r
  | .refused r => .refused r

/-! The read operations, as `30_encoding.md` R108 and R109 list them -/

/-- A row of the tables of R108 and R109. -/
structure ReadRow where
  instr : Instr
  sel : Sel
  kind : OpKind
  shape : Shape

/-- The ten read operations. -/
def readRows : List ReadRow :=
  [⟨.readVersion, 0x00, .version, .sString⟩,
    ⟨.readEncoderM1, 0x01, .encM1, .sDwordStatus⟩,
    ⟨.readEncoderM2, 0x02, .encM2, .sDwordStatus⟩,
    ⟨.readSpeedM1, 0x03, .speedM1, .sDwordStatus⟩,
    ⟨.readSpeedM2, 0x04, .speedM2, .sDwordStatus⟩,
    ⟨.readTemperature, 0x05, .temp, .sWord⟩,
    ⟨.readErrorState, 0x06, .error, .sByte⟩,
    ⟨.readMainBatteryVoltage, 0x07, .batt, .sWord⟩,
    ⟨.readCurrents, 0x08, .currents, .sDword⟩,
    ⟨.readEncoderModes, 0x09, .modes, .sWord⟩]

/-- The frame of a read request (`30_encoding.md` R92): three bytes, or two without the checksum byte. -/
def readFrame (p : Params) (addr opc : Byte) : List Byte :=
  if p.readReqChecksum then [addr, opc, (addr + opc) &&& 0x7F] else [addr, opc]

/-- The result registers after a wire operation without a value (`40_codec.md` R142). -/
def noValueResult (op : Sel) (valid : Bool) (err : ErrCode) : ResRegs :=
  { resReady := true, resOp := some op, resErr := some err, resValid := some valid, resValue := none
    resStatus := none, resM1 := none, resM2 := none, resStr := none, resStrLen := none }

/-- `t` is `s` after a wire operation: back in `IDLE`, `sent` on the transmit stream, the answers `rest` left, the result
`res`; and nothing else is changed but the codec's working registers. -/
def Completed (s t : State) (sent : List Byte) (rest : List RxAnswer) (desync : Bool) (res : ResRegs) : Prop :=
  t.phase = .idle ∧ t.link = { s.link with txStream := s.link.txStream ++ sent, rxAnswers := rest } ∧
  t.desync = desync ∧ t.res = res ∧ t.par = s.par ∧ t.cfg = s.cfg ∧ t.refused = s.refused ∧ t.odo = s.odo ∧
  t.mix = s.mix ∧ t.host = s.host

/-! The codec's invariant -/

/-- An operation in `TX` (`10_state.md` R23 to R25, `40_codec.md` R131): its registers hold values, its frame has 2 to
19 bytes of which some are left, the frame starts with the address and an opcode of the table (`30_encoding.md` R90,
R111 (a)), and bit 7 of its checksum is 0 (R91). -/
def TxInv (s : State) : Prop :=
  ∃ op opc frame i chk shape,
    s.codec.curOp = some op ∧ s.codec.curOpc = some opc ∧ s.codec.txFrame = some frame ∧
    s.codec.txLen = some frame.length ∧ s.codec.txIdx = some i ∧ s.codec.txChk = some chk ∧
    s.codec.rxShape = some shape ∧ i < frame.length ∧ 2 ≤ frame.length ∧ frame.length ≤ 19 ∧
    frame[0]? = some s.cfg.address ∧ frame[1]? = some opc ∧ (∃ k, opc = s.par.opc.get k) ∧ chk.getLsbD 7 = false

/-- Reception of a fixed shape after `i` bytes (`40_codec.md` R134): `rx_acc` holds the value bytes so far, and `rx_sum`
the seed and every byte so far. -/
def FixedRx (s : State) (opc : Byte) (shape : Shape) (i : Nat) (sum : Byte) (acc : Word) : Prop :=
  i ≤ shape.bodyBytes ∧ acc.toNat < 2 ^ (8 * i) ∧
  if i ≤ shape.valueBytes then sum = respSum s.cfg.address opc (bytes32 acc)
  else ∃ st, s.codec.rxStatus = some st ∧ sum = respSum s.cfg.address opc (bytes32 acc ++ [st])

/-- Reception of a string after `i` bytes (`40_codec.md` R139): before the terminator the bytes so far are not zero and
there is room for the next; after it the array holds the string. -/
def StringRx (s : State) (opc : Byte) (i : Nat) (sum : Byte) (term : Bool) : Prop :=
  if term then
    ∃ str, stringOf s.codec.rxStr.toList = some str ∧ str.length = i ∧ sum = respSum s.cfg.address opc str
  else
    i < strMax ∧ ∃ str : List Byte,
      str.length = i ∧ (∀ b ∈ str, b ≠ 0) ∧ s.codec.rxStr.toList.take i = str.map some ∧
      sum = respSum s.cfg.address opc str

/-- An operation in `RX` (`10_state.md` R25 to R29): its registers hold values, and the response so far is where its shape
allows. -/
def RxInv (s : State) : Prop :=
  ∃ op opc chk shape i sum acc term,
    s.codec.curOp = some op ∧ s.codec.curOpc = some opc ∧ s.codec.txChk = some chk ∧ s.codec.rxShape = some shape ∧
    s.codec.rxIdx = some i ∧ s.codec.rxSum = some sum ∧ s.codec.rxAcc = some acc ∧ s.codec.rxTerm = some term ∧
    (∃ k, opc = s.par.opc.get k) ∧
    match shape with
    | .sByte | .sWord | .sDword | .sDwordStatus => FixedRx s opc shape i sum acc
    | .sString => StringRx s opc i sum term
    | .sAck => i = 0
    | .sNone => False

/-- The codec's invariant: an operation in progress is where its frame and its shape allow. -/
def CodecInv (s : State) : Prop :=
  match s.phase with
  | .tx => TxInv s
  | .rx => RxInv s
  | .closed | .fatal | .idle => True

/-! The result port's invariant -/

/-- Without a valid read no value register holds a value (`10_state.md` R30, `41_operations.md` R188). -/
def ResInv (s : State) : Prop :=
  s.res.resValid ≠ some true →
    s.res.resValue = none ∧ s.res.resStatus = none ∧ s.res.resM1 = none ∧ s.res.resM2 = none ∧
    s.res.resStr = none ∧ s.res.resStrLen = none

/-! Canonical numbers -/

/-- Every real number of the state, and of the commands offered, is well formed. -/
def NumsWf (s : State) : Prop :=
  s.par.initTime.wf = true ∧
  (s.cfg.timeoutS.wf && s.cfg.updateRateHz.wf && s.cfg.wheelBase.wf && s.cfg.ticksPerMeter.wf && s.cfg.kp.wf
    && s.cfg.ki.wf && s.cfg.kd.wf) = true ∧
  (s.odo.x.wf && s.odo.y.wf && s.odo.theta.wf && s.odo.vLin.wf && s.odo.vAng.wf && s.odo.lastTime.wf) = true ∧
  (s.mix.mixLeft.all NumVal.wf && s.mix.mixRight.all NumVal.wf) = true ∧
  ∀ c ∈ s.host.cmds, c.operands.wf = true

/-! What an operation cannot touch -/

/-- `t` differs from `s` in nothing but the codec's working registers and the phase. -/
def OnlyCodec (s t : State) : Prop :=
  t.par = s.par ∧ t.cfg = s.cfg ∧ t.res = s.res ∧ t.desync = s.desync ∧ t.refused = s.refused ∧ t.odo = s.odo ∧
  t.mix = s.mix ∧ t.link = s.link ∧ t.host = s.host

end Machine

end Sys2Proof
end

