-- ==== Sys2Proof/Certificates/Slice0/Obligations.lean ====
section
/-!
DEFINITION. The statements about the block, one `def Obligations.<Name> : Prop` each. `spec/` is cited by file and rule.
-/

open Sys2Proof Sys2Proof.Machine

/-! ### Commands and their encodings -/

/-- A step in `IDLE` with a command offered, and no `CLOSE`, is the accept step of the operation the command decodes to,
with the command taken from the port (`41_operations.md` R170, `10_state.md` R45; that the host's next command is then the
one offered is the model's choice, log entry 4). -/
def Obligations.StepRunsTheDecodedCommand : Prop :=
  ∀ (s : State) (c : Command) (cs : List Command) (i : Instr),
    s.phase = .idle → s.host.lifecycle.head? ≠ some .closeReq → s.host.cmds = c :: cs → decode c = .ok i →
      step s = exec i { s with host := { s.host with cmds := cs } }

/-- A few selectors of the map of `30_encoding.md` R109, with their operands. -/
def Obligations.CommandWordsDecode : Prop :=
  decode ⟨0x00, .zero⟩ = .ok .readVersion ∧
  decode ⟨0x09, .zero⟩ = .ok .readEncoderModes ∧
  decode ⟨0x0A, .zero⟩ = .ok .resetEncoders ∧
  decode ⟨0x0B, { OperandRecord.zero with kdWord := 1, kpWord := 2, kiWord := 3, qpps := 4 }⟩ =
    .ok (.setM1Constants 1 2 3 4) ∧
  decode ⟨0x0F, { OperandRecord.zero with left := .ofRat 25, right := .ofRat 75 }⟩ =
    .ok (.setMixedSpeed (.ofRat 25) (.ofRat 75)) ∧
  decode ⟨0x10, { OperandRecord.zero with now := some (.ofRat 1), leftTicks := none, rightValid := true }⟩ =
    .ok (.update (some (.ofRat 1)) none (some 0) false true) ∧
  decode ⟨0x11, { OperandRecord.zero with linear := .ofRat 1, ticksPerMeter := .ofRat 100 }⟩ =
    .ok (.mix (.ofRat 1) (.ofRat 0) (.ofRat 0) (.ofRat 100)) ∧
  decode ⟨0x12, .zero⟩ = .error (.reservedCommand 0x12)

/-- Decoding the command that offers an operation gives the operation back, with every operand (`30_encoding.md` R109). -/
def Obligations.DecodeInvertsEncode : Prop := ∀ i : Instr, decode (encode i) = .ok i

/-- A command with a selector in 0x12 .. 0x1F is refused: it is taken from the port, `refused` is set, and nothing else
changes (`30_encoding.md` R110; that it is taken from the port and that an earlier reason stays are the model's choice,
log entries 4 and 12). -/
def Obligations.ReservedCommandsAreRefused : Prop :=
  ∀ (s : State) (c : Command) (cs : List Command),
    0x12 ≤ c.sel.toNat → s.phase = .idle → s.host.lifecycle.head? ≠ some .closeReq → s.host.cmds = c :: cs →
      decode c = .error (.reservedCommand c.sel) ∧
      step s = .next
        { s with host := { s.host with cmds := cs }, refused := some (s.refused.getD .reservedCommand) }

/-- Outside `IDLE` no command is accepted, and it stays offered (`10_state.md` R45). -/
def Obligations.CommandsWaitOutsideIdle : Prop :=
  (∀ (i : Instr) (s : State), s.phase ≠ .idle → exec i s = .next s) ∧
  (∀ s t : State, s.phase ≠ .idle → step s = .next t → t.host.cmds = s.host.cmds)

/-- The frame of a request, read back, gives the request: its kind and every bit of its words; and every request an
operation sends is one (`30_encoding.md` R90 to R94, R101, R108). -/
def Obligations.FramesReadBack : Prop :=
  (∀ (p : Params) (addr : Byte) (r : Request), p.opc.distinct = true → r.wf = true →
    parseFrame p addr (r.frame p addr) = .ok r) ∧
  (∀ (p : Params) (i : Instr) (r : Request), i.request p = some r → r.wf = true)

/-- No other bytes read as a request: what reads as `r` is the frame of `r` (`30_encoding.md` R90 to R94). -/
def Obligations.OnlyFramesReadBack : Prop :=
  ∀ (p : Params) (addr : Byte) (bytes : List Byte) (r : Request),
    parseFrame p addr bytes = .ok r → r.wf = true ∧ r.frame p addr = bytes

/-! ### The checksum -/

/-- The checksum functions of `40_codec.md` R130, over natural numbers. -/
def Obligations.ChecksumsAreSumsModulo256 : Prop :=
  ∀ (addr opc c : Byte) (bytes : List Byte),
    (reqChk addr opc bytes).toNat = (addr.toNat + opc.toNat + (bytes.map BitVec.toNat).sum) % 256 % 128 ∧
    (respSum addr opc bytes).toNat = (addr.toNat + opc.toNat + (bytes.map BitVec.toNat).sum) % 256 ∧
    (respValid addr opc bytes c = true ↔ (respSum addr opc bytes).toNat % 128 = c.toNat)

/-- Bit 7 of the checksum byte of an accepted operation's frame is 0, and the byte ends the frame, unless the operation is
a read and `READ_REQ_CHECKSUM` is false (`30_encoding.md` R90 to R92). -/
def Obligations.RequestChecksumsHaveBit7Clear : Prop :=
  ∀ (i : Instr) (s t : State), s.phase = .idle → exec i s = .next t → t.phase = .tx →
    ∃ (chk : Byte) (frame : List Byte),
      t.codec.txChk = some chk ∧ t.codec.txFrame = some frame ∧ chk.getLsbD 7 = false ∧ chk.toNat ≤ 0x7F ∧
      (s.par.readReqChecksum = true ∨ (∀ row ∈ readRows, row.instr ≠ i) → frame.getLast? = some chk) ∧
      t.codec.txLen = some frame.length

/-- What the checksum detects in a response that was valid as sent (`40_codec.md` R144 (a) to (e)). -/
def Obligations.ChecksumDetection : Prop :=
  (∀ (addr opc b b' c : Byte) (before after : List Byte),
    respValid addr opc (before ++ [b] ++ after) c = true →
      (∀ j < 7, respValid addr opc (before ++ [b ^^^ BitVec.twoPow 8 j] ++ after) c = false) ∧
      respValid addr opc (before ++ [b ^^^ 0x80] ++ after) c = true ∧
      (respValid addr opc (before ++ [b'] ++ after) c = true ↔ b' = b ∨ b' = b ^^^ 0x80)) ∧
  (∀ (addr opc c c' : Byte) (body : List Byte),
    respValid addr opc body c = true → c' ≠ c → respValid addr opc body c' = false) ∧
  (∀ (addr opc c : Byte) (body body' : List Byte),
    respValid addr opc body c = true →
      (respValid addr opc body' c = true ↔
        (((body'.map BitVec.toNat).sum : Int) - ((body.map BitVec.toNat).sum : Int)) % 128 = 0))

/-! ### Operations accepted -/

/-- Each of the ten read operations is accepted in `IDLE`: its frame, opcode and shape are those of `30_encoding.md` R92,
R108 and R109 (`41_operations.md` R171 to R180, `40_codec.md` R131). -/
def Obligations.ReadOperationsAreAccepted : Prop :=
  ∀ row ∈ readRows, ∀ s : State, s.phase = .idle →
    let opc := s.par.opc.get row.kind
    exec row.instr s = .next
      { s with
        phase := .tx
        codec :=
          { s.codec with
            curOp := some row.sel
            curOpc := some opc
            txChk := some ((s.cfg.address + opc) &&& 0x7F)
            txFrame := some (readFrame s.par s.cfg.address opc)
            txLen := some (if s.par.readReqChecksum then 3 else 2)
            txIdx := some 0
            rxShape := some row.shape } }

/-- `ResetEncoders` is accepted in `IDLE`, always with its checksum byte (`41_operations.md` R181). -/
def Obligations.ResetEncodersIsAccepted : Prop :=
  ∀ s : State, s.phase = .idle →
    exec .resetEncoders s = .next
      { s with
        phase := .tx
        codec :=
          { s.codec with
            curOp := some 0x0A
            curOpc := some s.par.opc.reset
            txChk := some ((s.cfg.address + s.par.opc.reset) &&& 0x7F)
            txFrame := some [s.cfg.address, s.par.opc.reset, (s.cfg.address + s.par.opc.reset) &&& 0x7F]
            txLen := some 3
            txIdx := some 0
            rxShape := some (if s.par.ackLen = 0 then .sNone else .sAck) } }

/-- `SetM1Constants` and `SetM2Constants` are accepted in `IDLE`: 19 bytes, the words in the order kd, kp, ki, qpps, most
significant byte first, bit for bit (`41_operations.md` R182, R183, `30_encoding.md` R93, R101). -/
def Obligations.SetConstantsAreAccepted : Prop :=
  ∀ (s : State) (kd kp ki qpps : Word), s.phase = .idle →
    let payload := [kd, kp, ki, qpps].flatMap fun w =>
      [w.extractLsb' 24 8, w.extractLsb' 16 8, w.extractLsb' 8 8, w.extractLsb' 0 8]
    let sent (op : Sel) (opc : Byte) : State :=
      { s with
        phase := .tx
        codec :=
          { s.codec with
            curOp := some op
            curOpc := some opc
            txChk := some (reqChk s.cfg.address opc payload)
            txFrame := some ([s.cfg.address, opc] ++ payload ++ [reqChk s.cfg.address opc payload])
            txLen := some 19
            txIdx := some 0
            rxShape := some (if s.par.ackLen = 0 then .sNone else .sAck) } }
    exec (.setM1Constants kd kp ki qpps) s = .next (sent 0x0B s.par.opc.pidM1) ∧
    exec (.setM2Constants kd kp ki qpps) s = .next (sent 0x0C s.par.opc.pidM2)

/-- `SetM1VelocityPID` and `SetM2VelocityPID` do what `SetM1Constants` and `SetM2Constants` do with the converted gains,
under their own selector (`41_operations.md` R184, R185, `30_encoding.md` R114; that `cur_op` is their own selector is
the reading of log entry 9). -/
def Obligations.VelocityPidIsAccepted : Prop :=
  ∀ (s : State) (kd kp ki : NumVal) (wkd wkp wki qpps : Word), s.phase = .idle →
    toFix16 kd = some wkd → toFix16 kp = some wkp → toFix16 ki = some wki →
    ∃ t1 t2 : State,
      exec (.setM1Constants wkd wkp wki qpps) s = .next t1 ∧
      exec (.setM1VelocityPID kd kp ki qpps) s = .next { t1 with codec := { t1.codec with curOp := some 0x0D } } ∧
      exec (.setM2Constants wkd wkp wki qpps) s = .next t2 ∧
      exec (.setM2VelocityPID kd kp ki qpps) s = .next { t2 with codec := { t2.codec with curOp := some 0x0E } } ∧
      t1.phase = .tx ∧ t1.codec.txLen = some 19 ∧ t2.phase = .tx ∧ t2.codec.txLen = some 19

/-- `SetMixedSpeed` is accepted in `IDLE` with two rates that have wire words: 11 bytes, the word of the M1 wheel first
(`41_operations.md` R186, `30_encoding.md` R94). -/
def Obligations.SetMixedSpeedIsAccepted : Prop :=
  ∀ (s : State) (left right : NumVal) (wl wr : Word), s.phase = .idle →
    toWireRate s.par.speedWireEnc left = some wl → toWireRate s.par.speedWireEnc right = some wr →
    let opc := s.par.opc.mixed
    let payload := (if s.par.leftIsM1 then [wl, wr] else [wr, wl]).flatMap fun w =>
      [w.extractLsb' 24 8, w.extractLsb' 16 8, w.extractLsb' 8 8, w.extractLsb' 0 8]
    exec (.setMixedSpeed left right) s = .next
      { s with
        phase := .tx
        codec :=
          { s.codec with
            curOp := some 0x0F
            curOpc := some opc
            txChk := some (reqChk s.cfg.address opc payload)
            txFrame := some ([s.cfg.address, opc] ++ payload ++ [reqChk s.cfg.address opc payload])
            txLen := some 11
            txIdx := some 0
            rxShape := some (if s.par.ackLen = 0 then .sNone else .sAck) } }

/-- The refusals of the accept step: a gain or a rate without a wire word is `RangeError`; a non-finite time of an
`Update` that is not skipped, and a non-finite operand of `Mix`, is `NonFinite`. Only the mark changes, and nothing is
sent (`41_operations.md` R184 to R186, `42_odometry.md` R220, `43_mixer.md` R250, `60_exceptions.md` R275). That an
earlier reason stays is the model's choice (log entry 12), and that the time is refused whatever the ticks hold is its
reading of R220's order (log entry 21). -/
def Obligations.RefusedOperationsChangeOnlyTheMark : Prop :=
  ∀ s : State, s.phase = .idle →
    let marked (r : RefuseReason) : State := { s with refused := some (s.refused.getD r) }
    (∀ (kd kp ki : NumVal) (qpps : Word), toFix16 kd = none ∨ toFix16 kp = none ∨ toFix16 ki = none →
      exec (.setM1VelocityPID kd kp ki qpps) s = .next (marked .rangeError) ∧
      exec (.setM2VelocityPID kd kp ki qpps) s = .next (marked .rangeError)) ∧
    (∀ l r : NumVal, toWireRate s.par.speedWireEnc l = none ∨ toWireRate s.par.speedWireEnc r = none →
      exec (.setMixedSpeed l r) s = .next (marked .rangeError)) ∧
    (∀ (now : NumVal) (l r : Option Word), now.isFinite = false →
      exec (.update (some now) l r true true) s = .next (marked .nonFinite)) ∧
    (∀ a b c d : NumVal,
      a.isFinite = false ∨ b.isFinite = false ∨ c.isFinite = false ∨ d.isFinite = false →
      exec (.mix a b c d) s = .next (marked .nonFinite))

/-! ### Real numbers on the wire -/

/-- `ToFix16` (`30_encoding.md` R103, `00_scope.md` R8) of a real number `a`: refused exactly where the rounded `65536 a`
is out of range; else the word nearest to `65536 a`, a tie away from zero; and refused of every non-finite number. -/
def Obligations.GainsRoundToTheNearestWord : Prop :=
  (∀ a : RealNum, toFix16 (.real a) = none ↔ 65536 * a.val ≤ -(1 / 2) ∨ 4294967295 + 1 / 2 ≤ 65536 * a.val) ∧
  (∀ (a : RealNum) (w : Word), toFix16 (.real a) = some w →
    65536 * a.val - 1 / 2 < (w.toNat : ℝ) ∧ (w.toNat : ℝ) ≤ 65536 * a.val + 1 / 2) ∧
  (∀ r : NumVal, r.isFinite = false → toFix16 r = none)

/-- `ToWireRate` (`30_encoding.md` R104, `00_scope.md` R8) of a real number `a`, by its integer `n` truncated toward zero:
refused exactly out of the range of the encoding; else the word of `n`, in two's complement or in sign and magnitude; and
refused of every non-finite number. -/
def Obligations.RatesTruncateTowardZero : Prop :=
  (∀ (a : RealNum) (n : Int), n = (if 0 ≤ a.val then ⌊a.val⌋ else ⌈a.val⌉) →
    (toWireRate .twos (.real a) = none ↔ n < -2147483648 ∨ 2147483647 < n) ∧
    (toWireRate .signMag (.real a) = none ↔ n < -2147483647 ∨ 2147483647 < n) ∧
    (∀ w : Word, toWireRate .twos (.real a) = some w → w.toInt = n) ∧
    (∀ w : Word, toWireRate .signMag (.real a) = some w →
      w.getLsbD 31 = decide (n < 0) ∧ ((w.extractLsb' 0 31).toNat : Int) = |n|)) ∧
  (∀ (enc : SpeedWireEnc) (r : NumVal), r.isFinite = false → toWireRate enc r = none)

/-- The integer-to-word step is lossless: two integers with one word are equal, and every word but the negative zero of
sign and magnitude is some integer's (`30_encoding.md` R104). -/
def Obligations.WireWordsAreLossless : Prop :=
  (∀ (enc : SpeedWireEnc) (m n : Int) (w : Word), wireOfInt enc m = some w → wireOfInt enc n = some w → m = n) ∧
  (∀ w : Word, ∃ n : Int, wireOfInt .twos n = some w) ∧
  (∀ w : Word, (∃ n : Int, wireOfInt .signMag n = some w) ↔ w ≠ 0x80000000)

/-! ### The codec's steps and whole operations

The answers of the environment are the model's list (log entry 3). -/

/-- A transmit step (`40_codec.md` R132, R133): the frame's next byte goes onto the stream; before the last byte nothing
else happens; at the last an operation without a response completes validly, and any other starts reception with the
seed. -/
def Obligations.TransmitStepSendsTheNextByte : Prop :=
  ∀ (s : State) (frame : List Byte) (i : Nat) (b opc : Byte) (op : Sel) (shape : Shape),
    s.phase = .tx → s.codec.txFrame = some frame → s.codec.txLen = some frame.length → s.codec.txIdx = some i →
    frame[i]? = some b → s.codec.rxShape = some shape → s.codec.curOp = some op → s.codec.curOpc = some opc →
    let sent : State :=
      { s with
        link := { s.link with txStream := s.link.txStream ++ [b] }
        codec := { s.codec with txIdx := some (i + 1) } }
    (i + 1 < frame.length → step s = .next sent) ∧
    (i + 1 = frame.length → shape = .sNone →
      step s = .next { sent with phase := .idle, res := noValueResult op true .ok }) ∧
    (i + 1 = frame.length → shape ≠ .sNone →
      step s = .next
        { sent with
          phase := .rx
          codec :=
            { sent.codec with
              rxSum := some (s.cfg.address + opc), rxAcc := some 0, rxIdx := some 0, rxTerm := some false } })

/-- The encoder and speed reads, whole (`41_operations.md` R172 to R175, `40_codec.md` R137, R142, R143, R145): the
request, six response bytes, and the value and the status, or a checksum mismatch and no value. -/
def Obligations.ReadDwordStatusOperations : Prop :=
  ∀ row ∈ readRows, row.shape = .sDwordStatus →
  ∀ (s : State) (v3 v2 v1 v0 st c : Byte) (rest : List RxAnswer), s.phase = .idle →
    s.link.rxAnswers = [.byte v3, .byte v2, .byte v1, .byte v0, .byte st, .byte c] ++ rest →
    let opc := s.par.opc.get row.kind
    ∃ t, runOperation row.instr ((readFrame s.par s.cfg.address opc).length + 6) s = .next t ∧
      Completed s t (readFrame s.par s.cfg.address opc) rest s.desync
        (if (s.cfg.address + opc + v3 + v2 + v1 + v0 + st) &&& 0x7F = c then
          { noValueResult row.sel true .ok with resValue := some (v3 ++ v2 ++ v1 ++ v0), resStatus := some st }
        else noValueResult row.sel false .checksumMismatch)

/-- `ReadTemperature` and `ReadMainBatteryVoltage`, whole (`41_operations.md` R176, R178, `40_codec.md` R135). -/
def Obligations.ReadWordOperations : Prop :=
  ∀ row ∈ readRows, row.sel = 0x05 ∨ row.sel = 0x07 →
  ∀ (s : State) (v1 v0 c : Byte) (rest : List RxAnswer), s.phase = .idle →
    s.link.rxAnswers = [.byte v1, .byte v0, .byte c] ++ rest →
    let opc := s.par.opc.get row.kind
    ∃ t, runOperation row.instr ((readFrame s.par s.cfg.address opc).length + 3) s = .next t ∧
      Completed s t (readFrame s.par s.cfg.address opc) rest s.desync
        (if (s.cfg.address + opc + v1 + v0) &&& 0x7F = c then
          { noValueResult row.sel true .ok with resValue := some ((v1 ++ v0 : BitVec 16).setWidth 32) }
        else noValueResult row.sel false .checksumMismatch)

/-- `ReadEncoderModes`, whole (`41_operations.md` R180, `30_encoding.md` R105): the two halves of the word, M1's the high
one under `MODES_M1_HIGH`. -/
def Obligations.ReadEncoderModesOperation : Prop :=
  ∀ (s : State) (v1 v0 c : Byte) (rest : List RxAnswer), s.phase = .idle →
    s.link.rxAnswers = [.byte v1, .byte v0, .byte c] ++ rest →
    let opc := s.par.opc.modes
    ∃ t, runOperation .readEncoderModes ((readFrame s.par s.cfg.address opc).length + 3) s = .next t ∧
      Completed s t (readFrame s.par s.cfg.address opc) rest s.desync
        (if (s.cfg.address + opc + v1 + v0) &&& 0x7F = c then
          { noValueResult 0x09 true .ok with
            resValue := some ((v1 ++ v0 : BitVec 16).setWidth 32)
            resM1 := some ((if s.par.modesM1High then v1 else v0).setWidth 16)
            resM2 := some ((if s.par.modesM1High then v0 else v1).setWidth 16) }
        else noValueResult 0x09 false .checksumMismatch)

/-- `ReadErrorState`, whole: both bytes are read (`41_operations.md` R177, `40_codec.md` R138). -/
def Obligations.ReadErrorStateOperation : Prop :=
  ∀ (s : State) (v c : Byte) (rest : List RxAnswer), s.phase = .idle →
    s.link.rxAnswers = [.byte v, .byte c] ++ rest →
    let opc := s.par.opc.error
    ∃ t, runOperation .readErrorState ((readFrame s.par s.cfg.address opc).length + 2) s = .next t ∧
      Completed s t (readFrame s.par s.cfg.address opc) rest s.desync
        (if (s.cfg.address + opc + v) &&& 0x7F = c then
          { noValueResult 0x06 true .ok with resValue := some (v.setWidth 32) }
        else noValueResult 0x06 false .checksumMismatch)

/-- `ReadCurrents`, whole: the value and its halves, M1 the high one (`41_operations.md` R179, `40_codec.md` R136). -/
def Obligations.ReadCurrentsOperation : Prop :=
  ∀ (s : State) (v3 v2 v1 v0 c : Byte) (rest : List RxAnswer), s.phase = .idle →
    s.link.rxAnswers = [.byte v3, .byte v2, .byte v1, .byte v0, .byte c] ++ rest →
    let opc := s.par.opc.currents
    ∃ t, runOperation .readCurrents ((readFrame s.par s.cfg.address opc).length + 5) s = .next t ∧
      Completed s t (readFrame s.par s.cfg.address opc) rest s.desync
        (if (s.cfg.address + opc + v3 + v2 + v1 + v0) &&& 0x7F = c then
          { noValueResult 0x08 true .ok with
            resValue := some (v3 ++ v2 ++ v1 ++ v0), resM1 := some (v3 ++ v2), resM2 := some (v1 ++ v0) }
        else noValueResult 0x08 false .checksumMismatch)

/-- `ReadVersion`, whole, with a string of at most 31 bytes (`41_operations.md` R171, `40_codec.md` R139): the string with
its terminator, and its length. -/
def Obligations.ReadVersionOperation : Prop :=
  ∀ (s : State) (str : List Byte) (c : Byte) (rest : List RxAnswer), s.phase = .idle →
    str.length ≤ 31 → (∀ b ∈ str, b ≠ 0) → s.link.rxAnswers = (str ++ [0, c]).map .byte ++ rest →
    let opc := s.par.opc.version
    ∃ t, runOperation .readVersion ((readFrame s.par s.cfg.address opc).length + str.length + 2) s = .next t ∧
      Completed s t (readFrame s.par s.cfg.address opc) rest s.desync
        (if respValid s.cfg.address opc str c then
          { noValueResult 0x00 true .ok with
            resStr := some (str ++ [0]), resStrLen := some (BitVec.ofNat 6 str.length) }
        else noValueResult 0x00 false .checksumMismatch)

/-- A version string of 32 bytes without a zero byte is `MalformedResponse`: no further byte is read, there is no value,
and `desync` is set (`40_codec.md` R139, `60_exceptions.md` R273). -/
def Obligations.UnterminatedVersionIsMalformed : Prop :=
  ∀ (s : State) (str : List Byte) (rest : List RxAnswer), s.phase = .idle →
    str.length = 32 → (∀ b ∈ str, b ≠ 0) → s.link.rxAnswers = str.map .byte ++ rest →
    let opc := s.par.opc.version
    ∃ t, runOperation .readVersion ((readFrame s.par s.cfg.address opc).length + 32) s = .next t ∧
      Completed s t (readFrame s.par s.cfg.address opc) rest true (noValueResult 0x00 false .malformedResponse)

/-- A `TIMEOUT` answer to any receive step ends the operation (`40_codec.md` R141, `60_exceptions.md` R271, R278). That the
answer leaves the link, as the first of its list or at the counter, is the model's choice (log entry 3). -/
def Obligations.TimeoutEndsTheOperation : Prop :=
  ∀ (s : State) (op : Sel), s.phase = .rx → s.codec.curOp = some op → s.link.rxByte.1 = .timeout →
    step s = .next
      { s with
        link := s.link.rxByte.2
        phase := .idle
        desync := true
        res := noValueResult op false .transportTimeout }

/-- The six write operations, whole, with `ACK_LEN = 0` (`41_operations.md` R181 to R186, `30_encoding.md` R100): the
frame is sent, nothing is read, and the operation is valid. That `res_op` of the two `VelocityPID` operations is their
own selector is the reading of log entry 9. -/
def Obligations.WriteOperationsComplete : Prop :=
  ∀ (s : State) (i : Instr) (r : Request), s.phase = .idle → s.par.ackLen = 0 →
    i.request s.par = some r → r.kind.isRead = false →
    ∃ t, runOperation i (r.frame s.par s.cfg.address).length s = .next t ∧
      Completed s t (r.frame s.par s.cfg.address) s.link.rxAnswers s.desync (noValueResult i.sel true .ok)

/-- The six write operations, whole, with `ACK_LEN = 1` (`30_encoding.md` R100, `40_codec.md` R140): one byte is read, and
it is valid exactly where it is the request's checksum byte. `res_op` is as in `WriteOperationsComplete` (log entry 9). -/
def Obligations.WriteOperationsAreAcknowledged : Prop :=
  ∀ (s : State) (i : Instr) (r : Request) (a : Byte) (rest : List RxAnswer), s.phase = .idle → s.par.ackLen = 1 →
    i.request s.par = some r → r.kind.isRead = false → s.link.rxAnswers = .byte a :: rest →
    ∃ t, runOperation i ((r.frame s.par s.cfg.address).length + 1) s = .next t ∧
      Completed s t (r.frame s.par s.cfg.address) rest s.desync
        (if a = reqChk s.cfg.address (s.par.opc.get r.kind) r.payload then noValueResult i.sel true .ok
        else noValueResult i.sel false .checksumMismatch)

/-- From a state that keeps the codec's invariant, an operation in progress is back in `IDLE` within 19 transmit steps and
33 receive steps, whatever the environment answers (`70_reset_and_hazards.md` R316). -/
def Obligations.OperationsEndWithin52Steps : Prop :=
  ∀ s : State, CodecInv s → s.phase = .tx ∨ s.phase = .rx →
    ∃ k t, 0 < k ∧ k ≤ 52 ∧ stepN k s = .next t ∧ t.phase = .idle

/-! ### The integrator and the mixer -/

/-- An `Update` with either validity operand 0 writes `odo_result` and nothing else, whatever its other operands hold
(`42_odometry.md` R221). -/
def Obligations.InvalidReadsSkipTheUpdate : Prop :=
  ∀ (s : State) (now : Option NumVal) (l r : Option Word) (lv rv : Bool), s.phase = .idle → (lv && rv) = false →
    exec (.update now l r lv rv) s = .next { s with odo := { s.odo with odoResult := .skipped } }

/-- An `Update` that is not skipped and lacks its time, or lacks a tick operand at a finite time, stops: the read of an
operand that holds no value is a fault (`41_operations.md` R188). That a missing time is such an operand, and that the time
is read before the ticks, is the model's reading (log entry 21). -/
def Obligations.UpdateWithoutOperandsFaults : Prop :=
  ∀ (s : State), s.phase = .idle →
    (∀ l r : Option Word, exec (.update none l r true true) s = .fault .operandNoValue) ∧
    (∀ (now : NumVal) (l r : Option Word), now.isFinite = true → l = none ∨ r = none →
      exec (.update (some now) l r true true) s = .fault .operandNoValue)

/-- `Update` computes the pose and the velocities in real arithmetic (`42_odometry.md` R220 steps 2 to 8, R223 to R226), on
any real numbers. The translation is by the heading before the update. On rationals the heading and the velocities are
written as rationals (the model's canonical form, log entry 1). -/
def Obligations.UpdateIntegratesThePose : Prop :=
  ∀ (s : State) (now : NumVal) (l r : Word) (x0 y0 theta t last tpm base : ℝ), s.phase = .idle →
    s.cfg.ticksPerMeter.Denotes tpm → tpm ≠ 0 → s.cfg.wheelBase.Denotes base → base ≠ 0 →
    s.odo.x.Denotes x0 → s.odo.y.Denotes y0 → s.odo.theta.Denotes theta → s.odo.lastTime.Denotes last →
    now.Denotes t →
    let distLeft : ℝ := tickDelta s.par.tickDeltaMode l s.odo.lastLeft / tpm
    let distRight : ℝ := tickDelta s.par.tickDeltaMode r s.odo.lastRight / tpm
    let dist : ℝ := (distLeft + distRight) / 2
    let dtheta : ℝ := (distRight - distLeft) / base
    let dx : ℝ := Real.cos dtheta * dist
    let dy : ℝ := -(Real.sin dtheta * dist)
    ∃ o : OdoRegs,
      exec (.update (some now) (some l) (some r) true true) s = .next { s with odo := o } ∧
      o.x.Denotes (x0 + (dx * Real.cos theta - dy * Real.sin theta)) ∧
      o.y.Denotes (y0 + (dx * Real.sin theta + dy * Real.cos theta)) ∧
      (dist = 0 → o.x = s.odo.x ∧ o.y = s.odo.y) ∧
      o.theta.Denotes (theta + dtheta) ∧ (dtheta = 0 → o.theta = s.odo.theta) ∧
      o.vLin.Denotes (if t ≤ last then 0 else dist / (t - last)) ∧
      o.vAng.Denotes (if t ≤ last then 0 else dtheta / (t - last)) ∧
      o.lastLeft = l ∧ o.lastRight = r ∧ o.lastTime = now ∧ o.odoResult = .updated ∧
      (∀ n la th tp ba : ℚ, now = .ofRat n → s.odo.lastTime = .ofRat la → s.odo.theta = .ofRat th →
        s.cfg.ticksPerMeter = .ofRat tp → s.cfg.wheelBase = .ofRat ba →
        ∃ th' v w : ℚ, o.theta = .ofRat th' ∧ o.vLin = .ofRat v ∧ o.vAng = .ofRat w)

/-- Zero tick differences leave the pose and give zero velocities; opposite ones leave `x` and `y`, and turn the heading
(`42_odometry.md` R228 (a), (c)). The pose may be any numbers. -/
def Obligations.StandingAndTurningKeepThePlace : Prop :=
  ∀ (s : State) (now : NumVal) (l r : Word) (t last tpm base : ℝ), s.phase = .idle →
    s.cfg.ticksPerMeter.Denotes tpm → tpm ≠ 0 → s.cfg.wheelBase.Denotes base → base ≠ 0 →
    s.odo.lastTime.Denotes last → now.Denotes t →
    tickDelta s.par.tickDeltaMode l s.odo.lastLeft = -tickDelta s.par.tickDeltaMode r s.odo.lastRight →
    ∃ o : OdoRegs,
      exec (.update (some now) (some l) (some r) true true) s = .next { s with odo := o } ∧
      o.x = s.odo.x ∧ o.y = s.odo.y ∧ o.vLin.Denotes 0 ∧
      (tickDelta s.par.tickDeltaMode r s.odo.lastRight = 0 → o.theta = s.odo.theta ∧ o.vAng.Denotes 0) ∧
      (∀ theta : ℝ, s.odo.theta.Denotes theta →
        o.theta.Denotes (theta + 2 * (tickDelta s.par.tickDeltaMode r s.odo.lastRight / tpm) / base))

/-- `TickDelta` (`42_odometry.md` R222): under `WRAP32` the difference modulo 2^32 in the signed range, under `EXACT` the
difference; the two agree where the exact difference lies in the signed range. -/
def Obligations.TickDifferencesWrap : Prop :=
  ∀ new last : Word,
    (∃ k : Int, tickDelta .wrap32 new last = new.toInt - last.toInt + k * 4294967296) ∧
    -2147483648 ≤ tickDelta .wrap32 new last ∧ tickDelta .wrap32 new last ≤ 2147483647 ∧
    tickDelta .exact new last = new.toInt - last.toInt ∧
    (-2147483648 ≤ new.toInt - last.toInt → new.toInt - last.toInt ≤ 2147483647 →
      tickDelta .wrap32 new last = tickDelta .exact new last)

/-- `Mix` (`43_mixer.md` R250, R251), on any real numbers: the two rates in real arithmetic, and which is the greater. -/
def Obligations.MixComputesTheWheelRates : Prop :=
  ∀ (s : State) (a b c d : RealNum), s.phase = .idle →
    ∃ l r : NumVal,
      exec (.mix (.real a) (.real b) (.real c) (.real d)) s =
        .next { s with mix := { mixLeft := some l, mixRight := some r, mixReady := true } } ∧
      l.Denotes ((a.val - b.val * c.val / 2) * d.val) ∧
      r.Denotes ((a.val + b.val * c.val / 2) * d.val) ∧
      (∀ x y : ℝ, l.Denotes x → r.Denotes y →
        y - x = b.val * c.val * d.val ∧ (0 < b.val → 0 < c.val → 0 < d.val → x < y))

/-- Finite operands always run, whatever numbers they are: `Update` commits its raw operands (`42_odometry.md` R226), and
`Mix` latches two rates (`43_mixer.md` R250). -/
def Obligations.FiniteOperandsRun : Prop :=
  (∀ (s : State) (now : NumVal) (l r : Word), s.phase = .idle → now.isFinite = true →
    ∃ o : OdoRegs, exec (.update (some now) (some l) (some r) true true) s = .next { s with odo := o } ∧
      o.lastLeft = l ∧ o.lastRight = r ∧ o.lastTime = now ∧ o.odoResult = .updated) ∧
  (∀ (s : State) (a b c d : NumVal), s.phase = .idle →
    a.isFinite = true → b.isFinite = true → c.isFinite = true → d.isFinite = true →
    ∃ l r : NumVal, exec (.mix a b c d) s =
      .next { s with mix := { mixLeft := some l, mixRight := some r, mixReady := true } })

/-! ### What does not change -/

/-- The frame of the sixteen wire operations: the accept step writes the phase and the codec's request registers, or
marks a refusal, and nothing else; the receive registers are left as they are (`40_codec.md` R131, `10_state.md` R26). -/
def Obligations.WireOperationsWriteOnlyTheRequest : Prop :=
  ∀ (i : Instr) (s t : State), (∀ now l r lv rv, i ≠ .update now l r lv rv) → (∀ a b c d, i ≠ .mix a b c d) →
    exec i s = .next t →
    (t.par = s.par ∧ t.cfg = s.cfg ∧ t.res = s.res ∧ t.desync = s.desync ∧ t.odo = s.odo ∧ t.mix = s.mix ∧
      t.link = s.link ∧ t.host = s.host) ∧
    (t.codec.rxIdx = s.codec.rxIdx ∧ t.codec.rxSum = s.codec.rxSum ∧ t.codec.rxAcc = s.codec.rxAcc ∧
      t.codec.rxStatus = s.codec.rxStatus ∧ t.codec.rxStr = s.codec.rxStr ∧ t.codec.rxTerm = s.codec.rxTerm) ∧
    ((t.phase = s.phase ∧ t.codec = s.codec) ∨ (s.phase = .idle ∧ t.phase = .tx ∧ t.refused = s.refused))

/-- The frame of the two local operations: `Update` writes the integrator or the mark, `Mix` the latches or the mark
(`42_odometry.md` R220, `43_mixer.md` R250). -/
def Obligations.LocalOperationsTouchNoChannel : Prop :=
  (∀ (s t : State) (now : Option NumVal) (l r : Option Word) (lv rv : Bool),
    exec (.update now l r lv rv) s = .next t →
      t = { s with odo := t.odo, refused := t.refused } ∧ (t.odo = s.odo ∨ t.refused = s.refused)) ∧
  (∀ (s t : State) (a b c d : NumVal), exec (.mix a b c d) s = .next t →
    t = { s with mix := t.mix, refused := t.refused } ∧ (t.mix = s.mix ∨ t.refused = s.refused))

/-- No step writes the configuration registers (`10_state.md` R21), nor the parameters (`00_scope.md` R6, `10_state.md`
R43; that the state carries them is the model's choice, log entry 5). -/
def Obligations.ConfigurationIsReadOnly : Prop :=
  ∀ s t : State, step s = .next t → t.cfg = s.cfg ∧ t.par = s.par

/-- Over every step, the integrator's registers are written only by `Update`, and the mixer's latches only by `Mix`
(`10_state.md` R35 to R39). -/
def Obligations.MotionRegistersHaveOneWriter : Prop :=
  ∀ s t : State, step s = .next t →
    (t.odo ≠ s.odo → s.phase = .idle ∧ ∃ c now l r lv rv,
      s.host.cmds.head? = some c ∧ decode c = .ok (.update now l r lv rv)) ∧
    (t.mix ≠ s.mix → s.phase = .idle ∧ ∃ c a b e d,
      s.host.cmds.head? = some c ∧ decode c = .ok (.mix a b e d))

/-- Over every step, the result registers are written only where a wire operation completes, all together, and the
operation named is the one in progress (`10_state.md` R30, `40_codec.md` R142). -/
def Obligations.ResultsAreWrittenAtCompletion : Prop :=
  ∀ s t : State, step s = .next t → t.res ≠ s.res →
    (s.phase = .tx ∨ s.phase = .rx) ∧ t.phase = .idle ∧ t.res.resReady = true ∧ t.res.resOp = s.codec.curOp ∧
    t.res.resOp ≠ none ∧ t.res.resErr ≠ none ∧ t.res.resErr ≠ some .transportUnavailable ∧
    (t.res.resValid = some true ↔ t.res.resErr = some .ok) ∧ t.res.resValid ≠ none

/-- Over every step, `desync` and `refused` once set stay set; `desync` is set only by a timeout or a malformed string, and
`refused` only by an accept step, which then changes nothing but the ports (`10_state.md` R33, R34). That the mark keeps
its first reason is the model's choice (log entry 12), and so are the host's offers and the counter of free choices (log
entries 3 and 4). -/
def Obligations.MarksAreSticky : Prop :=
  ∀ s t : State, step s = .next t →
    (s.desync = true → t.desync = true) ∧
    (∀ r, s.refused = some r → t.refused = some r) ∧
    (t.desync ≠ s.desync → s.phase = .rx ∧ t.phase = .idle ∧
      (t.res.resErr = some .transportTimeout ∨ t.res.resErr = some .malformedResponse)) ∧
    (t.refused ≠ s.refused → s.phase = .idle ∧
      t = { s with refused := t.refused, host := t.host, link := { s.link with draws := t.link.draws } })

/-- Over every step, the transmit stream grows by at most one byte, at its end and only in `TX`; and in `RX` the first
answer held out is taken, and no other, while outside `RX` none is (`20_memory.md` R62, R63, R70, R71; the list of answers,
a `TIMEOUT` among them, is the model's choice, log entry 3). -/
def Obligations.StreamsAreUsedInOrder : Prop :=
  ∀ s t : State, step s = .next t →
    (t.link.txStream = s.link.txStream ∨ (s.phase = .tx ∧ ∃ b, t.link.txStream = s.link.txStream ++ [b])) ∧
    (s.phase = .tx → t.link.txStream ≠ s.link.txStream) ∧
    t.link.rxAnswers = (if s.phase = .rx then s.link.rxAnswers.tail else s.link.rxAnswers)

/-- Nothing reads the mixer's latches or `desync` (`10_state.md` R33, R39): from the same state with other latches and
another `desync` a step does the same, and there the latches are left as they were or hold just what the first step leaves
in them, and so for `desync`. -/
def Obligations.LatchesAndDesyncAreNeverRead : Prop :=
  ∀ (s t : State) (m : MixRegs) (d : Bool), step s = .next t →
    ∃ m' d', (m' = m ∨ m' = t.mix) ∧ (d' = d ∨ d' = t.desync) ∧
      step { s with mix := m, desync := d } = .next { t with mix := m', desync := d' }

/-! ### Invariants -/

/-- Every step keeps the codec's invariant (`10_state.md` R22 to R29, `30_encoding.md` R111 (a), R112). -/
def Obligations.StepsKeepTheCodecInvariant : Prop :=
  ∀ s t : State, CodecInv s → step s = .next t → CodecInv t

/-- The invariants hold after reset, with any parameters and configuration whose numbers are well formed (log entry 1);
among them those of `State.reset` (log entries 5 and 6). -/
def Obligations.InvariantsHoldAfterReset : Prop :=
  (∀ (p : Params) (c : Cfg), CodecInv (State.resetWith p c) ∧ ResInv (State.resetWith p c)) ∧
  (∀ (p : Params) (c : Cfg), p.initTime.wf = true → c.timeoutS.wf = true → c.updateRateHz.wf = true →
    c.wheelBase.wf = true → c.ticksPerMeter.wf = true → c.kp.wf = true → c.ki.wf = true → c.kd.wf = true →
    NumsWf (State.resetWith p c)) ∧
  CodecInv State.reset ∧ ResInv State.reset ∧ NumsWf State.reset

/-- Under the codec's invariant no step reads a register that holds no value (`10_state.md` R42). -/
def Obligations.NoStepReadsAMissingRegister : Prop :=
  ∀ (s : State) (r : Reg), CodecInv s → step s ≠ .fault (.noValue r)

/-- Every step keeps it that without a valid read no value register of the result port holds a value, and every error
result has none (`10_state.md` R30, `41_operations.md` R188). -/
def Obligations.InvalidResultsHoldNoValue : Prop :=
  ∀ s t : State, ResInv s → step s = .next t → ResInv t

/-- The host's read of a value register after an invalid result is a fault (`10_state.md` R30). -/
def Obligations.InvalidResultsFaultOnThePort : Prop :=
  ∀ s : State, ResInv s → s.res.resValid = some false →
    s.readValid = .ok false ∧ s.readValue = .error (.noValue .resValue) ∧
    s.readStatus = .error (.noValue .resStatus) ∧ s.readM1 = .error (.noValue .resM1) ∧
    s.readM2 = .error (.noValue .resM2) ∧ s.readStr = .error (.noValue .resStr) ∧
    s.readStrLen = .error (.noValue .resStrLen) ∧
    s.encoderReading = .ok ⟨none, none, false⟩

/-- Every step keeps every real number of the state well formed: canonical, and with no inverse of 0 (the model's own
invariant, log entry 1). -/
def Obligations.NumbersStayCanonical : Prop :=
  ∀ s t : State, NumsWf s → step s = .next t → NumsWf t

/-- A value reported valid has the checksum: under the codec's invariant, where a receive step of a fixed shape completes
with `res_valid = 1`, the byte just read is the sum of the seed, the value's bytes and the status, masked to 7 bits
(`40_codec.md` R134, R143). -/
def Obligations.ValidResultsMatchTheirChecksum : Prop :=
  ∀ s t : State, CodecInv s → s.phase = .rx → step s = .next t → t.phase = .idle → t.res.resValid = some true →
    (s.codec.rxShape = some .sByte ∨ s.codec.rxShape = some .sWord ∨ s.codec.rxShape = some .sDword ∨
      s.codec.rxShape = some .sDwordStatus) →
    ∃ (opc c : Byte) (v : Word),
      s.codec.curOpc = some opc ∧ s.link.rxByte.1 = .byte c ∧ t.res.resValue = some v ∧
      c = respSum s.cfg.address opc (bytes32 v ++ t.res.resStatus.toList) &&& 0x7F

/-! ### The lifecycle -/

/-- `OPEN` in `CLOSED` (`70_reset_and_hazards.md` R301, R303): `IDLE` or `FATAL` by the environment's answer, and no
register of the block but `phase` changes (that the request is taken and where the answer comes from are the model's
choice, log entries 3 and 4). -/
def Obligations.OpenLeadsToIdleOrFatal : Prop :=
  ∀ (s : State) (ls : List LifeReq), s.phase = .closed → s.host.lifecycle = .openReq :: ls →
    step s = .next
      { s with
        host := { s.host with lifecycle := ls }
        link := s.link.openAnswer.2
        phase := if s.link.openAnswer.1 = .ok then .idle else .fatal }

/-- `FATAL` is terminal (`60_exceptions.md` R274, `70_reset_and_hazards.md` R303): there is no step but the `CLOSE` that
leaves it `FATAL`; and a failed `OPEN` is the only way into it (no step is the fault of log entry 16). -/
def Obligations.FatalIsTerminal : Prop :=
  (∀ s : State, s.phase = .fatal → s.host.lifecycle.head? ≠ some .closeReq →
    step s = .fault .transportUnavailable) ∧
  (∀ s t : State, s.phase = .fatal → step s = .next t → t = { s with host := { s.host with lifecycle := s.host.lifecycle.tail } }) ∧
  (∀ s t : State, step s = .next t → t.phase = .fatal → s.phase ≠ .fatal →
    s.phase = .closed ∧ s.host.lifecycle.head? = some .openReq ∧ s.link.openAnswer.1 = .fail)

/-- `CLOSE` (`70_reset_and_hazards.md` R305, R306): taken in `IDLE` it closes the block and keeps every register; in `TX`
and `RX` it is not accepted and stays offered; and with nothing to take the block waits (a step that changes nothing, log
entry 4). Where a command is offered too, the step is the `CLOSE` or the accept step of the command, by a free choice
(log entry 4). -/
def Obligations.CloseIsTakenInIdle : Prop :=
  (∀ (s : State) (ls : List LifeReq), s.phase = .idle → s.host.lifecycle = .closeReq :: ls → s.host.cmds = [] →
    step s = .next { s with phase := .closed, host := { s.host with lifecycle := ls } }) ∧
  (∀ (s : State) (ls : List LifeReq) (c : Command) (cs : List Command), s.phase = .idle →
    s.host.lifecycle = .closeReq :: ls → s.host.cmds = c :: cs →
    let drawn : Link := { s.link with draws := s.link.draws + 1 }
    step s = .next { s with phase := .closed, link := drawn, host := { s.host with lifecycle := ls } } ∨
    step s = acceptCommand c { s with link := drawn, host := { s.host with cmds := cs } }) ∧
  (∀ s t : State, s.phase = .tx ∨ s.phase = .rx → step s = .next t → t.host = s.host) ∧
  (∀ s : State, s.phase = .idle → s.host.cmds = [] → s.host.lifecycle = [] → step s = .next s) ∧
  (∀ s : State, s.phase = .closed → s.host.lifecycle.head? ≠ some .openReq → step s = .next s)

/-- The reset values that `10_state.md` R42 states, for any parameters and configuration. -/
def Obligations.ResetValuesAreTheSpecs : Prop :=
  ∀ (p : Params) (c : Cfg),
    let s := State.resetWith p c
    s.cfg = c ∧ s.phase = .closed ∧
    s.codec.curOp = none ∧ s.codec.curOpc = none ∧ s.codec.txFrame = none ∧ s.codec.txLen = none ∧
    s.codec.txIdx = none ∧ s.codec.txChk = none ∧ s.codec.rxShape = none ∧ s.codec.rxIdx = none ∧
    s.codec.rxSum = none ∧ s.codec.rxAcc = none ∧ s.codec.rxStatus = none ∧
    (∀ i (h : i < 32), s.codec.rxStr[i] = none) ∧ s.codec.rxTerm = none ∧
    s.res.resReady = false ∧ s.res.resOp = none ∧ s.res.resErr = none ∧ s.res.resValid = none ∧
    s.res.resValue = none ∧ s.res.resStatus = none ∧ s.res.resM1 = none ∧ s.res.resM2 = none ∧
    s.res.resStr = none ∧ s.res.resStrLen = none ∧
    s.desync = false ∧ s.refused = none ∧
    s.odo.x = .ofRat 0 ∧ s.odo.y = .ofRat 0 ∧ s.odo.theta = .ofRat 0 ∧ s.odo.vLin = .ofRat 0 ∧
    s.odo.vAng = .ofRat 0 ∧ s.odo.lastLeft = p.initLeftTicks ∧ s.odo.lastRight = p.initRightTicks ∧
    s.odo.lastTime = p.initTime ∧ s.odo.odoResult = .none ∧
    s.mix.mixReady = false ∧ s.mix.mixLeft = none ∧ s.mix.mixRight = none

/-- No block is built from an illegal configuration or an opcode table with two equal values; from a legal one the block is
the reset state (`10_state.md` R46, R21, `30_encoding.md` R108). That R46 takes in every legal value of R21 is the
model's reading (log entry 8). -/
def Obligations.ConstructionRefusesIllegalConfigurations : Prop :=
  (∀ (p : Params) (c : Cfg) (k k' : OpKind), k ≠ k' → p.opc.get k = p.opc.get k' →
    State.construct p c = .error .invalidConfig) ∧
  (∀ (p : Params) (c : Cfg) (x : ℝ), x ≤ 0 →
    (c.wheelBase.Denotes x ∨ c.ticksPerMeter.Denotes x ∨ c.timeoutS.Denotes x) →
    State.construct p c = .error .invalidConfig) ∧
  (∀ (p : Params) (c : Cfg),
    (c.timeoutS.isFinite = false ∨ c.updateRateHz.isFinite = false ∨ c.wheelBase.isFinite = false ∨
      c.ticksPerMeter.isFinite = false ∨ c.kp.isFinite = false ∨ c.ki.isFinite = false ∨ c.kd.isFinite = false) →
    State.construct p c = .error .invalidConfig) ∧
  (∀ (p : Params) (c : Cfg) (timeout rate base tpm kp ki kd : ℝ),
    c.timeoutS.Denotes timeout → c.updateRateHz.Denotes rate → c.wheelBase.Denotes base → c.ticksPerMeter.Denotes tpm →
    c.kp.Denotes kp → c.ki.Denotes ki → c.kd.Denotes kd → (OpKind.all.map p.opc.get).Nodup →
    (State.construct p c = .ok (State.resetWith p c) ↔
      0 < timeout ∧ 0 < rate ∧ 0 < base ∧ 0 < tpm ∧ 0 ≤ kp ∧ 0 ≤ ki ∧ 0 ≤ kd ∧ 0 < c.baud)) ∧
  (∀ (p : Params) (c : Cfg) (s : State), State.construct p c = .ok s → s = State.resetWith p c) ∧
  State.construct .default .default = .ok State.reset

/-- What the host reads on the result port: the numeric code of each error kind (`60_exceptions.md` R270), the signed view
of a reading's ticks (`30_encoding.md` R102), and the `Update` it makes of the two readings (`42_odometry.md` R227), with
a word and a validity for each wheel. -/
def Obligations.ResultPortReadings : Prop :=
  (∀ s : State,
    (s.res.resErr = some .ok → s.readErr = .ok 0) ∧
    (s.res.resErr = some .transportTimeout → s.readErr = .ok 1) ∧
    (s.res.resErr = some .checksumMismatch → s.readErr = .ok 2) ∧
    (s.res.resErr = some .malformedResponse → s.readErr = .ok 3) ∧
    (s.res.resErr = some .transportUnavailable → s.readErr = .ok 4) ∧
    (s.res.resErr = none → s.readErr = .error (.noValue .resErr))) ∧
  (∀ (w : Word) (st : Option Byte) (v : Bool), EncoderReading.ticksS32 ⟨some w, st, v⟩ =
    .ok (if w.toNat < 2147483648 then (w.toNat : Int) else (w.toNat : Int) - 4294967296)) ∧
  (∀ (st : Option Byte) (v : Bool), EncoderReading.ticksS32 ⟨none, st, v⟩ = .error (.noValue .resValue)) ∧
  (∀ (p : Params) (now : NumVal) (m1 m2 : EncoderReading),
    (p.leftIsM1 = true → hostUpdate p now m1 m2 = .update (some now) m1.ticks m2.ticks m1.valid m2.valid) ∧
    (p.leftIsM1 = false → hostUpdate p now m1 m2 = .update (some now) m2.ticks m1.ticks m2.valid m1.valid))

/-- Shutdown (`70_reset_and_hazards.md` R305): from `IDLE` the stop command's frame is sent and the block is back in `IDLE`
within 13 steps, whatever the environment answers; the host requests `CLOSE` only then, and the block closes; and that is
the end of the run, a good one if nothing was refused before (R317; that no refusal is enough for a good end is the
model's choice, log entry 23). A run never ends within an operation, and once ended it stays as it is, or is stuck in
`FATAL`. -/
def Obligations.ShutdownStopsThenCloses : Prop :=
  (∀ s : State, s.phase = .idle →
    let frame := [s.cfg.address, s.par.opc.mixed, 0, 0, 0, 0, 0, 0, 0, 0, (s.cfg.address + s.par.opc.mixed) &&& 0x7F]
    ∃ k t u, k ≤ 13 ∧ stepN k s.offerStop = .next t ∧ t.phase = .idle ∧ t.host.cmds = [] ∧
      t.link.txStream = s.link.txStream ++ frame ∧
      step t.offerClose = .next u ∧ u = { t with phase := .closed } ∧ u.runEnded = true ∧ u.goodEnd = s.refused.isNone) ∧
  (∀ s : State, s.offerStop.offerClose = s.offerStop) ∧
  (∀ s : State, s.phase ≠ .idle → s.offerClose = s) ∧
  (∀ s : State, s.phase = .tx ∨ s.phase = .rx → s.runEnded = false) ∧
  (∀ s : State, s.runEnded = true →
    step s = if s.phase = .fatal then .fault .transportUnavailable else .next s) ∧
  (∀ s : State, s.goodEnd = true ↔ s.runEnded = true ∧ s.refused = none)
end

