-- ==== Sys2Proof/Laws/State.lean ====
section
/-!
SUPPORT. One lemma per group of registers and named update of the state, so that no proof unfolds a record update.
-/
namespace Sys2Proof.Machine

open Sys2Proof

@[simp] theorem State.refuse_par (r : RefuseReason) (s : State) : (s.refuse r).par = s.par := rfl
@[simp] theorem State.refuse_cfg (r : RefuseReason) (s : State) : (s.refuse r).cfg = s.cfg := rfl
@[simp] theorem State.refuse_phase (r : RefuseReason) (s : State) : (s.refuse r).phase = s.phase := rfl
@[simp] theorem State.refuse_codec (r : RefuseReason) (s : State) : (s.refuse r).codec = s.codec := rfl
@[simp] theorem State.refuse_res (r : RefuseReason) (s : State) : (s.refuse r).res = s.res := rfl
@[simp] theorem State.refuse_desync (r : RefuseReason) (s : State) : (s.refuse r).desync = s.desync := rfl
@[simp] theorem State.refuse_refused (r : RefuseReason) (s : State) : (s.refuse r).refused = some (s.refused.getD r) := rfl
@[simp] theorem State.refuse_odo (r : RefuseReason) (s : State) : (s.refuse r).odo = s.odo := rfl
@[simp] theorem State.refuse_mix (r : RefuseReason) (s : State) : (s.refuse r).mix = s.mix := rfl
@[simp] theorem State.refuse_link (r : RefuseReason) (s : State) : (s.refuse r).link = s.link := rfl
@[simp] theorem State.refuse_host (r : RefuseReason) (s : State) : (s.refuse r).host = s.host := rfl

@[simp] theorem State.txByte_par (b : Byte) (s : State) : (s.txByte b).par = s.par := rfl
@[simp] theorem State.txByte_cfg (b : Byte) (s : State) : (s.txByte b).cfg = s.cfg := rfl
@[simp] theorem State.txByte_phase (b : Byte) (s : State) : (s.txByte b).phase = s.phase := rfl
@[simp] theorem State.txByte_codec (b : Byte) (s : State) : (s.txByte b).codec = s.codec := rfl
@[simp] theorem State.txByte_res (b : Byte) (s : State) : (s.txByte b).res = s.res := rfl
@[simp] theorem State.txByte_desync (b : Byte) (s : State) : (s.txByte b).desync = s.desync := rfl
@[simp] theorem State.txByte_refused (b : Byte) (s : State) : (s.txByte b).refused = s.refused := rfl
@[simp] theorem State.txByte_odo (b : Byte) (s : State) : (s.txByte b).odo = s.odo := rfl
@[simp] theorem State.txByte_mix (b : Byte) (s : State) : (s.txByte b).mix = s.mix := rfl
@[simp] theorem State.txByte_link (b : Byte) (s : State) : (s.txByte b).link = { s.link with txStream := s.link.txStream ++ [b] } := rfl
@[simp] theorem State.txByte_host (b : Byte) (s : State) : (s.txByte b).host = s.host := rfl

@[simp] theorem State.finish_par (r : ResRegs) (s : State) : (s.finish r).par = s.par := rfl
@[simp] theorem State.finish_cfg (r : ResRegs) (s : State) : (s.finish r).cfg = s.cfg := rfl
@[simp] theorem State.finish_phase (r : ResRegs) (s : State) : (s.finish r).phase = .idle := rfl
@[simp] theorem State.finish_codec (r : ResRegs) (s : State) : (s.finish r).codec = s.codec := rfl
@[simp] theorem State.finish_res (r : ResRegs) (s : State) : (s.finish r).res = r := rfl
@[simp] theorem State.finish_desync (r : ResRegs) (s : State) : (s.finish r).desync = s.desync := rfl
@[simp] theorem State.finish_refused (r : ResRegs) (s : State) : (s.finish r).refused = s.refused := rfl
@[simp] theorem State.finish_odo (r : ResRegs) (s : State) : (s.finish r).odo = s.odo := rfl
@[simp] theorem State.finish_mix (r : ResRegs) (s : State) : (s.finish r).mix = s.mix := rfl
@[simp] theorem State.finish_link (r : ResRegs) (s : State) : (s.finish r).link = s.link := rfl
@[simp] theorem State.finish_host (r : ResRegs) (s : State) : (s.finish r).host = s.host := rfl

@[simp] theorem State.startRx_par (o : Byte) (s : State) : (s.startRx o).par = s.par := rfl
@[simp] theorem State.startRx_cfg (o : Byte) (s : State) : (s.startRx o).cfg = s.cfg := rfl
@[simp] theorem State.startRx_phase (o : Byte) (s : State) : (s.startRx o).phase = .rx := rfl
@[simp] theorem State.startRx_codec (o : Byte) (s : State) : (s.startRx o).codec = { s.codec with rxSum := some (respSeed s.cfg.address o), rxAcc := some 0, rxIdx := some 0, rxTerm := some false } := rfl
@[simp] theorem State.startRx_res (o : Byte) (s : State) : (s.startRx o).res = s.res := rfl
@[simp] theorem State.startRx_desync (o : Byte) (s : State) : (s.startRx o).desync = s.desync := rfl
@[simp] theorem State.startRx_refused (o : Byte) (s : State) : (s.startRx o).refused = s.refused := rfl
@[simp] theorem State.startRx_odo (o : Byte) (s : State) : (s.startRx o).odo = s.odo := rfl
@[simp] theorem State.startRx_mix (o : Byte) (s : State) : (s.startRx o).mix = s.mix := rfl
@[simp] theorem State.startRx_link (o : Byte) (s : State) : (s.startRx o).link = s.link := rfl
@[simp] theorem State.startRx_host (o : Byte) (s : State) : (s.startRx o).host = s.host := rfl

@[simp] theorem State.sent_par (i : Nat) (b : Byte) (s : State) : (s.sent i b).par = s.par := rfl
@[simp] theorem State.sent_cfg (i : Nat) (b : Byte) (s : State) : (s.sent i b).cfg = s.cfg := rfl
@[simp] theorem State.sent_phase (i : Nat) (b : Byte) (s : State) : (s.sent i b).phase = s.phase := rfl
@[simp] theorem State.sent_codec (i : Nat) (b : Byte) (s : State) : (s.sent i b).codec = { s.codec with txIdx := some (i + 1) } := rfl
@[simp] theorem State.sent_res (i : Nat) (b : Byte) (s : State) : (s.sent i b).res = s.res := rfl
@[simp] theorem State.sent_desync (i : Nat) (b : Byte) (s : State) : (s.sent i b).desync = s.desync := rfl
@[simp] theorem State.sent_refused (i : Nat) (b : Byte) (s : State) : (s.sent i b).refused = s.refused := rfl
@[simp] theorem State.sent_odo (i : Nat) (b : Byte) (s : State) : (s.sent i b).odo = s.odo := rfl
@[simp] theorem State.sent_mix (i : Nat) (b : Byte) (s : State) : (s.sent i b).mix = s.mix := rfl
@[simp] theorem State.sent_link (i : Nat) (b : Byte) (s : State) : (s.sent i b).link = { s.link with txStream := s.link.txStream ++ [b] } := rfl
@[simp] theorem State.sent_host (i : Nat) (b : Byte) (s : State) : (s.sent i b).host = s.host := rfl

@[simp] theorem State.takeValue_par (a : Word) (c b : Byte) (s : State) : (s.takeValue a c b).par = s.par := rfl
@[simp] theorem State.takeValue_cfg (a : Word) (c b : Byte) (s : State) : (s.takeValue a c b).cfg = s.cfg := rfl
@[simp] theorem State.takeValue_phase (a : Word) (c b : Byte) (s : State) : (s.takeValue a c b).phase = s.phase := rfl
@[simp] theorem State.takeValue_codec (a : Word) (c b : Byte) (s : State) : (s.takeValue a c b).codec = { s.codec with rxAcc := some (accShift a b), rxSum := some (c + b) } := rfl
@[simp] theorem State.takeValue_res (a : Word) (c b : Byte) (s : State) : (s.takeValue a c b).res = s.res := rfl
@[simp] theorem State.takeValue_desync (a : Word) (c b : Byte) (s : State) : (s.takeValue a c b).desync = s.desync := rfl
@[simp] theorem State.takeValue_refused (a : Word) (c b : Byte) (s : State) : (s.takeValue a c b).refused = s.refused := rfl
@[simp] theorem State.takeValue_odo (a : Word) (c b : Byte) (s : State) : (s.takeValue a c b).odo = s.odo := rfl
@[simp] theorem State.takeValue_mix (a : Word) (c b : Byte) (s : State) : (s.takeValue a c b).mix = s.mix := rfl
@[simp] theorem State.takeValue_link (a : Word) (c b : Byte) (s : State) : (s.takeValue a c b).link = s.link := rfl
@[simp] theorem State.takeValue_host (a : Word) (c b : Byte) (s : State) : (s.takeValue a c b).host = s.host := rfl

@[simp] theorem State.takeStatus_par (c b : Byte) (s : State) : (s.takeStatus c b).par = s.par := rfl
@[simp] theorem State.takeStatus_cfg (c b : Byte) (s : State) : (s.takeStatus c b).cfg = s.cfg := rfl
@[simp] theorem State.takeStatus_phase (c b : Byte) (s : State) : (s.takeStatus c b).phase = s.phase := rfl
@[simp] theorem State.takeStatus_codec (c b : Byte) (s : State) : (s.takeStatus c b).codec = { s.codec with rxStatus := some b, rxSum := some (c + b) } := rfl
@[simp] theorem State.takeStatus_res (c b : Byte) (s : State) : (s.takeStatus c b).res = s.res := rfl
@[simp] theorem State.takeStatus_desync (c b : Byte) (s : State) : (s.takeStatus c b).desync = s.desync := rfl
@[simp] theorem State.takeStatus_refused (c b : Byte) (s : State) : (s.takeStatus c b).refused = s.refused := rfl
@[simp] theorem State.takeStatus_odo (c b : Byte) (s : State) : (s.takeStatus c b).odo = s.odo := rfl
@[simp] theorem State.takeStatus_mix (c b : Byte) (s : State) : (s.takeStatus c b).mix = s.mix := rfl
@[simp] theorem State.takeStatus_link (c b : Byte) (s : State) : (s.takeStatus c b).link = s.link := rfl
@[simp] theorem State.takeStatus_host (c b : Byte) (s : State) : (s.takeStatus c b).host = s.host := rfl

@[simp] theorem State.takeChar_par (i : Nat) (c b : Byte) (e : Bool) (s : State) : (s.takeChar i c b e).par = s.par := rfl
@[simp] theorem State.takeChar_cfg (i : Nat) (c b : Byte) (e : Bool) (s : State) : (s.takeChar i c b e).cfg = s.cfg := rfl
@[simp] theorem State.takeChar_phase (i : Nat) (c b : Byte) (e : Bool) (s : State) : (s.takeChar i c b e).phase = s.phase := rfl
@[simp] theorem State.takeChar_codec (i : Nat) (c b : Byte) (e : Bool) (s : State) : (s.takeChar i c b e).codec = { s.codec with rxStr := s.codec.rxStr.setIfInBounds i (some b), rxSum := some (c + b), rxTerm := some (if b = 0 then true else e) } := rfl
@[simp] theorem State.takeChar_res (i : Nat) (c b : Byte) (e : Bool) (s : State) : (s.takeChar i c b e).res = s.res := rfl
@[simp] theorem State.takeChar_desync (i : Nat) (c b : Byte) (e : Bool) (s : State) : (s.takeChar i c b e).desync = s.desync := rfl
@[simp] theorem State.takeChar_refused (i : Nat) (c b : Byte) (e : Bool) (s : State) : (s.takeChar i c b e).refused = s.refused := rfl
@[simp] theorem State.takeChar_odo (i : Nat) (c b : Byte) (e : Bool) (s : State) : (s.takeChar i c b e).odo = s.odo := rfl
@[simp] theorem State.takeChar_mix (i : Nat) (c b : Byte) (e : Bool) (s : State) : (s.takeChar i c b e).mix = s.mix := rfl
@[simp] theorem State.takeChar_link (i : Nat) (c b : Byte) (e : Bool) (s : State) : (s.takeChar i c b e).link = s.link := rfl
@[simp] theorem State.takeChar_host (i : Nat) (c b : Byte) (e : Bool) (s : State) : (s.takeChar i c b e).host = s.host := rfl

@[simp] theorem sendCommand_par (op : Sel) (o : Byte) (p : List Byte) (sh : Shape) (s : State) : (sendCommand op o p sh s).par = s.par := rfl
@[simp] theorem sendCommand_cfg (op : Sel) (o : Byte) (p : List Byte) (sh : Shape) (s : State) : (sendCommand op o p sh s).cfg = s.cfg := rfl
@[simp] theorem sendCommand_phase (op : Sel) (o : Byte) (p : List Byte) (sh : Shape) (s : State) : (sendCommand op o p sh s).phase = .tx := rfl
@[simp] theorem sendCommand_res (op : Sel) (o : Byte) (p : List Byte) (sh : Shape) (s : State) : (sendCommand op o p sh s).res = s.res := rfl
@[simp] theorem sendCommand_desync (op : Sel) (o : Byte) (p : List Byte) (sh : Shape) (s : State) : (sendCommand op o p sh s).desync = s.desync := rfl
@[simp] theorem sendCommand_refused (op : Sel) (o : Byte) (p : List Byte) (sh : Shape) (s : State) : (sendCommand op o p sh s).refused = s.refused := rfl
@[simp] theorem sendCommand_odo (op : Sel) (o : Byte) (p : List Byte) (sh : Shape) (s : State) : (sendCommand op o p sh s).odo = s.odo := rfl
@[simp] theorem sendCommand_mix (op : Sel) (o : Byte) (p : List Byte) (sh : Shape) (s : State) : (sendCommand op o p sh s).mix = s.mix := rfl
@[simp] theorem sendCommand_link (op : Sel) (o : Byte) (p : List Byte) (sh : Shape) (s : State) : (sendCommand op o p sh s).link = s.link := rfl
@[simp] theorem sendCommand_host (op : Sel) (o : Byte) (p : List Byte) (sh : Shape) (s : State) : (sendCommand op o p sh s).host = s.host := rfl

@[simp] theorem State.skipUpdate_par (s : State) : s.skipUpdate.par = s.par := rfl
@[simp] theorem State.skipUpdate_cfg (s : State) : s.skipUpdate.cfg = s.cfg := rfl
@[simp] theorem State.skipUpdate_phase (s : State) : s.skipUpdate.phase = s.phase := rfl
@[simp] theorem State.skipUpdate_codec (s : State) : s.skipUpdate.codec = s.codec := rfl
@[simp] theorem State.skipUpdate_res (s : State) : s.skipUpdate.res = s.res := rfl
@[simp] theorem State.skipUpdate_desync (s : State) : s.skipUpdate.desync = s.desync := rfl
@[simp] theorem State.skipUpdate_refused (s : State) : s.skipUpdate.refused = s.refused := rfl
@[simp] theorem State.skipUpdate_odo (s : State) : s.skipUpdate.odo = { s.odo with odoResult := .skipped } := rfl
@[simp] theorem State.skipUpdate_mix (s : State) : s.skipUpdate.mix = s.mix := rfl
@[simp] theorem State.skipUpdate_link (s : State) : s.skipUpdate.link = s.link := rfl
@[simp] theorem State.skipUpdate_host (s : State) : s.skipUpdate.host = s.host := rfl

@[simp] theorem State.popCmd_par (s : State) : s.popCmd.par = s.par := rfl
@[simp] theorem State.popCmd_cfg (s : State) : s.popCmd.cfg = s.cfg := rfl
@[simp] theorem State.popCmd_phase (s : State) : s.popCmd.phase = s.phase := rfl
@[simp] theorem State.popCmd_codec (s : State) : s.popCmd.codec = s.codec := rfl
@[simp] theorem State.popCmd_res (s : State) : s.popCmd.res = s.res := rfl
@[simp] theorem State.popCmd_desync (s : State) : s.popCmd.desync = s.desync := rfl
@[simp] theorem State.popCmd_refused (s : State) : s.popCmd.refused = s.refused := rfl
@[simp] theorem State.popCmd_odo (s : State) : s.popCmd.odo = s.odo := rfl
@[simp] theorem State.popCmd_mix (s : State) : s.popCmd.mix = s.mix := rfl
@[simp] theorem State.popCmd_link (s : State) : s.popCmd.link = s.link := rfl
@[simp] theorem State.popCmd_host (s : State) : s.popCmd.host = { s.host with cmds := s.host.cmds.tail } := rfl

@[simp] theorem State.popLifecycle_par (s : State) : s.popLifecycle.par = s.par := rfl
@[simp] theorem State.popLifecycle_cfg (s : State) : s.popLifecycle.cfg = s.cfg := rfl
@[simp] theorem State.popLifecycle_phase (s : State) : s.popLifecycle.phase = s.phase := rfl
@[simp] theorem State.popLifecycle_codec (s : State) : s.popLifecycle.codec = s.codec := rfl
@[simp] theorem State.popLifecycle_res (s : State) : s.popLifecycle.res = s.res := rfl
@[simp] theorem State.popLifecycle_desync (s : State) : s.popLifecycle.desync = s.desync := rfl
@[simp] theorem State.popLifecycle_refused (s : State) : s.popLifecycle.refused = s.refused := rfl
@[simp] theorem State.popLifecycle_odo (s : State) : s.popLifecycle.odo = s.odo := rfl
@[simp] theorem State.popLifecycle_mix (s : State) : s.popLifecycle.mix = s.mix := rfl
@[simp] theorem State.popLifecycle_link (s : State) : s.popLifecycle.link = s.link := rfl
@[simp] theorem State.popLifecycle_host (s : State) : s.popLifecycle.host = { s.host with lifecycle := s.host.lifecycle.tail } := rfl

@[simp] theorem State.drawn_par (s : State) : s.drawn.par = s.par := rfl
@[simp] theorem State.drawn_cfg (s : State) : s.drawn.cfg = s.cfg := rfl
@[simp] theorem State.drawn_phase (s : State) : s.drawn.phase = s.phase := rfl
@[simp] theorem State.drawn_codec (s : State) : s.drawn.codec = s.codec := rfl
@[simp] theorem State.drawn_res (s : State) : s.drawn.res = s.res := rfl
@[simp] theorem State.drawn_desync (s : State) : s.drawn.desync = s.desync := rfl
@[simp] theorem State.drawn_refused (s : State) : s.drawn.refused = s.refused := rfl
@[simp] theorem State.drawn_odo (s : State) : s.drawn.odo = s.odo := rfl
@[simp] theorem State.drawn_mix (s : State) : s.drawn.mix = s.mix := rfl
@[simp] theorem State.drawn_link (s : State) : s.drawn.link = { s.link with draws := s.link.draws + 1 } := rfl
@[simp] theorem State.drawn_host (s : State) : s.drawn.host = s.host := rfl

@[simp] theorem openLink_par (s : State) : (openLink s).par = s.par := rfl
@[simp] theorem openLink_cfg (s : State) : (openLink s).cfg = s.cfg := rfl
@[simp] theorem openLink_codec (s : State) : (openLink s).codec = s.codec := rfl
@[simp] theorem openLink_res (s : State) : (openLink s).res = s.res := rfl
@[simp] theorem openLink_desync (s : State) : (openLink s).desync = s.desync := rfl
@[simp] theorem openLink_refused (s : State) : (openLink s).refused = s.refused := rfl
@[simp] theorem openLink_odo (s : State) : (openLink s).odo = s.odo := rfl
@[simp] theorem openLink_mix (s : State) : (openLink s).mix = s.mix := rfl
@[simp] theorem openLink_link (s : State) : (openLink s).link = s.link.openAnswer.2 := rfl
@[simp] theorem openLink_host (s : State) : (openLink s).host = s.host := rfl

@[simp] theorem closeLink_par (s : State) : (closeLink s).par = s.par := rfl
@[simp] theorem closeLink_cfg (s : State) : (closeLink s).cfg = s.cfg := rfl
@[simp] theorem closeLink_codec (s : State) : (closeLink s).codec = s.codec := rfl
@[simp] theorem closeLink_res (s : State) : (closeLink s).res = s.res := rfl
@[simp] theorem closeLink_desync (s : State) : (closeLink s).desync = s.desync := rfl
@[simp] theorem closeLink_refused (s : State) : (closeLink s).refused = s.refused := rfl
@[simp] theorem closeLink_odo (s : State) : (closeLink s).odo = s.odo := rfl
@[simp] theorem closeLink_mix (s : State) : (closeLink s).mix = s.mix := rfl
@[simp] theorem closeLink_link (s : State) : (closeLink s).link = s.link := rfl
@[simp] theorem closeLink_host (s : State) : (closeLink s).host = s.host := rfl

@[simp] theorem sendCommand_curOp (op : Sel) (o : Byte) (p : List Byte) (sh : Shape) (s : State) :
    (sendCommand op o p sh s).codec.curOp = some op := rfl
@[simp] theorem sendCommand_curOpc (op : Sel) (o : Byte) (p : List Byte) (sh : Shape) (s : State) :
    (sendCommand op o p sh s).codec.curOpc = some o := rfl
@[simp] theorem sendCommand_txChk (op : Sel) (o : Byte) (p : List Byte) (sh : Shape) (s : State) :
    (sendCommand op o p sh s).codec.txChk = some (reqChk s.cfg.address o p) := rfl
@[simp] theorem sendCommand_txIdx (op : Sel) (o : Byte) (p : List Byte) (sh : Shape) (s : State) :
    (sendCommand op o p sh s).codec.txIdx = some 0 := rfl
@[simp] theorem sendCommand_rxShape (op : Sel) (o : Byte) (p : List Byte) (sh : Shape) (s : State) :
    (sendCommand op o p sh s).codec.rxShape = some sh := rfl
@[simp] theorem sendCommand_txFrame (op : Sel) (o : Byte) (p : List Byte) (sh : Shape) (s : State) :
    (sendCommand op o p sh s).codec.txFrame = some (frameBytes s.cfg.address o p (!(sh.isRead && !s.par.readReqChecksum))) := rfl
@[simp] theorem sendCommand_txLen (op : Sel) (o : Byte) (p : List Byte) (sh : Shape) (s : State) :
    (sendCommand op o p sh s).codec.txLen = some (frameBytes s.cfg.address o p (!(sh.isRead && !s.par.readReqChecksum))).length := rfl
@[simp] theorem sendCommand_rxIdx (op : Sel) (o : Byte) (p : List Byte) (sh : Shape) (s : State) :
    (sendCommand op o p sh s).codec.rxIdx = s.codec.rxIdx := rfl
@[simp] theorem sendCommand_rxSum (op : Sel) (o : Byte) (p : List Byte) (sh : Shape) (s : State) :
    (sendCommand op o p sh s).codec.rxSum = s.codec.rxSum := rfl
@[simp] theorem sendCommand_rxAcc (op : Sel) (o : Byte) (p : List Byte) (sh : Shape) (s : State) :
    (sendCommand op o p sh s).codec.rxAcc = s.codec.rxAcc := rfl
@[simp] theorem sendCommand_rxStatus (op : Sel) (o : Byte) (p : List Byte) (sh : Shape) (s : State) :
    (sendCommand op o p sh s).codec.rxStatus = s.codec.rxStatus := rfl
@[simp] theorem sendCommand_rxStr (op : Sel) (o : Byte) (p : List Byte) (sh : Shape) (s : State) :
    (sendCommand op o p sh s).codec.rxStr = s.codec.rxStr := rfl
@[simp] theorem sendCommand_rxTerm (op : Sel) (o : Byte) (p : List Byte) (sh : Shape) (s : State) :
    (sendCommand op o p sh s).codec.rxTerm = s.codec.rxTerm := rfl

/-! The link's answers -/

@[simp] theorem Link.rxByte_txStream (l : Link) : l.rxByte.2.txStream = l.txStream := by
  unfold Link.rxByte; split <;> rfl

@[simp] theorem Link.rxByte_openAnswers (l : Link) : l.rxByte.2.openAnswers = l.openAnswers := by
  unfold Link.rxByte; split <;> rfl

@[simp] theorem Link.openAnswer_txStream (l : Link) : l.openAnswer.2.txStream = l.txStream := by
  unfold Link.openAnswer; split <;> rfl

@[simp] theorem Link.openAnswer_rxAnswers (l : Link) : l.openAnswer.2.rxAnswers = l.rxAnswers := by
  unfold Link.openAnswer; split <;> rfl

/-- An answer lined up is the one given (`20_memory.md` R63). -/
theorem Link.rxByte_cons {l : Link} {a : RxAnswer} {rest : List RxAnswer} (h : l.rxAnswers = a :: rest) :
    l.rxByte = (a, { l with rxAnswers := rest }) := by
  simp [Link.rxByte, h]

/-- Past the answers lined up the answer is free (`20_memory.md` R63). -/
theorem Link.rxByte_nil {l : Link} (h : l.rxAnswers = []) :
    l.rxByte = (Config.rxAnswer l.draws, { l with draws := l.draws + 1 }) := by
  simp [Link.rxByte, h]

end Sys2Proof.Machine
end

