-- ==== Sys2Proof/Laws/Ops.lean ====
section
/-!
SUPPORT. What the shared operations can do: reading a register, accepting a command, completing an operation.
-/
namespace Sys2Proof.Machine

open Sys2Proof

/-! Reading a register -/

@[simp] theorem need_some {α : Type} (a : α) (r : Reg) (k : α → Out) : need (some a) r k = k a := rfl
@[simp] theorem need_none {α : Type} (r : Reg) (k : α → Out) : need none r k = .fault (.noValue r) := rfl

/-- A read that goes on found a value. -/
theorem need_eq_next {α : Type} {o : Option α} {r : Reg} {k : α → Out} {t : State} :
    need o r k = .next t ↔ ∃ a, o = some a ∧ k a = .next t := by
  cases o <;> simp

theorem need_eq_refused {α : Type} {o : Option α} {r : Reg} {k : α → Out} {q : Refusal} :
    need o r k = .refused q ↔ ∃ a, o = some a ∧ k a = .refused q := by
  cases o <;> simp

/-! Accepting a command -/

theorem accept_idle {s : State} {k : Out} (h : s.phase = .idle) : accept s k = k := by simp [accept, h]

theorem accept_busy {s : State} {k : Out} (h : s.phase ≠ .idle) : accept s k = .next s := by
  unfold accept; split <;> simp_all

/-- A command is accepted in `IDLE`, or leaves the state as it is. -/
theorem accept_next {s t : State} {k : Out} (h : accept s k = .next t) :
    (s.phase = .idle ∧ k = .next t) ∨ (s.phase ≠ .idle ∧ t = s) := by
  by_cases hp : s.phase = .idle
  · exact .inl ⟨hp, by rwa [accept_idle hp] at h⟩
  · rw [accept_busy hp] at h; exact .inr ⟨hp, by cases h; rfl⟩

/-- What an operation that sends a frame does (`41_operations.md` R170). -/
theorem startWire_idle {s : State} (op : Sel) (kind : OpKind) (p : List Byte) (sh : Shape) (h : s.phase = .idle) :
    startWire op kind p sh s = .next (sendCommand op (s.par.opc.get kind) p sh s) := accept_idle h

/-! Completion -/

@[simp] theorem latched_resValid (op : Sel) (v : Bool) (e : ErrCode) : (ResRegs.latched op v e).resValid = some v := rfl
@[simp] theorem latched_resReady (op : Sel) (v : Bool) (e : ErrCode) : (ResRegs.latched op v e).resReady = true := rfl
@[simp] theorem latched_resOp (op : Sel) (v : Bool) (e : ErrCode) : (ResRegs.latched op v e).resOp = some op := rfl
@[simp] theorem latched_resErr (op : Sel) (v : Bool) (e : ErrCode) : (ResRegs.latched op v e).resErr = some e := rfl

/-- An operation that ends with an error latches it, and no value (`40_codec.md` R142). -/
theorem completeError_next {err : ErrCode} {s t : State} :
    completeError err s = .next t ↔
      ∃ op, s.codec.curOp = some op ∧ t = s.finish (ResRegs.latched op false err) := by
  unfold completeError
  rw [need_eq_next]
  simp [eq_comm]

/-- An operation that ends validly latches `OK` and `res_valid = 1`, and returns to `IDLE` (`40_codec.md` R142). -/
theorem completeValid_next {s t : State} (h : completeValid s = .next t) :
    ∃ op r, s.codec.curOp = some op ∧ t = s.finish r ∧ r.resReady = true ∧ r.resOp = some op ∧ r.resErr = some .ok ∧
      r.resValid = some true := by
  unfold completeValid at h
  obtain ⟨op, hop, h⟩ := need_eq_next.mp h
  obtain ⟨sh, -, h⟩ := need_eq_next.mp h
  cases sh <;> simp only [need_eq_next, Host.Outcome.next.injEq] at h
  case sByte | sWord | sDword =>
    obtain ⟨v, -, rfl⟩ := h; exact ⟨op, _, hop, rfl, rfl, rfl, rfl, rfl⟩
  case sDwordStatus => obtain ⟨v, -, st, -, rfl⟩ := h; exact ⟨op, _, hop, rfl, rfl, rfl, rfl, rfl⟩
  case sString => obtain ⟨v, -, rfl⟩ := h; exact ⟨op, _, hop, rfl, rfl, rfl, rfl, rfl⟩
  case sAck | sNone => subst h; exact ⟨op, _, hop, rfl, rfl, rfl, rfl, rfl⟩

/-- Every completion latches result registers and returns to `IDLE`; nothing else changes (`60_exceptions.md` R278). -/
theorem complete_next {v : Bool} {s t : State} (h : complete v s = .next t) :
    ∃ op r, s.codec.curOp = some op ∧ t = s.finish r ∧ r.resReady = true ∧ r.resOp = some op ∧
      r.resValid = some v ∧ (v = false → r = ResRegs.latched op false .checksumMismatch) := by
  cases v with
  | true =>
    obtain ⟨op, r, h1, h2, h3, h4, -, h6⟩ := completeValid_next h
    exact ⟨op, r, h1, h2, h3, h4, h6, by simp⟩
  | false =>
    obtain ⟨op, h1, h2⟩ := completeError_next.mp h
    exact ⟨op, _, h1, h2, rfl, rfl, rfl, fun _ => rfl⟩

theorem timeout_next {s t : State} :
    timeout s = .next t ↔
      ∃ op, s.codec.curOp = some op ∧
        t = ({ s with desync := true } : State).finish (ResRegs.latched op false .transportTimeout) :=
  completeError_next

theorem malformed_next {s t : State} :
    malformed s = .next t ↔
      ∃ op, s.codec.curOp = some op ∧
        t = ({ s with desync := true } : State).finish (ResRegs.latched op false .malformedResponse) :=
  completeError_next

/-! No operation ends in a refusal of the model -/

theorem completeError_not_refused {err : ErrCode} {s : State} {q : Refusal} : completeError err s ≠ .refused q := by
  unfold completeError; rw [ne_eq, need_eq_refused]; simp

theorem complete_not_refused {v : Bool} {s : State} {q : Refusal} : complete v s ≠ .refused q := by
  cases v with
  | false => exact completeError_not_refused
  | true =>
    intro h
    simp only [complete, if_true, completeValid] at h
    obtain ⟨_, -, h⟩ := need_eq_refused.mp h
    obtain ⟨sh, -, h⟩ := need_eq_refused.mp h
    cases sh <;> simp [need_eq_refused] at h

end Sys2Proof.Machine
end

