-- ==== Sys2Proof/Laws/Codec.lean ====
section
/-! SUPPORT. What a transmit step and a receive step can do. -/
namespace Sys2Proof.Machine

open Sys2Proof

/-- Within the frame the byte read is the frame's. -/
theorem frameByte_of_getElem? {frame : List Byte} {i : Nat} {b : Byte} (h : frame[i]? = some b) :
    frameByte frame i = b := by simp [frameByte, h]

@[simp] theorem frameByte_of_lt {frame : List Byte} {i : Nat} (h : i < frame.length) : frameByte frame i = frame[i] :=
  frameByte_of_getElem? (List.getElem?_eq_getElem h)

/-- An array with a zero byte is read up to it. -/
theorem readString_of_stringOf {a : List (Option Byte)} {str : List Byte} (h : stringOf a = some str) :
    readString a = some str := by
  induction a generalizing str with
  | nil => cases h
  | cons o bs ih =>
    cases o with
    | none => cases h
    | some b =>
      simp only [stringOf, readString] at h ⊢
      split
      · next hb => simpa [hb] using h
      · next hb =>
        simp only [hb, if_false, Option.map_eq_some_iff] at h
        obtain ⟨rest, hr, rfl⟩ := h
        simp [ih hr]

/-- What a transmit step can do (`40_codec.md` R132): send a byte before the last; send the last and complete; send the
last and start reception. -/
theorem txStep_next {s t : State} (h : txStep s = .next t) :
    ∃ frame i b len shape,
      s.codec.txFrame = some frame ∧ s.codec.txIdx = some i ∧ b = frameByte frame i ∧ s.codec.txLen = some len ∧
      s.codec.rxShape = some shape ∧
      ((i + 1 ≠ len ∧ t = s.sent i b) ∨
        (i + 1 = len ∧ shape = .sNone ∧ complete true (s.sent i b) = .next t) ∨
        (i + 1 = len ∧ shape ≠ .sNone ∧ ∃ opc, s.codec.curOpc = some opc ∧ t = (s.sent i b).startRx opc)) := by
  unfold txStep at h
  obtain ⟨frame, hf, h⟩ := need_eq_next.mp h
  obtain ⟨i, hi, h⟩ := need_eq_next.mp h
  obtain ⟨len, hl, h⟩ := need_eq_next.mp h
  obtain ⟨shape, hs, h⟩ := need_eq_next.mp h
  refine ⟨frame, i, _, len, shape, hf, hi, rfl, hl, hs, ?_⟩
  split at h
  · next hlast =>
    right
    cases shape <;> simp only [endTx, need_eq_next, Host.Outcome.next.injEq] at h
    case sNone => exact .inl ⟨hlast, rfl, h⟩
    all_goals
      obtain ⟨opc, ho, rfl⟩ := h
      exact .inr ⟨hlast, by simp, opc, ho, rfl⟩
  · next hmore => cases h; exact .inl ⟨hmore, rfl⟩

/-- An operation that ends: result registers latched for the operation in progress, and `IDLE`. It ends validly, or with a
checksum mismatch, or with a timeout or a malformed string, which set `desync` (`40_codec.md` R139, R141, R142). -/
def Ends (s t : State) : Prop :=
  ∃ c op r d,
    c.curOp = s.codec.curOp ∧ s.codec.curOp = some op ∧
    t = { s with codec := c, res := r, phase := .idle, desync := d } ∧
    r.resReady = true ∧ r.resOp = some op ∧
    ((d = s.desync ∧ r.resValid = some true ∧ r.resErr = some .ok) ∨
      (d = s.desync ∧ r = ResRegs.latched op false .checksumMismatch) ∨
      (d = true ∧ (r = ResRegs.latched op false .transportTimeout ∨ r = ResRegs.latched op false .malformedResponse)))

/-- An operation that goes on: only the codec's working registers change, and neither the operation nor its shape. -/
def Continues (s t : State) : Prop :=
  ∃ c, c.curOp = s.codec.curOp ∧ c.curOpc = s.codec.curOpc ∧ c.rxShape = s.codec.rxShape ∧ t = { s with codec := c }

theorem ends_of_complete {v : Bool} {s u t : State} {c : CodecRegs} (hc : c.curOp = s.codec.curOp)
    (hu : u = { s with codec := c }) (h : complete v u = .next t) : Ends s t := by
  subst hu
  cases v with
  | false =>
    obtain ⟨op, hop, rfl⟩ := completeError_next.mp h
    exact ⟨c, op, _, s.desync, hc, by simpa [hc] using hop, rfl, rfl, rfl, .inr (.inl ⟨rfl, rfl⟩)⟩
  | true =>
    obtain ⟨op, r, hop, rfl, hr, ho, he, hv⟩ := completeValid_next h
    exact ⟨c, op, r, s.desync, hc, by simpa [hc] using hop, rfl, hr, ho, .inl ⟨rfl, hv, he⟩⟩

theorem ends_of_error {err : ErrCode} (herr : err = .transportTimeout ∨ err = .malformedResponse) {s u t : State}
    {c : CodecRegs} (hc : c.curOp = s.codec.curOp)
    (hu : u = { s with codec := c, desync := true }) (h : completeError err u = .next t) : Ends s t := by
  subst hu
  obtain ⟨op, hop, rfl⟩ := completeError_next.mp h
  refine ⟨c, op, _, true, hc, by simpa [hc] using hop, rfl, rfl, rfl, .inr (.inr ⟨rfl, ?_⟩)⟩
  exact herr.imp (by rintro rfl; rfl) (by rintro rfl; rfl)

theorem rxFixed_next {shape : Shape} {i : Nat} {b : Byte} {s u t : State} {c : CodecRegs} (hc : c.curOp = s.codec.curOp)
    (hc2 : c.curOpc = s.codec.curOpc) (hc3 : c.rxShape = s.codec.rxShape)
    (hu : u = { s with codec := c }) (h : rxFixed shape i b u = .next t) : Continues s t ∨ Ends s t := by
  unfold rxFixed at h
  obtain ⟨sum, -, h⟩ := need_eq_next.mp h
  split at h
  · obtain ⟨acc, -, h⟩ := need_eq_next.mp h
    cases h; subst hu
    exact .inl ⟨{ c with rxAcc := some (accShift acc b), rxSum := some (sum + b) }, hc, hc2, hc3, rfl⟩
  · split at h
    · cases h; subst hu
      exact .inl ⟨{ c with rxStatus := some b, rxSum := some (sum + b) }, hc, hc2, hc3, rfl⟩
    · exact .inr (ends_of_complete hc hu h)

theorem rxString_next {i : Nat} {b : Byte} {s u t : State} {c : CodecRegs} (hc : c.curOp = s.codec.curOp)
    (hc2 : c.curOpc = s.codec.curOpc) (hc3 : c.rxShape = s.codec.rxShape)
    (hu : u = { s with codec := c }) (h : rxString i b u = .next t) : Continues s t ∨ Ends s t := by
  unfold rxString at h
  obtain ⟨term, -, h⟩ := need_eq_next.mp h
  obtain ⟨sum, -, h⟩ := need_eq_next.mp h
  split at h
  · exact .inr (ends_of_complete hc hu h)
  · split at h
    · subst hu
      exact .inr (ends_of_error (.inr rfl) (c := (State.takeChar i sum b term { s with codec := c }).codec) hc rfl h)
    · cases h; subst hu
      exact .inl ⟨(State.takeChar i sum b term { s with codec := c }).codec, hc, hc2, hc3, rfl⟩

/-- What a received byte can do (`40_codec.md` R134). -/
theorem receive_next {b : Byte} {s t : State} (h : receive b s = .next t) : Continues s t ∨ Ends s t := by
  unfold receive at h
  obtain ⟨shape, -, h⟩ := need_eq_next.mp h
  obtain ⟨i, -, h⟩ := need_eq_next.mp h
  cases shape <;> simp only at h
  case sByte | sWord | sDword | sDwordStatus => exact rxFixed_next (c := { s.codec with rxIdx := some (i + 1) }) rfl rfl rfl rfl h
  case sString => exact rxString_next (c := { s.codec with rxIdx := some (i + 1) }) rfl rfl rfl rfl h
  case sAck =>
    obtain ⟨chk, -, h⟩ := need_eq_next.mp h
    exact .inr (ends_of_complete (c := { s.codec with rxIdx := some (i + 1) }) rfl rfl h)
  case sNone => cases h; exact .inl ⟨{ s.codec with rxIdx := some (i + 1) }, rfl, rfl, rfl, rfl⟩

/-- What a receive step can do: with its answer taken from the link, the operation goes on or ends. -/
theorem rxStep_next {s t : State} (h : rxStep s = .next t) :
    Continues { s with link := s.link.rxByte.2 } t ∨ Ends { s with link := s.link.rxByte.2 } t := by
  simp only [rxStep] at h
  split at h
  · exact .inr (ends_of_error (.inl rfl) (s := { s with link := s.link.rxByte.2 }) (c := s.codec) rfl rfl h)
  · exact receive_next h

/-- A receive step answered `TIMEOUT` is `Timeout` (`40_codec.md` R141). -/
theorem rxStep_timeout {s : State} (h : s.link.rxByte.1 = .timeout) :
    rxStep s = timeout { s with link := s.link.rxByte.2 } := by
  simp [rxStep, h]

/-- A receive step answered with a byte is `receive`. -/
theorem rxStep_byte {s : State} {b : Byte} (h : s.link.rxByte.1 = .byte b) :
    rxStep s = receive b { s with link := s.link.rxByte.2 } := by
  simp [rxStep, h]

/-! No codec step ends in a refusal of the model -/

theorem txStep_not_refused {s : State} {q : Refusal} : txStep s ≠ .refused q := by
  intro h
  unfold txStep at h
  obtain ⟨_, -, h⟩ := need_eq_refused.mp h
  obtain ⟨_, -, h⟩ := need_eq_refused.mp h
  obtain ⟨_, -, h⟩ := need_eq_refused.mp h
  obtain ⟨shape, -, h⟩ := need_eq_refused.mp h
  split at h
  · cases shape <;> simp only [endTx, need_eq_refused, reduceCtorEq, and_false, exists_false] at h
    exact complete_not_refused h
  · cases h

theorem receive_not_refused {b : Byte} {s : State} {q : Refusal} : receive b s ≠ .refused q := by
  intro h
  unfold receive at h
  obtain ⟨shape, -, h⟩ := need_eq_refused.mp h
  obtain ⟨i, -, h⟩ := need_eq_refused.mp h
  cases shape <;> simp only [rxFixed, rxString, rxAck, need_eq_refused, reduceCtorEq] at h
  case sString =>
    obtain ⟨_, -, _, -, h⟩ := h
    split at h
    · exact complete_not_refused h
    · split at h
      · exact completeError_not_refused h
      · cases h
  case sAck =>
    obtain ⟨_, -, h⟩ := h
    exact complete_not_refused h
  all_goals
    obtain ⟨_, -, h⟩ := h
    split at h
    · simp [need_eq_refused] at h
    · split at h
      · cases h
      · exact complete_not_refused h

theorem rxStep_not_refused {s : State} {q : Refusal} : rxStep s ≠ .refused q := by
  intro h
  simp only [rxStep] at h
  split at h
  · exact completeError_not_refused h
  · exact receive_not_refused h

/-! The frame -/

@[simp] theorem bytes32_length (w : Word) : (bytes32 w).length = 4 := rfl

@[simp] theorem pidPayload_length (a b c d : Word) : (pidPayload a b c d).length = 16 := rfl

@[simp] theorem mixPayload_length (m : Bool) (a b : Word) : (mixPayload m a b).length = 8 := by
  cases m <;> rfl

theorem frameBytes_length (a o : Byte) (p : List Byte) (k : Bool) :
    (frameBytes a o p k).length = p.length + (if k then 3 else 2) := by
  cases k <;> simp [frameBytes]

/-- Bit 7 of a request checksum byte is 0 (`30_encoding.md` R91). -/
theorem reqChk_bit7 (a o : Byte) (p : List Byte) : (reqChk a o p).getLsbD 7 = false := by
  simp [reqChk]

end Sys2Proof.Machine
end

