-- ==== Sys2Proof/Laws/Encoding.lean ====
section
/-! SUPPORT. Bytes, words and opcode bytes: each reading undoes its writing. -/
namespace Sys2Proof

/-- `be32` reads the word that `bytes32` wrote (`20_memory.md` R64). -/
theorem be32_bytes32 (w : Word) :
    be32 (w.extractLsb' 24 8) (w.extractLsb' 16 8) (w.extractLsb' 8 8) (w.extractLsb' 0 8) = w := by
  unfold be32
  apply BitVec.eq_of_getLsbD_eq
  intro i hi
  simp only [BitVec.getLsbD_append, BitVec.getLsbD_extractLsb']
  rcases lt_or_ge i 8 with h | h
  · simp [h]
  · rcases lt_or_ge i 16 with h2 | h2
    · have : i - 8 < 8 := by omega
      simp [Nat.not_lt.mpr h, this]; congr 1; omega
    · rcases lt_or_ge i 24 with h3 | h3
      · have a : ¬ i - 8 < 8 := by omega
        have : i - 8 - 8 < 8 := by omega
        simp [Nat.not_lt.mpr h, a, this]; congr 1; omega
      · have a : ¬ i - 8 < 8 := by omega
        have b : ¬ i - 8 - 8 < 8 := by omega
        have c : i - 8 - 8 - 8 < 8 := by omega
        simp [Nat.not_lt.mpr h, a, b, c]; congr 1; omega

/-- `bytes32` writes the bytes that `be32` read. -/
theorem bytes32_be32 (a b c d : Byte) : bytes32 (be32 a b c d) = [a, b, c, d] := by
  unfold bytes32 be32
  simp only [List.cons.injEq, and_true]
  refine ⟨?_, ?_, ?_, ?_⟩ <;> apply BitVec.eq_of_getLsbD_eq <;> intro i hi <;>
    simp only [BitVec.getLsbD_append, BitVec.getLsbD_extractLsb', hi, decide_true, Bool.true_and]
  · rw [if_neg (by omega), if_neg (by omega), if_neg (by omega), show 24 + i - 8 - 8 - 8 = i by omega]
  · rw [if_neg (by omega), if_neg (by omega), if_pos (by omega), show 16 + i - 8 - 8 = i by omega]
  · rw [if_neg (by omega), if_pos (by omega), show 8 + i - 8 = i by omega]
  · rw [if_pos (by omega), Nat.zero_add]

/-- The words of a payload read back. -/
theorem wordsOf_flatMap (ws : List Word) : wordsOf (ws.flatMap bytes32) = some ws := by
  induction ws with
  | nil => rfl
  | cons w ws ih => simp [bytes32, wordsOf, show wordsOf (ws.flatMap bytes32) = some ws from ih, be32_bytes32]

theorem length_flatMap_bytes32 (ws : List Word) : (ws.flatMap bytes32).length = 4 * ws.length := by
  induction ws with
  | nil => rfl
  | cons w ws ih => simp only [List.flatMap_cons, List.length_append, List.length_cons, ih, bytes32]; simp; omega

/-- Bytes that read as words are the bytes of those words. -/
theorem flatMap_of_wordsOf (l : List Byte) (ws : List Word) (h : wordsOf l = some ws) : ws.flatMap bytes32 = l := by
  induction l using wordsOf.induct generalizing ws with
  | case1 => simp [wordsOf] at h; subst h; rfl
  | case2 a b c d rest ih =>
    simp only [wordsOf, Option.map_eq_some_iff] at h
    obtain ⟨vs, hv, rfl⟩ := h
    simp [bytes32_be32, ih vs hv]
  | case3 => simp [wordsOf] at h

/-- An opcode byte of a table of distinct values stands for its kind (`30_encoding.md` R108). -/
theorem OpcTable.kindOf_get {t : OpcTable} (h : t.distinct = true) (k : OpKind) : t.kindOf (t.get k) = some k := by
  have mem : ∀ k, k ∈ OpKind.all := by intro k; cases k <;> decide
  have inj := List.inj_on_of_nodup_map (of_decide_eq_true h)
  unfold OpcTable.kindOf
  rcases hf : OpKind.all.find? (fun j => t.get j == t.get k) with _ | j
  · have := List.find?_eq_none.mp hf k (mem k); simp at this
  · rw [inj (mem j) (mem k) (by simpa using List.find?_some hf)]

theorem OpcTable.get_of_kindOf {t : OpcTable} {b : Byte} {k : OpKind} (h : t.kindOf b = some k) : t.get k = b := by
  simpa using List.find?_some h

/-! The checksum over natural numbers -/

theorem sum8_append (xs ys : List Byte) : sum8 (xs ++ ys) = sum8 xs + sum8 ys := by
  induction xs with
  | nil => simp [sum8]
  | cons b bs ih => simp [sum8, ih, BitVec.add_assoc]

theorem toNat_sum8 (l : List Byte) : (sum8 l).toNat = (l.map BitVec.toNat).sum % 256 := by
  induction l with
  | nil => rfl
  | cons b bs ih => simp [sum8, BitVec.toNat_add, ih]

/-- The mask to 7 bits. -/
theorem toNat_and_7F (b : Byte) : (b &&& 0x7F).toNat = b.toNat % 128 := by
  rw [BitVec.toNat_and]; exact Nat.and_two_pow_sub_one_eq_mod _ 7

end Sys2Proof
end

