-- ==== Sys2Proof/Laws/Exact.lean ====
section
/-!
SUPPORT. The operations of the form `Exact` compute the real numbers they stand for (`val`), keep the canonical form
(`wf`), and on rationals are the rational ones.
-/
namespace Sys2Proof

/-! Values -/

@[simp] theorem TrigTerm.sumVal_nil : TrigTerm.sumVal [] = 0 := rfl
@[simp] theorem TrigTerm.sumVal_cons (t : TrigTerm) (ts : List TrigTerm) :
    TrigTerm.sumVal (t :: ts) = t.val + TrigTerm.sumVal ts := rfl

@[simp] theorem Exact.val_mk (q : ℚ) (ts : List TrigTerm) : Exact.val ⟨q, ts⟩ = (q : ℝ) + TrigTerm.sumVal ts := rfl

theorem TrigTerm.sumVal_consNonzero (t : TrigTerm) (ts : List TrigTerm) :
    TrigTerm.sumVal (t.consNonzero ts) = t.val + TrigTerm.sumVal ts := by
  unfold TrigTerm.consNonzero
  split
  · next h => simp [TrigTerm.val, h.1, h.2]
  · rfl

theorem TrigTerm.sumVal_insert (t : TrigTerm) (ts : List TrigTerm) :
    TrigTerm.sumVal (t.insert ts) = t.val + TrigTerm.sumVal ts := by
  induction ts with
  | nil => simp [TrigTerm.insert, TrigTerm.sumVal_consNonzero]
  | cons u us ih =>
    unfold TrigTerm.insert
    split
    · rw [TrigTerm.sumVal_consNonzero]
    · split
      · next h =>
        rw [TrigTerm.sumVal_consNonzero, TrigTerm.sumVal_cons]
        simp only [TrigTerm.val, h]
        push_cast
        ring
      · rw [TrigTerm.sumVal_cons, ih, TrigTerm.sumVal_cons]
        ring

theorem Exact.val_addTerm (a c s : ℚ) (e : Exact) :
    (e.addTerm a c s).val = e.val + ((c : ℝ) * Real.cos a + (s : ℝ) * Real.sin a) := by
  unfold Exact.addTerm Exact.val
  split
  · next h => subst h; push_cast; simp; ring
  · split
    · simp only [TrigTerm.sumVal_insert, TrigTerm.val]
      push_cast
      rw [Real.cos_neg, Real.sin_neg]
      ring
    · simp only [TrigTerm.sumVal_insert, TrigTerm.val]
      ring

theorem Exact.val_addTerms (ts : List TrigTerm) (e : Exact) :
    (Exact.addTerms ts e).val = e.val + TrigTerm.sumVal ts := by
  induction ts generalizing e with
  | nil => simp [Exact.addTerms]
  | cons t ts ih =>
    rw [Exact.addTerms, ih, Exact.val_addTerm, TrigTerm.sumVal_cons, TrigTerm.val]
    ring

theorem Exact.val_addScaled (q : ℚ) (ts : List TrigTerm) (e : Exact) :
    (Exact.addScaled q ts e).val = e.val + (q : ℝ) * TrigTerm.sumVal ts := by
  induction ts generalizing e with
  | nil => simp [Exact.addScaled]
  | cons t ts ih =>
    rw [Exact.addScaled, ih, Exact.val_addTerm, TrigTerm.sumVal_cons, TrigTerm.val]
    push_cast
    ring

@[simp] theorem Exact.val_add (a b : Exact) : (a.add b).val = a.val + b.val := by
  rw [Exact.add, Exact.val_addTerms]
  simp only [Exact.val, Rat.cast_add]
  ring

@[simp] theorem Exact.val_scale (q : ℚ) (e : Exact) : (e.scale q).val = (q : ℝ) * e.val := by
  rw [Exact.scale, Exact.val_addScaled]
  simp only [Exact.val, Rat.cast_mul, TrigTerm.sumVal_nil]
  ring

@[simp] theorem Exact.val_neg (a : Exact) : a.neg.val = -a.val := by
  rw [Exact.neg, Exact.val_scale]
  push_cast
  ring

/-- The product-to-sum identities. -/
theorem Exact.val_addTermMul (t u : TrigTerm) (e : Exact) : (Exact.addTermMul t u e).val = e.val + t.val * u.val := by
  rw [Exact.addTermMul, Exact.val_addTerm, Exact.val_addTerm]
  simp only [TrigTerm.val]
  push_cast
  rw [Real.cos_sub, Real.sin_sub, Real.cos_add, Real.sin_add]
  ring

theorem Exact.val_addTermMuls (t : TrigTerm) (us : List TrigTerm) (e : Exact) :
    (Exact.addTermMuls t us e).val = e.val + t.val * TrigTerm.sumVal us := by
  induction us generalizing e with
  | nil => simp [Exact.addTermMuls]
  | cons u us ih =>
    rw [Exact.addTermMuls, ih, Exact.val_addTermMul, TrigTerm.sumVal_cons]
    ring

theorem Exact.val_addMuls (ts us : List TrigTerm) (e : Exact) :
    (Exact.addMuls ts us e).val = e.val + TrigTerm.sumVal ts * TrigTerm.sumVal us := by
  induction ts generalizing e with
  | nil => simp [Exact.addMuls]
  | cons t ts ih =>
    rw [Exact.addMuls, ih, Exact.val_addTermMuls, TrigTerm.sumVal_cons]
    ring

@[simp] theorem Exact.val_mul (a b : Exact) : (a.mul b).val = a.val * b.val := by
  rw [Exact.mul, Exact.val_addMuls, Exact.val_addScaled, Exact.val_scale]
  simp only [Exact.val]
  ring

@[simp] theorem Exact.val_cos (q : ℚ) : (Exact.cos q).val = Real.cos q := by
  rw [Exact.cos, Exact.val_addTerm]; simp

@[simp] theorem Exact.val_sin (q : ℚ) : (Exact.sin q).val = Real.sin q := by
  rw [Exact.sin, Exact.val_addTerm]; simp

/-! The canonical form -/

theorem TrigTerm.canonicalFrom_mono {lo hi : ℚ} (h : lo ≤ hi) {ts : List TrigTerm}
    (w : TrigTerm.canonicalFrom hi ts = true) : TrigTerm.canonicalFrom lo ts = true := by
  cases ts with
  | nil => rfl
  | cons t ts =>
    simp only [TrigTerm.canonicalFrom, Bool.and_eq_true, decide_eq_true_eq] at w ⊢
    exact ⟨⟨lt_of_le_of_lt h w.1.1, w.1.2⟩, w.2⟩

theorem TrigTerm.canonicalFrom_consNonzero {lo : ℚ} {t : TrigTerm} {ts : List TrigTerm} (hlo : lo < t.angle)
    (w : TrigTerm.canonicalFrom t.angle ts = true) : TrigTerm.canonicalFrom lo (t.consNonzero ts) = true := by
  unfold TrigTerm.consNonzero
  split
  · exact TrigTerm.canonicalFrom_mono hlo.le w
  · next h =>
    have hn : t.nonzero = true := by
      simp only [TrigTerm.nonzero, Bool.or_eq_true, bne_iff_ne]
      tauto
    simp [TrigTerm.canonicalFrom, hlo, hn, w]

theorem TrigTerm.canonicalFrom_insert {lo : ℚ} {t : TrigTerm} {ts : List TrigTerm} (hlo : lo < t.angle)
    (w : TrigTerm.canonicalFrom lo ts = true) : TrigTerm.canonicalFrom lo (t.insert ts) = true := by
  induction ts generalizing lo with
  | nil => exact TrigTerm.canonicalFrom_consNonzero hlo rfl
  | cons u us ih =>
    simp only [TrigTerm.canonicalFrom, Bool.and_eq_true, decide_eq_true_eq] at w
    obtain ⟨⟨hu, hn⟩, wus⟩ := w
    unfold TrigTerm.insert
    split
    · next h => exact TrigTerm.canonicalFrom_consNonzero hlo (by simp [TrigTerm.canonicalFrom, h, hn, wus])
    · split
      · exact TrigTerm.canonicalFrom_consNonzero hu wus
      · next h1 h2 =>
        have : u.angle < t.angle := lt_of_le_of_ne (not_lt.mp h1) (Ne.symm h2)
        simp [TrigTerm.canonicalFrom, hu, hn, ih this wus]

theorem Exact.wf_addTerm {e : Exact} (a c s : ℚ) (w : e.wf = true) : (e.addTerm a c s).wf = true := by
  unfold Exact.addTerm Exact.wf at *
  split
  · exact w
  · split
    · next h => exact TrigTerm.canonicalFrom_insert (neg_pos.mpr h) w
    · next h0 h => exact TrigTerm.canonicalFrom_insert (lt_of_le_of_ne (not_lt.mp h) (Ne.symm h0)) w

theorem Exact.wf_addTerms (ts : List TrigTerm) {e : Exact} (w : e.wf = true) : (Exact.addTerms ts e).wf = true := by
  induction ts generalizing e with
  | nil => exact w
  | cons t ts ih => exact ih (Exact.wf_addTerm _ _ _ w)

theorem Exact.wf_addScaled (q : ℚ) (ts : List TrigTerm) {e : Exact} (w : e.wf = true) :
    (Exact.addScaled q ts e).wf = true := by
  induction ts generalizing e with
  | nil => exact w
  | cons t ts ih => exact ih (Exact.wf_addTerm _ _ _ w)

theorem Exact.wf_add {a : Exact} (b : Exact) (w : a.wf = true) : (a.add b).wf = true :=
  Exact.wf_addTerms b.trig (e := ⟨a.rat + b.rat, a.trig⟩) w

theorem Exact.wf_scale (q : ℚ) (e : Exact) : (e.scale q).wf = true :=
  Exact.wf_addScaled q e.trig (e := ⟨q * e.rat, []⟩) rfl

theorem Exact.wf_neg (e : Exact) : e.neg.wf = true := Exact.wf_scale _ e

theorem Exact.wf_addTermMuls (t : TrigTerm) (us : List TrigTerm) {e : Exact} (w : e.wf = true) :
    (Exact.addTermMuls t us e).wf = true := by
  induction us generalizing e with
  | nil => exact w
  | cons u us ih => exact ih (Exact.wf_addTerm _ _ _ (Exact.wf_addTerm _ _ _ w))

theorem Exact.wf_addMuls (ts us : List TrigTerm) {e : Exact} (w : e.wf = true) : (Exact.addMuls ts us e).wf = true := by
  induction ts generalizing e with
  | nil => exact w
  | cons t ts ih => exact ih (Exact.wf_addTermMuls t us w)

theorem Exact.wf_mul (a b : Exact) : (a.mul b).wf = true :=
  Exact.wf_addMuls _ _ (Exact.wf_addScaled _ _ (Exact.wf_scale _ _))

theorem Exact.wf_cos (q : ℚ) : (Exact.cos q).wf = true := Exact.wf_addTerm (e := ⟨0, []⟩) _ _ _ rfl

theorem Exact.wf_sin (q : ℚ) : (Exact.sin q).wf = true := Exact.wf_addTerm (e := ⟨0, []⟩) _ _ _ rfl

/-! On rationals -/

@[simp] theorem Exact.rat?_mk (q : ℚ) : Exact.rat? ⟨q, []⟩ = some q := rfl
@[simp] theorem Exact.add_ofRat (p q : ℚ) : Exact.add ⟨p, []⟩ ⟨q, []⟩ = ⟨p + q, []⟩ := rfl
@[simp] theorem Exact.mul_ofRat (p q : ℚ) : Exact.mul ⟨p, []⟩ ⟨q, []⟩ = ⟨p * q, []⟩ := rfl
@[simp] theorem Exact.neg_ofRat (p : ℚ) : Exact.neg ⟨p, []⟩ = ⟨-p, []⟩ := by
  simp [Exact.neg, Exact.scale, Exact.addScaled]

/-- What reads as a rational is written as one. -/
theorem Exact.eq_of_rat? {e : Exact} {q : ℚ} (h : e.rat? = some q) : e = ⟨q, []⟩ := by
  obtain ⟨r, ts⟩ := e
  cases ts with
  | nil => simpa [Exact.rat?] using h
  | cons t ts => simp [Exact.rat?] at h

end Sys2Proof
end

