-- ==== Sys2Proof/Laws/Real.lean ====
section
/-!
SUPPORT. The enclosures of a real number hold it and narrow to it; so the sign, the integer parts and the rounding that
the model computes are those of the real number (`00_scope.md` R8).
-/
namespace Sys2Proof

open Filter Topology

/-! The search -/

theorem searchFrom_of_some {α : Type} {f : Nat → Option α} {n : Nat} {a : α} (h : f n = some a) :
    searchFrom f n = some a := by
  rw [searchFrom, h]

/-- What a search answers is an answer of `f` from the start on. -/
theorem searchFrom_sound {α : Type} {f : Nat → Option α} {n : Nat} {a : α} (h : searchFrom f n = some a) :
    ∃ m, n ≤ m ∧ f m = some a := by
  refine searchFrom.partial_correctness f (fun n a => ∃ m, n ≤ m ∧ f m = some a) ?_ n a h
  intro search ih n a h
  split at h
  · next b hb => exact ⟨n, le_rfl, hb.trans h⟩
  · obtain ⟨m, hm, hf⟩ := ih _ _ h
    exact ⟨m, by omega, hf⟩

/-- A search answers if `f` does anywhere from the start on. -/
theorem searchFrom_complete {α : Type} {f : Nat → Option α} {a : α} (n k : Nat) (h : f (n + k) = some a) :
    ∃ b, searchFrom f n = some b := by
  induction k generalizing n with
  | zero => exact ⟨a, searchFrom_of_some h⟩
  | succ k ih =>
    rw [searchFrom]
    split
    · next b _ => exact ⟨b, rfl⟩
    · exact ih (n + 1) (by rw [← h]; congr 1; omega)

/-! Balls -/

/-- `x` lies in the ball. -/
def Ball.Has (b : Ball) (x : ℝ) : Prop := |x - b.mid| ≤ b.rad

theorem Ball.has_point (q : ℚ) : Ball.Has ⟨q, 0⟩ (q : ℝ) := by simp [Ball.Has]

theorem Ball.Has.rad_nonneg {b : Ball} {x : ℝ} (h : b.Has x) : (0 : ℝ) ≤ b.rad := (abs_nonneg _).trans h

theorem Ball.Has.add {a b : Ball} {x y : ℝ} (ha : a.Has x) (hb : b.Has y) : (a.add b).Has (x + y) := by
  simp only [Ball.Has, Ball.add, Rat.cast_add] at *
  rw [show x + y - (a.mid + b.mid) = (x - a.mid) + (y - b.mid) by ring]
  exact (abs_add_le _ _).trans (add_le_add ha hb)

theorem Ball.Has.neg {a : Ball} {x : ℝ} (ha : a.Has x) : a.neg.Has (-x) := by
  simp only [Ball.Has, Ball.neg, Rat.cast_neg] at *
  rwa [show -x - -(a.mid : ℝ) = -(x - a.mid) by ring, abs_neg]

theorem Ball.Has.mul {a b : Ball} {x y : ℝ} (ha : a.Has x) (hb : b.Has y) : (a.mul b).Has (x * y) := by
  have hr := ha.rad_nonneg
  simp only [Ball.Has, Ball.mul, Rat.cast_add, Rat.cast_mul, Rat.cast_abs] at *
  rw [show x * y - a.mid * b.mid = a.mid * (y - b.mid) + b.mid * (x - a.mid) + (x - a.mid) * (y - b.mid) by ring]
  refine (abs_add_three _ _ _).trans ?_
  simp only [abs_mul]
  gcongr

/-- Off 0 the inverse lies in the inverse ball. -/
theorem Ball.Has.inv {a : Ball} {x : ℝ} (ha : a.Has x) (h : (a.rad : ℝ) < |(a.mid : ℝ)|) : a.inv.Has x⁻¹ := by
  have hr := ha.rad_nonneg
  have hm : (0 : ℝ) < |(a.mid : ℝ)| := hr.trans_lt h
  have hx : |(a.mid : ℝ)| - a.rad ≤ |x| := by
    have := abs_sub_abs_le_abs_sub (a.mid : ℝ) x
    rw [abs_sub_comm] at this
    have := this.trans ha
    linarith
  have hp : (0 : ℝ) < |(a.mid : ℝ)| - a.rad := sub_pos.mpr h
  have hm0 : (a.mid : ℝ) ≠ 0 := abs_pos.mp hm
  have hx0 : x ≠ 0 := abs_pos.mp (hp.trans_le hx)
  simp only [Ball.Has, Ball.inv, Rat.cast_inv, Rat.cast_div, Rat.cast_mul, Rat.cast_sub, Rat.cast_abs]
  rw [show x⁻¹ - (a.mid : ℝ)⁻¹ = -(x - a.mid) / (a.mid * x) by field_simp; ring, abs_div, abs_neg, abs_mul]
  exact div_le_div₀ hr ha (mul_pos hm hp) (by gcongr)

/-! The power series of cosine and sine -/

theorem cisTerm_eq (q : ℚ) (k : Nat) :
    (((cisTerm q k).1 : ℝ) : ℂ) + ((cisTerm q k).2 : ℝ) * Complex.I =
      (((q : ℝ) : ℂ) * Complex.I) ^ k / (k.factorial : ℂ) := by
  induction k with
  | zero => simp [cisTerm]
  | succ k ih =>
    have hk : ((k : ℂ) + 1) ≠ 0 := by exact_mod_cast Nat.succ_ne_zero k
    have hf : (k.factorial : ℂ) ≠ 0 := by exact_mod_cast k.factorial_ne_zero
    rw [pow_succ, Nat.factorial_succ]
    have := congrArg (· * (((q : ℝ) : ℂ) * Complex.I) / ((k : ℂ) + 1)) ih
    simp only [cisTerm] at this ⊢
    push_cast at this ⊢
    rw [show (((q : ℂ)) * Complex.I) ^ k * ((q : ℂ) * Complex.I) / (((k : ℂ) + 1) * (k.factorial : ℂ)) =
      ((q : ℂ) * Complex.I) ^ k / (k.factorial : ℂ) * ((q : ℂ) * Complex.I) / ((k : ℂ) + 1) by field_simp, ← this]
    field_simp
    ring_nf
    rw [Complex.I_sq]
    ring

theorem cisSum_eq (q : ℚ) (k : Nat) :
    (((cisSum q k).1 : ℝ) : ℂ) + ((cisSum q k).2 : ℝ) * Complex.I =
      ∑ m ∈ Finset.range k, (((q : ℝ) : ℂ) * Complex.I) ^ m / (m.factorial : ℂ) := by
  induction k with
  | zero => simp [cisSum]
  | succ k ih =>
    rw [Finset.sum_range_succ, ← ih, ← cisTerm_eq]
    simp only [cisSum]
    push_cast
    ring

/-- The sum of enough terms is within `cisRad` of the value. -/
theorem cisSum_bound (q : ℚ) (n : Nat) :
    |Real.cos q - (cisSum q (cisTerms q n)).1| ≤ cisRad q (cisTerms q n) ∧
      |Real.sin q - (cisSum q (cisTerms q n)).2| ≤ cisRad q (cisTerms q n) := by
  set k := cisTerms q n with hk
  have hn : ‖((q : ℝ) : ℂ) * Complex.I‖ = |(q : ℝ)| := by
    rw [norm_mul, Complex.norm_I, mul_one, Complex.norm_real, Real.norm_eq_abs]
  have hle : |(q : ℝ)| ≤ (⌈|q|⌉₊ : ℝ) := by exact_mod_cast Nat.le_ceil |q|
  have hb := Complex.exp_bound' (x := ((q : ℝ) : ℂ) * Complex.I) (n := k) (by
    rw [hn, div_le_iff₀ (by positivity)]
    have : (2 * ⌈|q|⌉₊ : ℝ) ≤ (k.succ : ℝ) := by
      exact_mod_cast (show 2 * ⌈|q|⌉₊ ≤ k.succ by rw [hk, cisTerms]; omega)
    linarith)
  rw [← cisSum_eq, hn, Complex.exp_mul_I, ← Complex.ofReal_cos, ← Complex.ofReal_sin] at hb
  have hr : |(q : ℝ)| ^ k / (k.factorial : ℝ) * 2 = ((cisRad q k : ℚ) : ℝ) := by simp [cisRad]
  rw [hr] at hb
  constructor
  · simpa only [Complex.sub_re, Complex.add_re, Complex.mul_re, Complex.ofReal_re, Complex.ofReal_im, Complex.I_re,
      Complex.I_im, mul_zero, zero_mul, sub_zero, add_zero] using (Complex.abs_re_le_norm _).trans hb
  · simpa only [Complex.sub_im, Complex.add_im, Complex.mul_im, Complex.ofReal_re, Complex.ofReal_im, Complex.I_re,
      Complex.I_im, mul_one, mul_zero, zero_add, add_zero] using (Complex.abs_im_le_norm _).trans hb

theorem Ball.Has.cos {a : Ball} {x : ℝ} (ha : a.Has x) (n : Nat) : (a.cos n).Has (Real.cos x) := by
  simp only [Ball.Has, Ball.cos, Rat.cast_add]
  refine (abs_sub_le _ (Real.cos a.mid) _).trans (add_le_add ((Real.abs_cos_sub_cos_le _ _).trans ha) ?_)
  exact (cisSum_bound a.mid n).1

theorem Ball.Has.sin {a : Ball} {x : ℝ} (ha : a.Has x) (n : Nat) : (a.sin n).Has (Real.sin x) := by
  simp only [Ball.Has, Ball.sin, Rat.cast_add]
  refine (abs_sub_le _ (Real.sin a.mid) _).trans (add_le_add ((Real.abs_sin_sub_sin_le _ _).trans ha) ?_)
  exact (cisSum_bound a.mid n).2

/-! Enclosures -/

/-- Every ball of the sequence holds `x`, and they narrow to nothing. -/
structure Encloses (f : Nat → Ball) (x : ℝ) : Prop where
  has : ∀ n, (f n).Has x
  narrows : Tendsto (fun n => ((f n).rad : ℝ)) atTop (𝓝 0)

theorem Encloses.mid_tendsto {f : Nat → Ball} {x : ℝ} (h : Encloses f x) :
    Tendsto (fun n => ((f n).mid : ℝ)) atTop (𝓝 x) := by
  rw [tendsto_iff_dist_tendsto_zero]
  refine squeeze_zero (fun _ => dist_nonneg) (fun n => ?_) h.narrows
  rw [dist_comm, Real.dist_eq]
  exact h.has n

theorem Encloses.point (q : ℚ) : Encloses (fun _ => ⟨q, 0⟩) q :=
  ⟨fun _ => Ball.has_point q, by simp⟩

theorem Encloses.add {f g : Nat → Ball} {x y : ℝ} (hf : Encloses f x) (hg : Encloses g y) :
    Encloses (fun n => (f n).add (g n)) (x + y) :=
  ⟨fun n => (hf.has n).add (hg.has n), by simpa [Ball.add] using hf.narrows.add hg.narrows⟩

theorem Encloses.neg {f : Nat → Ball} {x : ℝ} (hf : Encloses f x) : Encloses (fun n => (f n).neg) (-x) :=
  ⟨fun n => (hf.has n).neg, hf.narrows⟩

theorem Encloses.mul {f g : Nat → Ball} {x y : ℝ} (hf : Encloses f x) (hg : Encloses g y) :
    Encloses (fun n => (f n).mul (g n)) (x * y) := by
  refine ⟨fun n => (hf.has n).mul (hg.has n), ?_⟩
  have := ((hf.mid_tendsto.abs.mul hg.narrows).add (hg.mid_tendsto.abs.mul hf.narrows)).add (hf.narrows.mul hg.narrows)
  simpa [Ball.mul] using this

/-- The remainder bound of the power series goes to 0 along any bounded centres. -/
theorem cisRad_tendsto {m : Nat → ℚ} {x : ℝ} (h : Tendsto (fun n => (m n : ℝ)) atTop (𝓝 x)) :
    Tendsto (fun n => ((cisRad (m n) (cisTerms (m n) n) : ℚ) : ℝ)) atTop (𝓝 0) := by
  have hk : Tendsto (fun n => cisTerms (m n) n) atTop atTop :=
    tendsto_atTop_mono (fun n => Nat.le_add_right n _) tendsto_id
  have hB : Tendsto (fun n => (|x| + 1) ^ cisTerms (m n) n / ((cisTerms (m n) n).factorial : ℝ) * 2) atTop (𝓝 0) := by
    simpa using ((FloorSemiring.tendsto_pow_div_factorial_atTop (|x| + 1)).comp hk).mul_const 2
  have hle : ∀ᶠ n in atTop, |(m n : ℝ)| ≤ |x| + 1 :=
    (h.abs.eventually (gt_mem_nhds (lt_add_one |x|))).mono fun _ h => h.le
  refine squeeze_zero' (Eventually.of_forall fun n => ?_) (hle.mono fun n hn => ?_) hB
  · exact_mod_cast (by unfold cisRad; positivity : (0 : ℚ) ≤ cisRad (m n) (cisTerms (m n) n))
  · simp only [cisRad, Rat.cast_mul, Rat.cast_div, Rat.cast_pow, Rat.cast_abs, Rat.cast_natCast, Rat.cast_ofNat]
    gcongr

theorem Encloses.cos {f : Nat → Ball} {x : ℝ} (hf : Encloses f x) :
    Encloses (fun n => (f n).cos n) (Real.cos x) :=
  ⟨fun n => (hf.has n).cos n, by simpa [Ball.cos] using hf.narrows.add (cisRad_tendsto hf.mid_tendsto)⟩

theorem Encloses.sin {f : Nat → Ball} {x : ℝ} (hf : Encloses f x) :
    Encloses (fun n => (f n).sin n) (Real.sin x) :=
  ⟨fun n => (hf.has n).sin n, by simpa [Ball.sin] using hf.narrows.add (cisRad_tendsto hf.mid_tendsto)⟩

/-- The inverse of a number other than 0: from some enclosure on, the first one off 0 is the next one. -/
theorem Encloses.inv {f : Nat → Ball} {x : ℝ} (hf : Encloses f x) :
    Encloses
      (fun n => match searchFrom (fun m => (f m).off0?) n with
        | some b => b.inv
        | none => ⟨0, 0⟩) x⁻¹ := by
  have off : ∀ {m : Nat} {b : Ball}, (f m).off0? = some b → b = f m ∧ ((f m).rad : ℝ) < |((f m).mid : ℝ)| := by
    intro m b h
    unfold Ball.off0? at h
    split at h
    · next hlt => exact ⟨(Option.some.inj h).symm, by exact_mod_cast hlt⟩
    · cases h
  by_cases hx : x = 0
  · -- no enclosure of 0 is off 0
    have none : ∀ n, searchFrom (fun m => (f m).off0?) n = none := by
      intro n
      by_contra hne
      obtain ⟨b, hb⟩ := Option.ne_none_iff_exists'.mp hne
      obtain ⟨m, -, hm⟩ := searchFrom_sound hb
      have h0 := hf.has m
      rw [hx, Ball.Has, zero_sub, abs_neg] at h0
      exact absurd (off hm).2 (not_lt.mpr h0)
    subst hx
    simp only [none, inv_zero]
    simpa using Encloses.point 0
  · have hev : ∀ᶠ n in atTop, ((f n).rad : ℝ) < |((f n).mid : ℝ)| :=
      hf.narrows.eventually_lt hf.mid_tendsto.abs (abs_pos.mpr hx)
    refine ⟨fun n => ?_, ?_⟩
    · obtain ⟨N, hN⟩ := eventually_atTop.mp hev
      have hfind : (f (n + N)).off0? = some (f (n + N)) :=
        if_pos (by exact_mod_cast hN (n + N) (Nat.le_add_left N n))
      obtain ⟨b, hb⟩ := searchFrom_complete (f := fun m => (f m).off0?) n N hfind
      obtain ⟨m, -, hm⟩ := searchFrom_sound hb
      obtain ⟨rfl, hlt⟩ := off hm
      simp only [hb]
      exact (hf.has m).inv hlt
    · have hlim : Tendsto (fun n => ((f n).inv.rad : ℝ)) atTop (𝓝 0) := by
        have := hf.narrows.div (hf.mid_tendsto.abs.mul (hf.mid_tendsto.abs.sub hf.narrows)) (by simpa using hx)
        rw [zero_div] at this
        exact this.congr fun n => by simp [Ball.inv]
      refine hlim.congr' (hev.mono fun n hn => ?_)
      have : (f n).off0? = some (f n) := if_pos (by exact_mod_cast hn)
      simp only [searchFrom_of_some (f := fun m => (f m).off0?) this]

/-! The leaves -/

theorem Encloses.arctan {q : ℚ} (h0 : 0 < q) (h1 : q < 1) : Encloses (arctanBall q) (Real.arctan q) := by
  have q0 : (0 : ℝ) < q := by exact_mod_cast h0
  have q1 : (q : ℝ) < 1 := by exact_mod_cast h1
  have hr : ((q : ℝ) ^ 2) < 1 := pow_lt_one₀ q0.le q1 two_ne_zero
  have hsum : ∀ n, ((arctanSum q n : ℚ) : ℝ) =
      ∑ i ∈ Finset.range n, (-1) ^ i * (q : ℝ) ^ (2 * i + 1) / ((2 * i + 1 : ℕ) : ℝ) := by
    intro n
    induction n with
    | zero => simp [arctanSum]
    | succ n ih =>
      rw [Finset.sum_range_succ, ← ih, arctanSum]
      push_cast
      ring
  have hlim : Tendsto (fun n => ((arctanSum q n : ℚ) : ℝ)) atTop (𝓝 (Real.arctan q)) := by
    simp only [hsum]
    exact (Real.hasSum_arctan (by rwa [Real.norm_of_nonneg q0.le])).tendsto_sum_nat
  refine ⟨fun n => ?_, ?_⟩
  · have := dist_le_of_le_geometric_of_tendsto ((q : ℝ) ^ 2) q hr (fun n => ?_) hlim n
    · rw [dist_comm, Real.dist_eq] at this
      simpa [Ball.Has, arctanBall] using this
    · rw [arctanSum, Rat.cast_add, dist_self_add_right, Real.norm_eq_abs]
      push_cast
      rw [abs_div, abs_mul, abs_pow, abs_neg, abs_one, one_pow, one_mul, abs_of_pos (pow_pos q0 _),
        abs_of_pos (by positivity : (0 : ℝ) < 2 * n + 1), pow_succ, pow_mul, mul_comm]
      exact div_le_self (by positivity) (by linarith [(Nat.cast_nonneg n : (0 : ℝ) ≤ n)])
  · have := ((tendsto_pow_atTop_nhds_zero_of_lt_one (sq_nonneg (q : ℝ)) hr).const_mul (q : ℝ)).div_const (1 - (q : ℝ) ^ 2)
    simpa [arctanBall] using this

theorem Encloses.pi : Encloses piBall Real.pi := by
  have h := ((Encloses.point 16).mul (Encloses.arctan (q := 1 / 5) (by norm_num) (by norm_num))).add
    ((Encloses.point (-4)).mul (Encloses.arctan (q := 1 / 239) (by norm_num) (by norm_num)))
  have hpi := Real.four_mul_arctan_inv_5_sub_arctan_inv_239
  rw [show ((1 / 5 : ℚ) : ℝ) = 5⁻¹ by norm_num, show ((1 / 239 : ℚ) : ℝ) = 239⁻¹ by norm_num] at h
  rwa [show ((16 : ℚ) : ℝ) * Real.arctan 5⁻¹ + ((-4 : ℚ) : ℝ) * Real.arctan 239⁻¹ = Real.pi by push_cast; linarith] at h

theorem Encloses.named (code : Nat) : Encloses (fun n => ⟨namedSum code n, (1 / 2) ^ n⟩) (namedVal code) := by
  have hsum : ∀ n, ((namedSum code n : ℚ) : ℝ) =
      Config.realInt code + ∑ i ∈ Finset.range n, if Config.realDigit code i then (1 / 2 : ℝ) ^ (i + 1) else 0 := by
    intro n
    induction n with
    | zero => simp [namedSum]
    | succ n ih =>
      rw [Finset.sum_range_succ, ← add_assoc, ← ih, namedSum]
      push_cast
      split <;> simp
  have hdigit : ∀ i, ‖(if Config.realDigit code i then (1 / 2 : ℝ) ^ (i + 1) else 0)‖ ≤ (1 / 2 : ℝ) ^ i := by
    intro i
    split
    · rw [Real.norm_of_nonneg (by positivity)]
      exact pow_le_pow_of_le_one (by norm_num) (by norm_num) (Nat.le_succ i)
    · simp
  have hlim : Tendsto (fun n => ((namedSum code n : ℚ) : ℝ)) atTop (𝓝 (namedVal code)) := by
    simp only [hsum, namedVal]
    exact ((Summable.of_norm_bounded (summable_geometric_two) hdigit).hasSum.tendsto_sum_nat).const_add _
  refine ⟨fun n => ?_, by simpa using tendsto_pow_atTop_nhds_zero_of_lt_one (r := (1 / 2 : ℝ)) (by norm_num) (by norm_num)⟩
  have := dist_le_of_le_geometric_of_tendsto (1 / 2 : ℝ) (1 / 2) (by norm_num) (fun n => ?_) hlim n
  · rw [dist_comm, Real.dist_eq] at this
    refine this.trans (le_of_eq ?_)
    push_cast
    ring
  · rw [namedSum, Rat.cast_add, dist_self_add_right, Real.norm_eq_abs, ← pow_succ']
    split
    · push_cast
      rw [abs_of_nonneg (by positivity)]
    · simp

theorem Encloses.terms (ts : List TrigTerm) : Encloses (fun n => TrigTerm.ballSum n ts) (TrigTerm.sumVal ts) := by
  induction ts with
  | nil => simpa [TrigTerm.ballSum] using Encloses.point 0
  | cons t ts ih =>
    exact (((Encloses.point t.cosC).mul (Encloses.point t.angle).cos).add
      ((Encloses.point t.sinC).mul (Encloses.point t.angle).sin)).add ih

/-- The enclosures of a number hold it and narrow to it. -/
theorem RealNum.encloses : ∀ a : RealNum, Encloses a.ball a.val
  | .exact e => (Encloses.point e.rat).add (Encloses.terms e.trig)
  | .pi => Encloses.pi
  | .named code => Encloses.named code
  | .add a b => a.encloses.add b.encloses
  | .neg a => a.encloses.neg
  | .mul a b => a.encloses.mul b.encloses
  | .inv a => a.encloses.inv
  | .cos a => a.encloses.cos
  | .sin a => a.encloses.sin

/-! The operations -/

@[simp] theorem RealNum.val_exact (e : Exact) : (RealNum.exact e).val = e.val := rfl
theorem RealNum.val_ofRat (q : ℚ) : (RealNum.ofRat q).val = q := by simp

/-- What reads as a rational is written as one. -/
theorem RealNum.eq_of_rat? {a : RealNum} {q : ℚ} (h : a.rat? = some q) : a = .ofRat q := by
  cases a with
  | exact e => rw [Exact.eq_of_rat? (show e.rat? = some q from h)]
  | _ => cases h

@[simp] theorem RealNum.val_plus (a b : RealNum) : (a.plus b).val = a.val + b.val := by
  cases a <;> cases b <;> first | exact Exact.val_add _ _ | rfl

@[simp] theorem RealNum.val_negate (a : RealNum) : a.negate.val = -a.val := by
  cases a <;> first | exact Exact.val_neg _ | rfl

@[simp] theorem RealNum.val_minus (a b : RealNum) : (a.minus b).val = a.val - b.val := by
  rw [minus, val_plus, val_negate, sub_eq_add_neg]

@[simp] theorem RealNum.val_times (a b : RealNum) : (a.times b).val = a.val * b.val := by
  cases a <;> cases b <;> first | exact Exact.val_mul _ _ | rfl

@[simp] theorem RealNum.val_recip (a : RealNum) : a.recip.val = a.val⁻¹ := by
  unfold recip
  split
  · next q h => rw [eq_of_rat? h]; simp
  · rfl

@[simp] theorem RealNum.val_quotient (a b : RealNum) : (a.quotient b).val = a.val / b.val := by
  rw [quotient, val_times, val_recip, div_eq_mul_inv]

@[simp] theorem RealNum.val_cosine (a : RealNum) : a.cosine.val = Real.cos a.val := by
  unfold cosine
  split
  · next q h => rw [eq_of_rat? h]; simp
  · rfl

@[simp] theorem RealNum.val_sine (a : RealNum) : a.sine.val = Real.sin a.val := by
  unfold sine
  split
  · next q h => rw [eq_of_rat? h]; simp
  · rfl

/-! Sign, integer part and rounding -/

theorem sign_ratCast (q : ℚ) : SignType.sign (q : ℝ) = SignType.sign q := by
  rcases lt_trichotomy q 0 with h | rfl | h
  · rw [sign_neg h, sign_neg (by exact_mod_cast h)]
  · simp
  · rw [sign_pos h, sign_pos (by exact_mod_cast h)]

/-- The sign of a ball is that of every number it has. -/
theorem Ball.Has.sign_eq {b : Ball} {x : ℝ} (hb : b.Has x) {g : SignType} (h : b.sign? = some g) :
    SignType.sign x = g := by
  have := abs_le.mp hb
  unfold Ball.sign? at h
  split at h
  · next hlt =>
    have : (b.rad : ℝ) < b.mid := by exact_mod_cast hlt
    rw [sign_pos (by linarith), ← Option.some.inj h]
  · split at h
    · next hlt =>
      have : (b.mid : ℝ) < -b.rad := by exact_mod_cast hlt
      rw [sign_neg (by linarith), ← Option.some.inj h]
    · cases h

/-- A number other than 0 has an enclosure off 0. -/
theorem Encloses.sign_isSome {f : Nat → Ball} {x : ℝ} (hf : Encloses f x) (hx : x ≠ 0) :
    ∃ n g, (f n).sign? = some g := by
  have hev : ∀ᶠ n in atTop, ((f n).rad : ℝ) < |((f n).mid : ℝ)| :=
    hf.narrows.eventually_lt hf.mid_tendsto.abs (abs_pos.mpr hx)
  obtain ⟨n, hn⟩ := hev.exists
  refine ⟨n, ?_⟩
  unfold Ball.sign?
  split
  · exact ⟨_, rfl⟩
  · next h1 =>
    have hm : (f n).mid < -(f n).rad := by
      rcases lt_abs.mp (show (f n).rad < |(f n).mid| by exact_mod_cast hn) with h | h
      · exact absurd h h1
      · linarith
    exact ⟨_, if_pos hm⟩

/-- The sign of a number is the sign of the real number. -/
theorem RealNum.sign_eq (a : RealNum) : a.sign = SignType.sign a.val := by
  unfold sign
  split
  · next q h => rw [eq_of_rat? h, val_ofRat, sign_ratCast]
  · cases h : searchFrom (fun n => (a.ball n).sign?) 0 with
    | some g =>
      obtain ⟨m, -, hm⟩ := searchFrom_sound h
      exact ((a.encloses.has m).sign_eq hm).symm
    | none =>
      by_cases hx : a.val = 0
      · simp [hx]
      · obtain ⟨n, g, hn⟩ := a.encloses.sign_isSome hx
        obtain ⟨b, hb⟩ := searchFrom_complete (f := fun n => (a.ball n).sign?) 0 n (by rwa [Nat.zero_add])
        rw [hb] at h
        cases h

theorem RealNum.sign_eq_one (a : RealNum) : a.sign = 1 ↔ 0 < a.val := by rw [sign_eq, sign_eq_one_iff]
theorem RealNum.sign_eq_zero (a : RealNum) : a.sign = 0 ↔ a.val = 0 := by rw [sign_eq, sign_eq_zero_iff]
theorem RealNum.sign_eq_neg_one (a : RealNum) : a.sign = -1 ↔ a.val < 0 := by rw [sign_eq, sign_eq_neg_one_iff]

/-- `nearInt` is less than 1 away. -/
theorem RealNum.nearInt_bound (a : RealNum) : |a.val - a.nearInt| < 1 := by
  obtain ⟨n, hn⟩ := (a.encloses.narrows.eventually (gt_mem_nhds (show (0 : ℝ) < 1 / 4 by norm_num))).exists
  have hs : (a.ball n).nearInt? = some ⌊(a.ball n).mid + 1 / 2⌋ := if_pos (by
    have : (((a.ball n).rad : ℚ) : ℝ) < ((1 / 4 : ℚ) : ℝ) := by push_cast; exact hn
    exact_mod_cast this)
  obtain ⟨k, hk⟩ := searchFrom_complete (f := fun n => (a.ball n).nearInt?) 0 n (by rwa [Nat.zero_add])
  obtain ⟨m, -, hm⟩ := searchFrom_sound hk
  have he : a.nearInt = k := by rw [nearInt, hk]; rfl
  simp only [Ball.nearInt?] at hm
  split at hm
  · next hr =>
    have hb := abs_le.mp (a.encloses.has m)
    have hr' : ((a.ball m).rad : ℝ) < 1 / 4 := by
      have : (((a.ball m).rad : ℚ) : ℝ) < ((1 / 4 : ℚ) : ℝ) := by exact_mod_cast hr
      push_cast at this
      exact this
    have h1 : ((k : ℚ) : ℝ) ≤ (((a.ball m).mid + 1 / 2 : ℚ) : ℝ) := by
      rw [← Option.some.inj hm]
      exact_mod_cast Int.floor_le _
    have h2 : (((a.ball m).mid + 1 / 2 : ℚ) : ℝ) < ((k + 1 : ℚ) : ℝ) := by
      rw [← Option.some.inj hm]
      exact_mod_cast Int.lt_floor_add_one ((a.ball m).mid + 1 / 2)
    push_cast at h1 h2
    rw [he, abs_lt]
    constructor <;> linarith
  · cases hm

/-- `floor` is that of the real number. -/
theorem RealNum.floor_eq (a : RealNum) : a.floor = ⌊a.val⌋ := by
  unfold floor
  split
  · next q h =>
    rw [eq_of_rat? h, val_ofRat, Rat.floor_cast]
  · have hb := abs_lt.mp a.nearInt_bound
    have hv : (a.minus (.ofRat a.nearInt)).val = a.val - a.nearInt := by simp
    split
    · next h =>
      rw [sign_eq_neg_one, hv] at h
      refine (Int.floor_eq_iff.mpr ⟨?_, ?_⟩).symm <;> push_cast <;> linarith
    · next h =>
      rw [sign_eq_neg_one, hv, not_lt] at h
      refine (Int.floor_eq_iff.mpr ⟨?_, ?_⟩).symm <;> linarith

/-- `round_half_away` of the real number (`00_scope.md` R8). -/
theorem RealNum.round_eq (a : RealNum) :
    a.round = if 0 ≤ a.val then ⌊a.val + 1 / 2⌋ else -⌊-a.val + 1 / 2⌋ := by
  simp only [round, sign_eq_neg_one, floor_eq, val_plus, val_negate, val_ofRat]
  push_cast
  split_ifs <;> first | rfl | (exfalso; linarith)

/-- `trunc` of the real number (R8). -/
theorem RealNum.trunc_eq (a : RealNum) : a.trunc = if 0 ≤ a.val then ⌊a.val⌋ else ⌈a.val⌉ := by
  simp only [trunc, sign_eq_neg_one, floor_eq, val_negate, Int.floor_neg, neg_neg]
  split_ifs <;> first | rfl | (exfalso; linarith)

end Sys2Proof
end

