-- ==== Sys2Proof/Laws/Num.lean ====
section
/-!
SUPPORT. The operations of `Num`: on real numbers they are the real ones, they keep numbers well formed, and on rationals
they are the rational ones.
-/
namespace Sys2Proof

/-! Well-formedness -/

theorem RealNum.wf_ofRat (q : ℚ) : (RealNum.ofRat q).wf = true := rfl

theorem RealNum.wf_plus {a b : RealNum} (wa : a.wf = true) (wb : b.wf = true) : (a.plus b).wf = true := by
  cases a <;> cases b <;> first | exact Exact.wf_add _ wa | exact Bool.and_eq_true_iff.mpr ⟨wa, wb⟩

theorem RealNum.wf_negate {a : RealNum} (wa : a.wf = true) : a.negate.wf = true := by
  cases a <;> first | exact Exact.wf_neg _ | exact wa

theorem RealNum.wf_minus {a b : RealNum} (wa : a.wf = true) (wb : b.wf = true) : (a.minus b).wf = true :=
  RealNum.wf_plus wa (RealNum.wf_negate wb)

theorem RealNum.wf_times {a b : RealNum} (wa : a.wf = true) (wb : b.wf = true) : (a.times b).wf = true := by
  cases a <;> cases b <;> first | exact Exact.wf_mul _ _ | exact Bool.and_eq_true_iff.mpr ⟨wa, wb⟩

theorem RealNum.wf_quotient {a b : RealNum} (wa : a.wf = true) (wb : b.wf = true) (h : b.sign ≠ 0) :
    (a.quotient b).wf = true := by
  refine RealNum.wf_times wa ?_
  unfold RealNum.recip
  split
  · rfl
  · exact Bool.and_eq_true_iff.mpr ⟨wb, bne_iff_ne.mpr h⟩

theorem RealNum.wf_cosine {a : RealNum} (wa : a.wf = true) : a.cosine.wf = true := by
  unfold RealNum.cosine
  split
  · exact Exact.wf_cos _
  · exact wa

theorem RealNum.wf_sine {a : RealNum} (wa : a.wf = true) : a.sine.wf = true := by
  unfold RealNum.sine
  split
  · exact Exact.wf_sin _
  · exact wa

theorem NumVal.wf_ofRat (q : ℚ) : (NumVal.ofRat q).wf = true := rfl

theorem addN_wf {a b : NumVal} (wa : a.wf = true) (wb : b.wf = true) : (addN a b).wf = true := by
  cases a <;> cases b <;> first | rfl | exact RealNum.wf_plus wa wb

theorem subN_wf {a b : NumVal} (wa : a.wf = true) (wb : b.wf = true) : (subN a b).wf = true := by
  cases a <;> cases b <;> first | rfl | exact RealNum.wf_minus wa wb

theorem mulN_wf {a b : NumVal} (wa : a.wf = true) (wb : b.wf = true) : (mulN a b).wf = true := by
  cases a <;> cases b <;> first | rfl | exact RealNum.wf_times wa wb

theorem divN_wf {a b : NumVal} (wa : a.wf = true) (wb : b.wf = true) : (divN a b).wf = true := by
  unfold divN
  split
  · split
    · rfl
    · next h => exact RealNum.wf_quotient wa wb h
  · rfl

theorem negN_wf {a : NumVal} (wa : a.wf = true) : (negN a).wf = true := by
  cases a <;> first | rfl | exact RealNum.wf_negate wa

theorem cosN_wf {a : NumVal} (wa : a.wf = true) : (cosN a).wf = true := by
  cases a <;> first | rfl | exact RealNum.wf_cosine wa

theorem sinN_wf {a : NumVal} (wa : a.wf = true) : (sinN a).wf = true := by
  cases a <;> first | rfl | exact RealNum.wf_sine wa

/-! On real numbers -/

@[simp] theorem addN_real (a b : RealNum) : addN (.real a) (.real b) = .real (a.plus b) := rfl
@[simp] theorem subN_real (a b : RealNum) : subN (.real a) (.real b) = .real (a.minus b) := rfl
@[simp] theorem mulN_real (a b : RealNum) : mulN (.real a) (.real b) = .real (a.times b) := rfl
@[simp] theorem negN_real (a : RealNum) : negN (.real a) = .real a.negate := rfl
@[simp] theorem cosN_real (a : RealNum) : cosN (.real a) = .real a.cosine := rfl
@[simp] theorem sinN_real (a : RealNum) : sinN (.real a) = .real a.sine := rfl
@[simp] theorem roundHalfAway_real (a : RealNum) : roundHalfAway (.real a) = a.round := rfl
@[simp] theorem truncN_real (a : RealNum) : truncN (.real a) = a.trunc := rfl

theorem divN_real (a : RealNum) {b : RealNum} (h : b.val ≠ 0) : divN (.real a) (.real b) = .real (a.quotient b) :=
  if_neg fun hs => h (b.sign_eq_zero.mp hs)

theorem ltN_real (a b : RealNum) : ltN (.real a) (.real b) = true ↔ a.val < b.val := by
  simp [ltN, RealNum.sign_eq_one]

theorem eqN_real (a b : RealNum) : eqN (.real a) (.real b) = true ↔ a.val = b.val := by
  rw [eqN, decide_eq_true_eq, RealNum.sign_eq_zero, RealNum.val_minus, sub_eq_zero, eq_comm]

theorem leN_real (a b : RealNum) : leN (.real a) (.real b) = true ↔ a.val ≤ b.val := by
  rw [leN, Bool.or_eq_true, ltN_real, eqN_real, le_iff_lt_or_eq]

/-! What the results are -/

theorem NumVal.denotes_real (a : RealNum) : (NumVal.real a).Denotes a.val := ⟨a, rfl, rfl⟩
theorem NumVal.denotes_ofRat (q : ℚ) : (NumVal.ofRat q).Denotes q := ⟨_, rfl, by simp⟩

/-- A number is one real number. -/
theorem NumVal.Denotes.unique {a : NumVal} {x y : ℝ} (hx : a.Denotes x) (hy : a.Denotes y) : x = y := by
  obtain ⟨e, rfl, rfl⟩ := hx
  obtain ⟨f, hf, rfl⟩ := hy
  rw [NumVal.real.inj hf]

section
variable {a b : NumVal} {x y : ℝ}

theorem addN_denotes (ha : a.Denotes x) (hb : b.Denotes y) : (addN a b).Denotes (x + y) := by
  obtain ⟨e, rfl, rfl⟩ := ha
  obtain ⟨f, rfl, rfl⟩ := hb
  exact ⟨_, rfl, e.val_plus f⟩

theorem subN_denotes (ha : a.Denotes x) (hb : b.Denotes y) : (subN a b).Denotes (x - y) := by
  obtain ⟨e, rfl, rfl⟩ := ha
  obtain ⟨f, rfl, rfl⟩ := hb
  exact ⟨_, rfl, e.val_minus f⟩

theorem mulN_denotes (ha : a.Denotes x) (hb : b.Denotes y) : (mulN a b).Denotes (x * y) := by
  obtain ⟨e, rfl, rfl⟩ := ha
  obtain ⟨f, rfl, rfl⟩ := hb
  exact ⟨_, rfl, e.val_times f⟩

theorem divN_denotes (ha : a.Denotes x) (hb : b.Denotes y) (h : y ≠ 0) : (divN a b).Denotes (x / y) := by
  obtain ⟨e, rfl, rfl⟩ := ha
  obtain ⟨f, rfl, rfl⟩ := hb
  exact ⟨_, divN_real e h, e.val_quotient f⟩

theorem negN_denotes (ha : a.Denotes x) : (negN a).Denotes (-x) := by
  obtain ⟨e, rfl, rfl⟩ := ha
  exact ⟨_, rfl, e.val_negate⟩

theorem cosN_denotes (ha : a.Denotes x) : (cosN a).Denotes (Real.cos x) := by
  obtain ⟨e, rfl, rfl⟩ := ha
  exact ⟨_, rfl, e.val_cosine⟩

theorem sinN_denotes (ha : a.Denotes x) : (sinN a).Denotes (Real.sin x) := by
  obtain ⟨e, rfl, rfl⟩ := ha
  exact ⟨_, rfl, e.val_sine⟩

theorem ltN_denotes (ha : a.Denotes x) (hb : b.Denotes y) : ltN a b = true ↔ x < y := by
  obtain ⟨e, rfl, rfl⟩ := ha
  obtain ⟨f, rfl, rfl⟩ := hb
  exact ltN_real e f

theorem eqN_denotes (ha : a.Denotes x) (hb : b.Denotes y) : eqN a b = true ↔ x = y := by
  obtain ⟨e, rfl, rfl⟩ := ha
  obtain ⟨f, rfl, rfl⟩ := hb
  exact eqN_real e f

theorem leN_denotes (ha : a.Denotes x) (hb : b.Denotes y) : leN a b = true ↔ x ≤ y := by
  obtain ⟨e, rfl, rfl⟩ := ha
  obtain ⟨f, rfl, rfl⟩ := hb
  exact leN_real e f

end

/-! On rationals -/

@[simp] theorem RealNum.rat?_ofRat (q : ℚ) : (RealNum.ofRat q).rat? = some q := rfl
@[simp] theorem RealNum.plus_ofRat (p q : ℚ) : (RealNum.ofRat p).plus (.ofRat q) = .ofRat (p + q) := rfl
@[simp] theorem RealNum.negate_ofRat (p : ℚ) : (RealNum.ofRat p).negate = .ofRat (-p) := by simp [RealNum.negate]
@[simp] theorem RealNum.minus_ofRat (p q : ℚ) : (RealNum.ofRat p).minus (.ofRat q) = .ofRat (p - q) := by
  rw [RealNum.minus, RealNum.negate_ofRat, RealNum.plus_ofRat, sub_eq_add_neg]
@[simp] theorem RealNum.times_ofRat (p q : ℚ) : (RealNum.ofRat p).times (.ofRat q) = .ofRat (p * q) := rfl
@[simp] theorem RealNum.quotient_ofRat (p q : ℚ) : (RealNum.ofRat p).quotient (.ofRat q) = .ofRat (p / q) := by
  rw [RealNum.quotient, RealNum.recip, RealNum.rat?_ofRat, RealNum.times_ofRat, div_eq_mul_inv]
@[simp] theorem RealNum.cosine_ofRat (q : ℚ) : (RealNum.ofRat q).cosine = .exact (Exact.cos q) := rfl
@[simp] theorem RealNum.sine_ofRat (q : ℚ) : (RealNum.ofRat q).sine = .exact (Exact.sin q) := rfl

theorem divN_ofRat (p : ℚ) {q : ℚ} (h : q ≠ 0) : divN (.ofRat p) (.ofRat q) = .ofRat (p / q) := by
  rw [divN_real _ (by simpa using h), RealNum.quotient_ofRat]

theorem ltN_ofRat (p q : ℚ) : ltN (.ofRat p) (.ofRat q) = decide (p < q) := by
  rw [Bool.eq_iff_iff, ltN_real]; simp

theorem eqN_ofRat (p q : ℚ) : eqN (.ofRat p) (.ofRat q) = decide (p = q) := by
  rw [Bool.eq_iff_iff, eqN_real]; simp

end Sys2Proof
end

