-- ==== Sys2Proof/Laws/Motion.lean ====
section
/-! SUPPORT. The integrator's and the mixer's formulas on real operands: what real numbers they give. -/
namespace Sys2Proof.Machine

open Sys2Proof

theorem wheelDist_denotes {s : State} {t : ℝ} (h : s.cfg.ticksPerMeter.Denotes t) (hn : t ≠ 0) (new last : Word) :
    (wheelDist s new last).Denotes ((tickDelta s.par.tickDeltaMode new last : ℝ) / t) := by
  have := divN_denotes (NumVal.denotes_ofRat (tickDelta s.par.tickDeltaMode new last : ℚ)) h hn
  rwa [Rat.cast_intCast] at this

theorem centreDist_denotes {a b : NumVal} {x y : ℝ} (ha : a.Denotes x) (hb : b.Denotes y) :
    (centreDist a b).Denotes ((x + y) / 2) := by
  have := divN_denotes (addN_denotes ha hb) (NumVal.denotes_ofRat 2) (by norm_num)
  rwa [Rat.cast_ofNat] at this

theorem headingDelta_denotes {w a b : NumVal} {base x y : ℝ} (hw : w.Denotes base) (h : base ≠ 0) (ha : a.Denotes x)
    (hb : b.Denotes y) : (headingDelta w a b).Denotes ((y - x) / base) :=
  divN_denotes (subN_denotes hb ha) hw h

/-- A velocity, with no division where no time has passed (`42_odometry.md` R223). -/
theorem velocityOf_denotes {a b : NumVal} {e q : ℝ} (ha : a.Denotes e) (hb : b.Denotes q) :
    (velocityOf a b).Denotes (if e ≤ 0 then 0 else q / e) := by
  have h0 := NumVal.denotes_ofRat 0
  have hle := leN_denotes ha h0
  push_cast at hle h0
  unfold velocityOf
  by_cases h : e ≤ 0
  · rw [if_pos h, if_pos (hle.mpr h)]
    exact h0
  · rw [if_neg h, if_neg (h ∘ hle.mp)]
    exact divN_denotes hb ha fun h0 => h h0.le

/-- The heading turns by `y` (`42_odometry.md` R225). -/
theorem turn_denotes {a b : NumVal} {x y : ℝ} (ha : a.Denotes x) (hb : b.Denotes y) : (turn a b).Denotes (x + y) := by
  have heq := eqN_denotes hb (NumVal.denotes_ofRat 0)
  push_cast at heq
  unfold turn
  split
  · next h => rwa [heq.mp h, add_zero]
  · exact addN_denotes ha hb

/-- No change of heading, the same register (`42_odometry.md` R225). -/
theorem turn_zero (a : NumVal) {b : NumVal} (hb : b.Denotes 0) : turn a b = a :=
  if_pos ((eqN_denotes hb (NumVal.denotes_ofRat 0)).mpr (by simp))

/-- No distance, no change of place (`42_odometry.md` R224). -/
theorem translatePose_zero (theta dtheta x y : NumVal) {dist : NumVal} (h : dist.Denotes 0) :
    translatePose theta dist dtheta x y = (x, y) :=
  if_pos ((eqN_denotes h (NumVal.denotes_ofRat 0)).mpr (by simp))

/-- The place after a distance `d` (`42_odometry.md` R224). -/
theorem translatePose_denotes {theta dist dtheta x y : NumVal} {t d dt px py : ℝ} (ht : theta.Denotes t)
    (hd : dist.Denotes d) (hdt : dtheta.Denotes dt) (hx : x.Denotes px) (hy : y.Denotes py) :
    (translatePose theta dist dtheta x y).1.Denotes
        (px + (Real.cos dt * d * Real.cos t - -(Real.sin dt * d) * Real.sin t)) ∧
      (translatePose theta dist dtheta x y).2.Denotes
        (py + (Real.cos dt * d * Real.sin t + -(Real.sin dt * d) * Real.cos t)) := by
  have heq := eqN_denotes hd (NumVal.denotes_ofRat 0)
  push_cast at heq
  have hdx := mulN_denotes (cosN_denotes hdt) hd
  have hdy := negN_denotes (mulN_denotes (sinN_denotes hdt) hd)
  have hc := cosN_denotes ht
  have hs := sinN_denotes ht
  unfold translatePose
  split
  · next h =>
    rw [heq.mp h]
    simpa using ⟨hx, hy⟩
  · exact ⟨addN_denotes hx (subN_denotes (mulN_denotes hdx hc) (mulN_denotes hdy hs)),
      addN_denotes hy (addN_denotes (mulN_denotes hdx hs) (mulN_denotes hdy hc))⟩

end Sys2Proof.Machine
end

