-- ==== Sys2Proof/Laws/PerInstr.lean ====
section
/-! SUPPORT. Statements about every operation as it is written, one lemma per constructor. -/
namespace Sys2Proof.Laws.SelectorInRange

/-- The selector of an operation is none of the reserved ones (`30_encoding.md` R109, R110). -/
def Statement (i : Instr) : Prop := (encode i).sel.toNat < 0x12

theorem readVersion : Statement .readVersion := by
  simp [Statement, encode, Instr.sel]
theorem readEncoderM1 : Statement .readEncoderM1 := by
  simp [Statement, encode, Instr.sel]
theorem readEncoderM2 : Statement .readEncoderM2 := by
  simp [Statement, encode, Instr.sel]
theorem readSpeedM1 : Statement .readSpeedM1 := by
  simp [Statement, encode, Instr.sel]
theorem readSpeedM2 : Statement .readSpeedM2 := by
  simp [Statement, encode, Instr.sel]
theorem readTemperature : Statement .readTemperature := by
  simp [Statement, encode, Instr.sel]
theorem readErrorState : Statement .readErrorState := by
  simp [Statement, encode, Instr.sel]
theorem readMainBatteryVoltage : Statement .readMainBatteryVoltage := by
  simp [Statement, encode, Instr.sel]
theorem readCurrents : Statement .readCurrents := by
  simp [Statement, encode, Instr.sel]
theorem readEncoderModes : Statement .readEncoderModes := by
  simp [Statement, encode, Instr.sel]
theorem resetEncoders : Statement .resetEncoders := by
  simp [Statement, encode, Instr.sel]
theorem setM1Constants (kd kp ki qpps : Word) : Statement (.setM1Constants kd kp ki qpps) := by
  simp [Statement, encode, Instr.sel]
theorem setM2Constants (kd kp ki qpps : Word) : Statement (.setM2Constants kd kp ki qpps) := by
  simp [Statement, encode, Instr.sel]
theorem setM1VelocityPID (kd kp ki : NumVal) (qpps : Word) : Statement (.setM1VelocityPID kd kp ki qpps) := by
  simp [Statement, encode, Instr.sel]
theorem setM2VelocityPID (kd kp ki : NumVal) (qpps : Word) : Statement (.setM2VelocityPID kd kp ki qpps) := by
  simp [Statement, encode, Instr.sel]
theorem setMixedSpeed (left right : NumVal) : Statement (.setMixedSpeed left right) := by
  simp [Statement, encode, Instr.sel]
theorem update (now : Option NumVal) (l r : Option Word) (lv rv : Bool) : Statement (.update now l r lv rv) := by
  simp [Statement, encode, Instr.sel]
theorem mix (a b c d : NumVal) : Statement (.mix a b c d) := by
  simp [Statement, encode, Instr.sel]

end Sys2Proof.Laws.SelectorInRange
end

