-- ==== Sys2Proof/Laws/Step.lean ====
section
/-! SUPPORT. What an operation's accept step and a step of the block can do. -/
namespace Sys2Proof.Machine

open Sys2Proof

/-- The integrator's registers after `Update`, where it is not skipped and not refused. -/
def UpdateRuns (i : Instr) (s t : State) : Prop :=
  ∃ now l r, i = .update (some now) (some l) (some r) true true ∧ now.isFinite = true ∧
    t = { s with odo := integrate s now l r }

/-- The mixer's latches after `Mix`, where it is not refused. -/
def MixRuns (i : Instr) (s t : State) : Prop :=
  ∃ a b c d, i = .mix a b c d ∧
    t = { s with mix := { mixLeft := some (mixLeftRate a b c d), mixRight := some (mixRightRate a b c d), mixReady := true } }

/-- The frame of an operation accepted: an opcode of the table and 0, 8 or 16 payload bytes. -/
def SendRuns (i : Instr) (s t : State) : Prop :=
  ∃ kind p shape, t = sendCommand i.sel (s.par.opc.get kind) p shape s ∧ p.length ≤ 16

/-- What the accept step of an operation can do (`41_operations.md` R170): not be accepted; send a frame; refuse;
integrate or skip; mix. -/
theorem exec_cases {i : Instr} {s t : State} (h : exec i s = .next t) :
    (s.phase ≠ .idle ∧ t = s) ∨
      (s.phase = .idle ∧
        (SendRuns i s t ∨ (∃ r, t = s.refuse r) ∨ UpdateRuns i s t ∨
          ((∃ now l r lv rv, i = .update now l r lv rv) ∧ t = s.skipUpdate) ∨ MixRuns i s t)) := by
  by_cases hp : s.phase = .idle
  swap
  · refine .inl ⟨hp, ?_⟩
    cases i <;> simp only [exec, execReadVersion, execReadEncoderM1, execReadEncoderM2, execReadSpeedM1, execReadSpeedM2,
      execReadTemperature, execReadErrorState, execReadMainBatteryVoltage, execReadCurrents, execReadEncoderModes,
      execResetEncoders, execSetM1Constants, execSetM2Constants, execSetM1VelocityPID, execSetM2VelocityPID,
      execSetMixedSpeed, execUpdate, execMix, setConstants, setVelocityPid, startWire, accept_busy hp] at h
    case setM1VelocityPID | setM2VelocityPID | setMixedSpeed => split at h <;> (cases h; rfl)
    all_goals (cases h; rfl)
  refine .inr ⟨hp, ?_⟩
  cases i <;> simp only [exec, execReadVersion, execReadEncoderM1, execReadEncoderM2, execReadSpeedM1, execReadSpeedM2,
    execReadTemperature, execReadErrorState, execReadMainBatteryVoltage, execReadCurrents, execReadEncoderModes,
    execResetEncoders, execSetM1Constants, execSetM2Constants, execSetM1VelocityPID, execSetM2VelocityPID,
    execSetMixedSpeed, execUpdate, execMix, setConstants, setVelocityPid, startWire, accept_idle hp,
    Host.Outcome.next.injEq] at h
  case setM1Constants | setM2Constants => subst h; exact .inl ⟨_, _, _, rfl, by simp⟩
  case setM1VelocityPID | setM2VelocityPID =>
    split at h
    · cases h; exact .inl ⟨_, _, _, rfl, by simp⟩
    · cases h; exact .inr (.inl ⟨_, rfl⟩)
  case setMixedSpeed =>
    split at h
    · cases h; exact .inl ⟨_, _, _, rfl, by simp⟩
    · cases h; exact .inr (.inl ⟨_, rfl⟩)
  case update now l r lv rv =>
    split at h
    · next hv =>
      simp only [Bool.and_eq_true] at hv
      obtain ⟨rfl, rfl⟩ := hv
      unfold updateValid at h
      split at h
      · cases h
      · split at h
        · next hf =>
          split at h
          · cases h; exact .inr (.inr (.inl ⟨_, _, _, rfl, hf, rfl⟩))
          · cases h
        · cases h; exact .inr (.inl ⟨_, rfl⟩)
    · cases h; exact .inr (.inr (.inr (.inl ⟨⟨now, l, r, lv, rv, rfl⟩, rfl⟩)))
  case mix =>
    split at h
    · cases h; exact .inr (.inr (.inr (.inr ⟨_, _, _, _, rfl, rfl⟩)))
    · cases h; exact .inr (.inl ⟨_, rfl⟩)
  all_goals (subst h; exact .inl ⟨_, _, _, rfl, by simp⟩)

/-- No operation ends in a refusal of the model. -/
theorem exec_not_refused {i : Instr} {s : State} {q : Refusal} : exec i s ≠ .refused q := by
  intro h
  cases i <;> simp only [exec, execReadVersion, execReadEncoderM1, execReadEncoderM2, execReadSpeedM1, execReadSpeedM2,
    execReadTemperature, execReadErrorState, execReadMainBatteryVoltage, execReadCurrents, execReadEncoderModes,
    execResetEncoders, execSetM1Constants, execSetM2Constants, execSetM1VelocityPID, execSetM2VelocityPID,
    execSetMixedSpeed, execUpdate, execMix, setConstants, setVelocityPid, startWire, accept, refuseCommand,
    updateValid, updateWith] at h
  all_goals (repeat' split at h) <;> cases h

/-- What a step can do: transmit, receive, open, close, accept or reject a command, or wait. -/
theorem step_cases {s t : State} (h : step s = .next t) :
    (s.phase = .tx ∧ txStep s = .next t) ∨
    (s.phase = .rx ∧ rxStep s = .next t) ∨
    (s.phase = .closed ∧ s.host.lifecycle.head? = some .openReq ∧ t = openLink s.popLifecycle) ∨
    ((s.phase = .idle ∨ s.phase = .fatal) ∧ s.host.lifecycle.head? = some .closeReq ∧
      (t = closeLink s.popLifecycle ∨ t = closeLink s.drawn.popLifecycle)) ∨
    (s.phase = .idle ∧ ∃ c u, s.host.cmds.head? = some c ∧ (u = s.popCmd ∨ u = s.drawn.popCmd) ∧
      ((∃ i, decode c = .ok i ∧ exec i u = .next t) ∨
        (∃ e, decode c = .error e ∧ t = u.refuse .reservedCommand))) ∨
    ((s.phase = .idle ∨ s.phase = .closed) ∧ t = s) := by
  have hcmd : ∀ {c u}, acceptCommand c u = .next t →
      (∃ i, decode c = .ok i ∧ exec i u = .next t) ∨ (∃ e, decode c = .error e ∧ t = u.refuse .reservedCommand) := by
    intro c u hc
    unfold acceptCommand at hc
    split at hc
    · next i hi => exact .inl ⟨i, hi, hc⟩
    · next e he => cases e; cases hc; exact .inr ⟨_, he, rfl⟩
  unfold step nextAction at h
  rcases hp : s.phase with _ | _ | _ | _ | _ <;> simp only [hp] at h
  case tx => exact .inl ⟨rfl, h⟩
  case rx => exact .inr (.inl ⟨rfl, h⟩)
  case closed =>
    rcases hl : s.host.lifecycle.head? with _ | _ | _ <;> simp only [hl] at h <;> cases h
    · exact .inr (.inr (.inr (.inr (.inr ⟨.inr rfl, rfl⟩))))
    · exact .inr (.inr (.inl ⟨rfl, rfl, rfl⟩))
    · exact .inr (.inr (.inr (.inr (.inr ⟨.inr rfl, rfl⟩))))
  case fatal =>
    rcases hl : s.host.lifecycle.head? with _ | _ | _ <;> simp only [hl] at h <;> cases h
    exact .inr (.inr (.inr (.inl ⟨.inr rfl, rfl, .inl rfl⟩)))
  case idle =>
    unfold idleAction at h
    rcases hl : s.host.lifecycle.head? with _ | _ | _ <;> rcases hc : s.host.cmds.head? with _ | c <;>
      simp only [hl, hc] at h
    · cases h; exact .inr (.inr (.inr (.inr (.inr ⟨.inl rfl, rfl⟩))))
    · exact .inr (.inr (.inr (.inr (.inl ⟨rfl, c, _, rfl, .inl rfl, hcmd h⟩))))
    · cases h; exact .inr (.inr (.inr (.inr (.inr ⟨.inl rfl, rfl⟩))))
    · exact .inr (.inr (.inr (.inr (.inl ⟨rfl, c, _, rfl, .inl rfl, hcmd h⟩))))
    · cases h; exact .inr (.inr (.inr (.inl ⟨.inl rfl, rfl, .inl rfl⟩)))
    · by_cases hb : Config.lifecycleFirst s.link.draws = true <;> simp only [hb, if_true, if_false, Bool.false_eq_true] at h
      · cases h; exact .inr (.inr (.inr (.inl ⟨.inl rfl, rfl, .inr rfl⟩)))
      · exact .inr (.inr (.inr (.inr (.inl ⟨rfl, c, _, rfl, .inr rfl, hcmd h⟩))))

/-- No step ends in a refusal of the model. -/
theorem step_not_refused {s : State} {q : Refusal} : step s ≠ .refused q := by
  intro h
  unfold step at h
  split at h
  · exact txStep_not_refused h
  · exact rxStep_not_refused h
  · cases h
  · cases h
  · unfold acceptCommand at h
    split at h
    · exact exec_not_refused h
    · next e _ => cases e; cases h
  · cases h
  · cases h

end Sys2Proof.Machine
end

