-- ==== Sys2Proof/Laws/Run.lean ====
section
/-! SUPPORT. Runs of steps: a frame transmitted whole, a receive step answered by the link, and the assembled values. -/
namespace Sys2Proof.Machine

open Sys2Proof

@[simp] theorem stepN_zero (s : State) : stepN 0 s = .next s := rfl

theorem stepN_succ_of_next {k : Nat} {s t : State} (h : step s = .next t) : stepN (k + 1) s = stepN k t := by
  simp [stepN, h]

/-- A run of `j + k` steps is a run of `k` steps from where the first `j` lead. -/
theorem stepN_add_of_next {j k : Nat} {s t : State} (h : stepN j s = .next t) : stepN (j + k) s = stepN k t := by
  induction j generalizing s with
  | zero => cases h; simp
  | succ j ih =>
    rw [show j + 1 + k = (j + k) + 1 by omega]
    simp only [stepN] at h ⊢
    split at h
    · exact ih h
    · cases h
    · cases h

theorem step_tx {s : State} (h : s.phase = .tx) : step s = txStep s := by simp [step, nextAction, h]

theorem step_rx {s : State} (h : s.phase = .rx) : step s = rxStep s := by simp [step, nextAction, h]

/-- A receive step takes the first answer of the link. -/
theorem step_rx_byte {s : State} {b : Byte} {rest : List RxAnswer} (h : s.phase = .rx)
    (ha : s.link.rxAnswers = .byte b :: rest) :
    step s = receive b { s with link := { s.link with rxAnswers := rest } } := by
  rw [step_rx h, rxStep_byte (b := b)] <;> simp [Link.rxByte, ha]

/-- The bytes from `i` on of a frame are transmitted, one a step; then the frame ends (`40_codec.md` R132). -/
theorem stepN_tx {s : State} {frame : List Byte} {shape : Shape} {i : Nat} (hp : s.phase = .tx)
    (hf : s.codec.txFrame = some frame) (hl : s.codec.txLen = some frame.length) (hs : s.codec.rxShape = some shape)
    (hi : s.codec.txIdx = some i) (hlt : i < frame.length) (k : Nat) :
    stepN (frame.length - i + k) s =
      match endTx shape
        { s with
          link := { s.link with txStream := s.link.txStream ++ frame.drop i }
          codec := { s.codec with txIdx := some frame.length } } with
      | .next t => stepN k t
      | .fault r => .fault r
      | .refused r => .refused r := by
  obtain ⟨n, hn⟩ : ∃ n, frame.length - i = n + 1 := ⟨frame.length - i - 1, by omega⟩
  induction n generalizing s i with
  | zero =>
    have hi1 : i + 1 = frame.length := by omega
    have hd : frame.drop i = [frame[i]] := by
      rw [List.drop_eq_getElem_cons hlt, hi1, List.drop_length]
    rw [hn, show 0 + 1 + k = k + 1 by omega]
    have hstep : step s = endTx shape (s.sent i frame[i]) := by
      simp only [step_tx hp, txStep, hf, hi, hl, hs, need_some, frameByte_of_lt hlt, hi1, if_true]
    rw [hd, ← hi1]
    simp only [stepN, hstep]
    rfl
  | succ n ih =>
    have hne : i + 1 ≠ frame.length := by omega
    have hstep : step s = .next (s.sent i frame[i]) := by
      simp only [step_tx hp, txStep, hf, hi, hl, hs, need_some, frameByte_of_lt hlt, hne, if_false]
    rw [show frame.length - i + k = (frame.length - (i + 1) + k) + 1 by omega, stepN_succ_of_next hstep,
      ih (s := s.sent i frame[i]) (i := i + 1) hp hf hl hs rfl (by omega) (by omega)]
    simp only [State.sent, State.txByte, List.append_assoc, List.singleton_append, List.getElem_cons_drop]

/-- A wire operation accepted: its frame is transmitted, and then ends. -/
theorem runOperation_startWire {i : Instr} {op : Sel} {kind : OpKind} {p : List Byte} {shape : Shape} {s : State}
    (hp : s.phase = .idle) (h : exec i s = startWire op kind p shape s) (k : Nat) :
    let frame := frameBytes s.cfg.address (s.par.opc.get kind) p (!(shape.isRead && !s.par.readReqChecksum))
    runOperation i (frame.length + k) s =
      match endTx shape
        { s with
          phase := .tx
          link := { s.link with txStream := s.link.txStream ++ frame }
          codec :=
            { s.codec with
              curOp := some op
              curOpc := some (s.par.opc.get kind)
              txChk := some (reqChk s.cfg.address (s.par.opc.get kind) p)
              txFrame := some frame
              txLen := some frame.length
              txIdx := some frame.length
              rxShape := some shape } } with
      | .next t => stepN k t
      | .fault r => .fault r
      | .refused r => .refused r := by
  intro frame
  have hpos : 0 < frame.length := by
    have := frameBytes_length s.cfg.address (s.par.opc.get kind) p (!(shape.isRead && !s.par.readReqChecksum))
    show 0 < (frameBytes _ _ _ _).length
    rw [this]; split <;> omega
  have := stepN_tx (s := sendCommand op (s.par.opc.get kind) p shape s) (frame := frame) (shape := shape) (i := 0)
    rfl rfl rfl rfl rfl hpos k
  rw [Nat.sub_zero, List.drop_zero] at this
  simp only [runOperation, h, startWire_idle _ _ _ _ hp]
  exact this

/-! The read operations -/

theorem exec_readRow {row : ReadRow} (hr : row ∈ readRows) (s : State) :
    exec row.instr s = startWire row.sel row.kind [] row.shape s := by
  simp only [readRows, List.mem_cons, List.not_mem_nil, or_false] at hr
  rcases hr with rfl | rfl | rfl | rfl | rfl | rfl | rfl | rfl | rfl | rfl <;> rfl

theorem isRead_readRow {row : ReadRow} (hr : row ∈ readRows) : row.shape.isRead = true := by
  simp only [readRows, List.mem_cons, List.not_mem_nil, or_false] at hr
  rcases hr with rfl | rfl | rfl | rfl | rfl | rfl | rfl | rfl | rfl | rfl <;> rfl

theorem frameBytes_readFrame (p : Params) (a o : Byte) {shape : Shape} (h : shape.isRead = true) :
    frameBytes a o [] (!(shape.isRead && !p.readReqChecksum)) = readFrame p a o := by
  cases hh : p.readReqChecksum <;> simp [frameBytes, readFrame, hh, h, reqChk, sum8]

/-- A read operation whose frame is transmitted: reception starts (`40_codec.md` R133). -/
def readStarted (row : ReadRow) (s : State) : State :=
  let opc := s.par.opc.get row.kind
  let frame := readFrame s.par s.cfg.address opc
  { s with
    phase := .rx
    link := { s.link with txStream := s.link.txStream ++ frame }
    codec :=
      { s.codec with
        curOp := some row.sel
        curOpc := some opc
        txChk := some (reqChk s.cfg.address opc [])
        txFrame := some frame
        txLen := some frame.length
        txIdx := some frame.length
        rxShape := some row.shape
        rxSum := some (respSeed s.cfg.address opc)
        rxAcc := some 0
        rxIdx := some 0
        rxTerm := some false } }

theorem runOperation_read {row : ReadRow} (hr : row ∈ readRows) {s : State} (hp : s.phase = .idle) (k : Nat) :
    runOperation row.instr ((readFrame s.par s.cfg.address (s.par.opc.get row.kind)).length + k) s =
      stepN k (readStarted row s) := by
  have h := runOperation_startWire hp (exec_readRow hr s) k
  have hrr := isRead_readRow hr
  simp only [frameBytes_readFrame _ _ _ hrr] at h
  rw [h]
  unfold readStarted
  cases hs : row.shape <;> simp [hs, Shape.isRead] at hrr <;> rfl

/-! Assembled values (`10_state.md` R27) -/

theorem accShift_byte (v : Byte) : accShift 0 v = v.setWidth 32 := by simp [accShift]

theorem getLsbD_accShift (acc : Word) (b : Byte) (i : Nat) (hi : i < 32) :
    (accShift acc b).getLsbD i = if i < 8 then b.getLsbD i else acc.getLsbD (i - 8) := by
  simp only [accShift, BitVec.getLsbD_or, BitVec.getLsbD_shiftLeft, BitVec.getLsbD_setWidth]
  split
  · next h => simp [h, hi]
  · next h => simp [h, hi, BitVec.getLsbD_of_ge b i (by omega)]

theorem accShift_half (v1 v0 : Byte) : accShift (accShift 0 v1) v0 = (v1 ++ v0 : BitVec 16).setWidth 32 := by
  apply BitVec.eq_of_getLsbD_eq
  intro i hi
  simp only [getLsbD_accShift _ _ i hi, getLsbD_accShift _ _ (i - 8) (by omega), BitVec.getLsbD_setWidth,
    BitVec.getLsbD_append, hi, decide_true, Bool.true_and]
  split
  · rfl
  · split
    · rfl
    · next h => simp [BitVec.getLsbD_of_ge v1 (i - 8) (by omega)]

theorem accShift_word (v3 v2 v1 v0 : Byte) :
    accShift (accShift (accShift (accShift 0 v3) v2) v1) v0 = v3 ++ v2 ++ v1 ++ v0 := by
  apply BitVec.eq_of_getLsbD_eq
  intro i hi
  simp only [getLsbD_accShift _ _ i hi, getLsbD_accShift _ _ (i - 8) (by omega),
    getLsbD_accShift _ _ (i - 8 - 8) (by omega), getLsbD_accShift _ _ (i - 8 - 8 - 8) (by omega), BitVec.getLsbD_append]
  repeat' split
  all_goals first | rfl | omega

/-- A value byte taken while the high byte of `rx_acc` is free adds itself to the sum of its bytes. -/
theorem sum8_accShift (acc : Word) (b : Byte) (h : acc.toNat < 2 ^ 24) :
    sum8 (bytes32 (accShift acc b)) = sum8 (bytes32 acc) + b := by
  have low : (accShift acc b).extractLsb' 0 8 = b := by
    apply BitVec.eq_of_getLsbD_eq
    intro i hi
    rw [BitVec.getLsbD_extractLsb', getLsbD_accShift _ _ _ (by omega), Nat.zero_add, if_pos hi]
    simp [hi]
  have shifted (k : Nat) (hk : k + 16 ≤ 32) :
      (accShift acc b).extractLsb' (k + 8) 8 = acc.extractLsb' k 8 := by
    apply BitVec.eq_of_getLsbD_eq
    intro i hi
    rw [BitVec.getLsbD_extractLsb', BitVec.getLsbD_extractLsb', getLsbD_accShift _ _ _ (by omega),
      if_neg (by omega), show k + 8 + i - 8 = k + i by omega]
  have top : acc.extractLsb' 24 8 = 0 := by
    apply BitVec.eq_of_toNat_eq
    simp [Nat.shiftRight_eq_div_pow]
    omega
  have e1 := shifted 0 (by omega)
  have e2 := shifted 8 (by omega)
  have e3 := shifted 16 (by omega)
  simp only [Nat.zero_add, Nat.reduceAdd] at e1 e2 e3
  simp only [bytes32, sum8, low, e1, e2, e3, top]
  simp [BitVec.add_assoc]

/-- After `i + 1` value bytes `rx_acc` has no bits above them. -/
theorem toNat_accShift_lt (acc : Word) (b : Byte) (i : Nat) (hi : i < 4) (h : acc.toNat < 2 ^ (8 * i)) :
    (accShift acc b).toNat < 2 ^ (8 * (i + 1)) := by
  have hb := b.isLt
  have e : (accShift acc b).toNat = (acc.toNat * 256 % 4294967296) ||| b.toNat := by
    simp only [accShift, BitVec.toNat_or, BitVec.toNat_shiftLeft, BitVec.toNat_setWidth, Nat.shiftLeft_eq]
    rw [Nat.mod_eq_of_lt (show b.toNat < 2 ^ 32 by omega)]
  rw [e]
  apply Nat.or_lt_two_pow
  · interval_cases i <;> simp at * <;> omega
  · interval_cases i <;> simp at * <;> omega

/-- The bytes of an array up to its first zero byte (`40_codec.md` R139). -/
theorem stringOf_map (str : List Byte) (h : ∀ b ∈ str, b ≠ 0) (rest : List (Option Byte)) :
    stringOf (str.map some ++ some 0 :: rest) = some (str ++ [0]) := by
  induction str with
  | nil => simp [stringOf]
  | cons b bs ih =>
    simp only [List.forall_mem_cons] at h
    simp only [List.map_cons, List.cons_append, stringOf, h.1, if_false, ih h.2, Option.map_some]

end Sys2Proof.Machine
end

