-- ==== Sys2Proof/Tests/Slice0.lean ====
section
/-!
SUPPORT. Tests of the model: commands and frames written out from the tables of the spec, single steps with the expected
results of `95_test_vectors.md`, ill-formed terms, and for each obligation with hypotheses a state that meets them.
-/
namespace Sys2Proof.Tests

open Sys2Proof Sys2Proof.Machine

/-! Helpers -/

/-- What `f` reads in the next state. -/
def onNext {α : Type} (f : State → α) : Out → Option α
  | .next t => some (f t)
  | .fault _ => none
  | .refused _ => none

/-- The reset state with the transport open. -/
def idle : State := { State.reset with phase := .idle }

/-- `idle` under other parameters. -/
def idleWith (p : Params) : State := { State.resetWith p .default with phase := .idle }

/-- `idle` with commands and lifecycle requests offered. -/
def offering (cs : List Command) (ls : List LifeReq) : State := { idle with host := { cmds := cs, lifecycle := ls } }

/-- A state in reception at index `i`, the checksum so far `sum`, the value so far `acc`, the next answers `as`. -/
def receiving (op : Sel) (opc : Byte) (shape : Shape) (i : Nat) (sum : Byte) (acc : Word) (as : List RxAnswer) : State :=
  { State.reset with
    phase := .rx
    link := { State.reset.link with rxAnswers := as }
    codec :=
      { State.reset.codec with
        curOp := some op, curOpc := some opc, txChk := some ((0x80 + opc) &&& 0x7F), rxShape := some shape
        rxIdx := some i, rxSum := some sum, rxAcc := some acc, rxTerm := some false } }

/-- The reset state in transmission of the frame of an operation. -/
def transmitting (i : Instr) (p : Params) : State :=
  match exec i (idleWith p) with
  | .next t => t
  | .fault _ => idleWith p
  | .refused _ => idleWith p

/-- A number that is not finite. -/
def nan : NumVal := .other (.nonFinite 0)

def acked : Params := { Params.default with ackLen := 1 }

/-! Decoding the table's words (`30_encoding.md` R109, R110) -/

theorem test_decode_readVersion : decodeTableWord 8 0b00000 = some .readVersion := by decide
theorem test_decode_readEncoderM1 : decodeTableWord 8 0b00001 = some .readEncoderM1 := by decide
theorem test_decode_readEncoderM2 : decodeTableWord 8 0b00010 = some .readEncoderM2 := by decide
theorem test_decode_readSpeedM1 : decodeTableWord 8 0b00011 = some .readSpeedM1 := by decide
theorem test_decode_readSpeedM2 : decodeTableWord 8 0b00100 = some .readSpeedM2 := by decide
theorem test_decode_readTemperature : decodeTableWord 8 0b00101 = some .readTemperature := by decide
theorem test_decode_readErrorState : decodeTableWord 8 0b00110 = some .readErrorState := by decide
theorem test_decode_readMainBatteryVoltage : decodeTableWord 8 0b00111 = some .readMainBatteryVoltage := by decide
theorem test_decode_readCurrents : decodeTableWord 8 0b01000 = some .readCurrents := by decide
theorem test_decode_readEncoderModes : decodeTableWord 8 0b01001 = some .readEncoderModes := by decide
theorem test_decode_resetEncoders : decodeTableWord 8 0b01010 = some .resetEncoders := by decide
theorem test_decode_setM1Constants : decodeTableWord 8 0b01011 = some (.setM1Constants 0 0 0 0) := by decide
theorem test_decode_setM2Constants : decodeTableWord 8 0b01100 = some (.setM2Constants 0 0 0 0) := by decide
theorem test_decode_setM1VelocityPID :
    decodeTableWord 8 0b01101 = some (.setM1VelocityPID (.ofRat 0) (.ofRat 0) (.ofRat 0) 0) := by decide
theorem test_decode_setM2VelocityPID :
    decodeTableWord 8 0b01110 = some (.setM2VelocityPID (.ofRat 0) (.ofRat 0) (.ofRat 0) 0) := by decide
theorem test_decode_setMixedSpeed : decodeTableWord 8 0b01111 = some (.setMixedSpeed (.ofRat 0) (.ofRat 0)) := by decide
theorem test_decode_update :
    decodeTableWord 8 0b10000 = some (.update (some (.ofRat 0)) (some 0) (some 0) false false) := by decide
theorem test_decode_mix :
    decodeTableWord 8 0b10001 = some (.mix (.ofRat 0) (.ofRat 0) (.ofRat 0) (.ofRat 0)) := by decide
theorem test_decode_reserved_first : decodeTableWord 8 0b10010 = none := by decide
theorem test_decode_reserved_last : decodeTableWord 8 0b11111 = none := by decide

/-- A word placed from reset is the next operation: `Mix` of zeros. -/
theorem test_withFetchWord : onNext (·.mix.mixReady) (step (State.reset.withFetchWord 8 0x11)) = some true := by
  decide +kernel

/-! Frames read back as what they stand for (`95_test_vectors.md`) -/

theorem test_parse_readEncoderM1 : parseFrame .default 0x80 [0x80, 0x10, 0x10] = .ok ⟨.encM1, []⟩ := by decide
theorem test_parse_setM1Constants :
    parseFrame .default 0x80
        [0x80, 0x1C, 0, 1, 0, 0, 0, 2, 0, 0, 0, 0, 0x80, 0, 0, 0, 0xAB, 0xE0, 0x2A] =
      .ok ⟨.pidM1, [0x00010000, 0x00020000, 0x00008000, 44000]⟩ := by decide
theorem test_parse_setMixedSpeed :
    parseFrame .default 0x80 [0x80, 0x25, 0, 0, 3, 0xE8, 0xFF, 0xFF, 0xFC, 0x18, 0x22] =
      .ok ⟨.mixed, [0x000003E8, 0xFFFFFC18]⟩ := by decide
theorem test_parse_wrong_checksum : parseFrame .default 0x80 [0x80, 0x10, 0x90] = .error (.wrongChecksum 0x90) := by
  decide
theorem test_parse_wrong_address : parseFrame .default 0x80 [0x81, 0x10, 0x11] = .error (.wrongAddress 0x81) := by decide
theorem test_parse_unknown_opcode : parseFrame .default 0x80 [0x80, 0x00, 0x00] = .error (.unknownOpcode 0) := by decide
theorem test_parse_too_long : parseFrame .default 0x80 [0x80, 0x10, 0x10, 0] = .error (.wrongLength 2) := by decide
theorem test_parse_too_short : parseFrame .default 0x80 [0x80] = .error .tooShort := by decide

/-- The examples of `30_encoding.md` R113. -/
theorem test_assemble :
    assemble "Update" [.real 1, .int 50, .int 50, .bool true, .bool true] =
        some (.update (some (.ofRat 1)) (some 50) (some 50) true true) ∧
      assemble "SetM1Constants" [.int 0, .int 0x00010000, .int 0x00008000, .int 44000] =
        some (.setM1Constants 0 0x00010000 0x00008000 44000) ∧
      assemble "Mix" [.real 1] = none := by
  decide

/-! Ill-formed terms -/

theorem test_wf_canonical : (Exact.wf ⟨1, [⟨1, 1, 0⟩, ⟨2, 0, 1⟩]⟩) = true := by decide +kernel
theorem test_wf_zero_term : (Exact.wf ⟨1, [⟨1, 0, 0⟩]⟩) = false := by decide +kernel
theorem test_wf_zero_angle : (Exact.wf ⟨1, [⟨0, 1, 0⟩]⟩) = false := by decide +kernel
theorem test_wf_inverse_of_zero : (RealNum.wf (.inv (.ofRat 0))) = false ∧ (RealNum.wf (.inv (.ofRat 2))) = true := by
  decide +kernel
theorem test_wf_nested : (RealNum.wf (.add .pi (.cos (.exact ⟨0, [⟨-1, 1, 1⟩]⟩)))) = false := by decide +kernel
theorem test_wf_unsorted : (Exact.wf ⟨1, [⟨2, 1, 0⟩, ⟨1, 1, 0⟩]⟩) = false := by decide +kernel

/-- An ill-formed real, for the operand checks. -/
def badReal : NumVal := .real (.exact ⟨0, [⟨-1, 1, 1⟩]⟩)

theorem test_wf_velocityPid_operands :
    (Instr.setM1VelocityPID badReal (.ofRat 0) (.ofRat 0) 0).wf = false ∧
      (Instr.setM1VelocityPID (.ofRat 0) badReal (.ofRat 0) 0).wf = false ∧
      (Instr.setM2VelocityPID (.ofRat 0) (.ofRat 0) badReal 0).wf = false := by decide +kernel
theorem test_wf_mixedSpeed_operands :
    (Instr.setMixedSpeed badReal (.ofRat 0)).wf = false ∧ (Instr.setMixedSpeed (.ofRat 0) badReal).wf = false := by
  decide +kernel
theorem test_wf_update_operand : (Instr.update (some badReal) none none true true).wf = false := by decide +kernel
theorem test_wf_mix_operands :
    (Instr.mix badReal (.ofRat 0) (.ofRat 0) (.ofRat 0)).wf = false ∧
      (Instr.mix (.ofRat 0) badReal (.ofRat 0) (.ofRat 0)).wf = false ∧
      (Instr.mix (.ofRat 0) (.ofRat 0) badReal (.ofRat 0)).wf = false ∧
      (Instr.mix (.ofRat 0) (.ofRat 0) (.ofRat 0) badReal).wf = false := by decide +kernel

/-! The accept step: the frames of `41_operations.md` and `95_test_vectors.md` -/

/-- The frame an operation puts into `tx_frame`. -/
def frameOf (i : Instr) (s : State) : Option (Option (List Byte)) := onNext (·.codec.txFrame) (exec i s)

theorem test_readVersion_frame : frameOf .readVersion idle = some (some [0x80, 0x15, 0x15]) := by decide
theorem test_readEncoderM1_frame : frameOf .readEncoderM1 idle = some (some [0x80, 0x10, 0x10]) := by decide
/-- V-CHK-8 -/
theorem test_readEncoderM1_no_checksum :
    frameOf .readEncoderM1 (idleWith { Params.default with readReqChecksum := false }) = some (some [0x80, 0x10]) := by
  decide
theorem test_readEncoderM2_frame : frameOf .readEncoderM2 idle = some (some [0x80, 0x11, 0x11]) := by decide
theorem test_readSpeedM1_frame : frameOf .readSpeedM1 idle = some (some [0x80, 0x12, 0x12]) := by decide
theorem test_readSpeedM2_frame : frameOf .readSpeedM2 idle = some (some [0x80, 0x13, 0x13]) := by decide
theorem test_readTemperature_frame : frameOf .readTemperature idle = some (some [0x80, 0x52, 0x52]) := by decide
theorem test_readErrorState_frame : frameOf .readErrorState idle = some (some [0x80, 0x5A, 0x5A]) := by decide
theorem test_readMainBatteryVoltage_frame : frameOf .readMainBatteryVoltage idle = some (some [0x80, 0x18, 0x18]) := by
  decide
theorem test_readCurrents_frame : frameOf .readCurrents idle = some (some [0x80, 0x31, 0x31]) := by decide
theorem test_readEncoderModes_frame : frameOf .readEncoderModes idle = some (some [0x80, 0x5B, 0x5B]) := by decide
/-- R181: always with its checksum byte -/
theorem test_resetEncoders_frame :
    frameOf .resetEncoders (idleWith { Params.default with readReqChecksum := false }) = some (some [0x80, 0x14, 0x14]) := by
  decide
/-- V-CHK-6 -/
theorem test_setM1Constants_frame :
    frameOf (.setM1Constants 0x00010000 0x00020000 0x00008000 44000) idle =
      some (some [0x80, 0x1C, 0, 1, 0, 0, 0, 2, 0, 0, 0, 0, 0x80, 0, 0, 0, 0xAB, 0xE0, 0x2A]) := by decide
/-- V-WR-5 -/
theorem test_setM2Constants_frame :
    frameOf (.setM2Constants 0 0x00010000 0x00008000 44000) idle =
      some (some [0x80, 0x1D, 0, 0, 0, 0, 0, 1, 0, 0, 0, 0, 0x80, 0, 0, 0, 0xAB, 0xE0, 0x29]) := by decide
/-- V-WR-6 -/
theorem test_setM1VelocityPID_frame :
    frameOf (.setM1VelocityPID (.ofRat 0) (.ofRat 1) (.ofRat (1 / 2)) 44000) idle =
      some (some [0x80, 0x1C, 0, 0, 0, 0, 0, 1, 0, 0, 0, 0, 0x80, 0, 0, 0, 0xAB, 0xE0, 0x28]) := by decide +kernel
/-- V-WR-8 -/
theorem test_setM1VelocityPID_negative :
    onNext (fun t => (t.refused, t.phase)) (exec (.setM1VelocityPID (.ofRat (-1 / 4)) (.ofRat 1) (.ofRat (1 / 2)) 44000) idle) =
      some (some .rangeError, .idle) := by decide +kernel
/-- V-WR-7 -/
theorem test_setM2VelocityPID_frame :
    frameOf (.setM2VelocityPID (.ofRat 0) (.ofRat 1) (.ofRat (1 / 2)) 44000) idle =
      some (some [0x80, 0x1D, 0, 0, 0, 0, 0, 1, 0, 0, 0, 0, 0x80, 0, 0, 0, 0xAB, 0xE0, 0x29]) := by decide +kernel
/-- V-WR-11 -/
theorem test_setMixedSpeed_truncates :
    frameOf (.setMixedSpeed (.ofRat (-249 / 10)) (.ofRat (249 / 10))) idle =
      some (some [0x80, 0x25, 0xFF, 0xFF, 0xFF, 0xE8, 0, 0, 0, 0x18, 0x22]) := by decide +kernel
/-- V-WR-12 -/
theorem test_setMixedSpeed_signMag :
    frameOf (.setMixedSpeed (.ofRat (-1000)) (.ofRat 1000)) (idleWith { Params.default with speedWireEnc := .signMag }) =
      some (some [0x80, 0x25, 0x80, 0, 3, 0xE8, 0, 0, 3, 0xE8, 0x7B]) := by decide +kernel

/-! `Update` and `Mix` (`95_test_vectors.md`) -/

/-- V-UPD-4: a pure rotation -/
theorem test_update_rotates :
    onNext (fun t => (t.odo.x, t.odo.theta, t.odo.vAng))
        (exec (.update (some (.ofRat 1)) (some (-25)) (some 25) true true) idle) =
      some (.ofRat 0, .ofRat 1, .ofRat 1) := by decide +kernel
/-- V-UPD-5: `x = 0.5 cos 0.4`, `y = -0.5 sin 0.4` -/
theorem test_update_translates :
    onNext (fun t => (t.odo.x, t.odo.y))
        (exec (.update (some (.ofRat (1 / 2))) (some 40) (some 60) true true) idle) =
      some (.real (.exact ⟨0, [⟨2 / 5, 1 / 2, 0⟩]⟩), .real (.exact ⟨0, [⟨2 / 5, 0, -1 / 2⟩]⟩)) := by decide +kernel
/-- V-MIX-6 -/
theorem test_mix_rates :
    onNext (fun t => (t.mix.mixLeft, t.mix.mixRight))
        (exec (.mix (.ofRat (1 / 5)) (.ofRat (-2 / 5)) (.ofRat (1 / 2)) (.ofRat 100)) idle) =
      some (some (.ofRat 30), some (.ofRat 10)) := by decide +kernel
/-- D31 -/
theorem test_mix_nonFinite :
    onNext (fun t => (t.refused, t.mix)) (exec (.mix nan (.ofRat 0) (.ofRat 0) (.ofRat 0)) idle) =
      some (some .nonFinite, idle.mix) := by decide +kernel

/-! Receive steps: the last byte of the vectors of `95_test_vectors.md` -/

/-- V-RX-1: the status byte `02` and the trailing byte `13` of `ReadEncoderM1` -/
theorem test_rx_status :
    onNext (fun t => (t.codec.rxStatus, t.codec.rxSum)) (step (receiving 0x01 0x10 .sDwordStatus 4 0x91 0x100 [.byte 0x02])) =
      some (some 0x02, some 0x93) := by decide
theorem test_rx_dwordStatus_trailing :
    onNext (fun t => (t.res.resValid, t.res.resValue, t.res.resStatus))
        (step
          { receiving 0x01 0x10 .sDwordStatus 5 0x93 0x100 [.byte 0x13] with
            codec := { (receiving 0x01 0x10 .sDwordStatus 5 0x93 0x100 []).codec with rxStatus := some 0x02 } }) =
      some (some true, some 0x100, some 0x02) := by decide
/-- V-RX-7: bit 7 of the trailing byte -/
theorem test_rx_bit7_of_trailing :
    onNext (fun t => (t.res.resErr, t.res.resValue)) (step (receiving 0x01 0x10 .sDwordStatus 5 0x93 0x100 [.byte 0x93])) =
      some (some .checksumMismatch, none) := by decide
/-- V-RX-11 -/
theorem test_rx_word :
    onNext (fun t => t.res.resValue) (step (receiving 0x05 0x52 .sWord 2 0xCC 0xFA [.byte 0x4C])) = some (some 0xFA) := by
  decide
/-- V-RX-21 -/
theorem test_rx_currents :
    onNext (fun t => (t.res.resM1, t.res.resM2)) (step (receiving 0x08 0x31 .sDword 4 0xF7 0x00120034 [.byte 0x77])) =
      some (some 0x0012, some 0x0034) := by decide
/-- V-RX-23 -/
theorem test_rx_modes :
    onNext (fun t => (t.res.resM1, t.res.resM2)) (step (receiving 0x09 0x5B .sWord 2 0x5C 0x0180 [.byte 0x5C])) =
      some (some 0x01, some 0x80) := by decide
/-- V-RX-13 -/
theorem test_rx_timeout :
    onNext (fun t => (t.res.resErr, t.desync, t.phase)) (step (receiving 0x05 0x52 .sWord 1 0xD2 0 [.timeout])) =
      some (some .transportTimeout, true, .idle) := by decide
/-- V-RX-19: the 32nd byte without a zero byte -/
theorem test_rx_malformed :
    onNext (fun t => (t.res.resErr, t.desync)) (step (receiving 0x00 0x15 .sString 31 0 0 [.byte 0x41])) =
      some (some .malformedResponse, true) := by decide
/-- R139: a zero byte as the 32nd is a terminator -/
theorem test_rx_last_terminator :
    onNext (fun t => (t.codec.rxTerm, t.phase)) (step (receiving 0x00 0x15 .sString 31 0 0 [.byte 0])) =
      some (some true, .rx) := by decide
/-- Log entry 13: past the frame's end a free byte is sent and counted -/
theorem test_tx_past_the_frame :
    let s := transmitting .resetEncoders .default
    onNext (fun t => (t.codec.txIdx, t.link.txStream.length)) (step { s with codec := { s.codec with txIdx := some 7 } }) =
      some (some 8, 1) := by decide
/-- V-WR-3 -/
theorem test_rx_ack :
    onNext (fun t => t.res.resErr) (step (receiving 0x0A 0x14 .sAck 0 0x94 0 [.byte 0x94])) =
      some (some .checksumMismatch) := by decide

/-! The lifecycle (V-LIFE-1 to 3) -/

theorem test_open_ok :
    onNext (·.phase)
        (step { State.reset with host := ⟨[], [.openReq]⟩, link := { State.reset.link with openAnswers := [.ok] } }) =
      some .idle := by decide
theorem test_open_fail :
    onNext (·.phase)
        (step { State.reset with host := ⟨[], [.openReq]⟩, link := { State.reset.link with openAnswers := [.fail] } }) =
      some .fatal := by decide
/-- V-REF-3 -/
theorem test_config_equal_opcodes :
    State.construct { Params.default with opc := { OpcTable.default with encM1 := 0x15 } } .default =
      .error .invalidConfig := by decide +kernel

/-! Witnesses: states and operands that meet the hypotheses of the obligations, clause by clause -/

/-- The state an outcome leads to; `idle` where it leads to none. -/
def after : Out → State
  | .next t => t
  | .fault _ => idle
  | .refused _ => idle

/-- `idle` with answers held out by the environment. -/
def answering (as : List RxAnswer) : State := { idle with link := { idle.link with rxAnswers := as } }

/-- `ReadEncoderM1` before its first transmit step. -/
def sending : State := transmitting .readEncoderM1 .default

/-- `ReadErrorState` at its trailing byte, which matches. -/
def ending : State := receiving 0x06 0x5A .sByte 1 0xDA 0 [.byte 0x5A]

/-- A frame of the reset operation at its last byte. -/
def lastByte : State :=
  { transmitting .resetEncoders .default with
    codec := { (transmitting .resetEncoders .default).codec with txIdx := some 2 } }

theorem witness_StepRunsTheDecodedCommand :
    (offering [encode .readVersion] []).phase = .idle ∧
      (offering [encode .readVersion] []).host.lifecycle.head? ≠ some .closeReq ∧
      (offering [encode .readVersion] []).host.cmds = [encode .readVersion] ∧
      decode (encode .readVersion) = .ok .readVersion ∧
      (offering [encode .readVersion] [.openReq]).host.lifecycle.head? ≠ some .closeReq := by
  decide

/-- Both ends of the reserved range. -/
theorem witness_ReservedCommandsAreRefused :
    (∀ c ∈ [(⟨0x12, .zero⟩ : Command), ⟨0x1F, .zero⟩],
      0x12 ≤ c.sel.toNat ∧ (offering [c] []).phase = .idle ∧
      (offering [c] []).host.lifecycle.head? ≠ some .closeReq ∧ (offering [c] []).host.cmds = [c]) := by
  decide

theorem witness_CommandsWaitOutsideIdle :
    State.reset.phase ≠ .idle ∧ sending.phase ≠ .idle ∧ step sending = .next (after (step sending)) := by
  refine ⟨by decide, by decide, rfl⟩

theorem witness_FramesReadBack :
    Params.default.opc.distinct = true ∧ (Request.mk .encM1 []).wf = true ∧
      (Request.mk .pidM1 [1, 2, 3, 4]).wf = true ∧ (Request.mk .mixed [1, 2]).wf = true ∧
      (Instr.setM1Constants 1 2 3 4).request .default = some ⟨.pidM1, [1, 2, 3, 4]⟩ := by
  decide

theorem witness_OnlyFramesReadBack :
    parseFrame .default 0x80 [0x80, 0x10, 0x10] = .ok ⟨.encM1, []⟩ ∧
      parseFrame { Params.default with readReqChecksum := false } 0x80 [0x80, 0x10] = .ok ⟨.encM1, []⟩ := by
  decide

/-- A read with a checksum byte, and a write where reads have none. -/
theorem witness_RequestChecksumsHaveBit7Clear :
    (idle.phase = .idle ∧ exec .readVersion idle = .next (after (exec .readVersion idle)) ∧
      (after (exec .readVersion idle)).phase = .tx ∧ idle.par.readReqChecksum = true) ∧
    (let s := idleWith { Params.default with readReqChecksum := false };
      s.phase = .idle ∧ exec .resetEncoders s = .next (after (exec .resetEncoders s)) ∧
        (after (exec .resetEncoders s)).phase = .tx ∧ ∀ row ∈ readRows, row.instr ≠ .resetEncoders) := by
  refine ⟨⟨by decide, rfl, by decide, by decide⟩, by decide, rfl, by decide, by simp [readRows]⟩

/-- V-RX-1 and V-RX-9, and a trailing byte that differs. -/
theorem witness_ChecksumDetection :
    respValid 0x80 0x10 ([0, 0, 1] ++ [0x00] ++ [2]) 0x13 = true ∧ (0x80 : Byte) ≠ 0x00 ∧
      respValid 0x80 0x10 [0, 0, 1, 0, 2] 0x13 = true ∧ (0x93 : Byte) ≠ 0x13 := by
  decide

/-- The first and the last row. -/
theorem witness_ReadOperationsAreAccepted :
    (⟨.readVersion, 0x00, .version, .sString⟩ : ReadRow) ∈ readRows ∧
      (⟨.readEncoderModes, 0x09, .modes, .sWord⟩ : ReadRow) ∈ readRows ∧ idle.phase = .idle := by
  refine ⟨by simp [readRows], by simp [readRows], by decide⟩

theorem witness_ResetEncodersIsAccepted : idle.phase = .idle := by decide

theorem witness_SetConstantsAreAccepted : (idleWith acked).phase = .idle := by decide

theorem witness_VelocityPidIsAccepted :
    idle.phase = .idle ∧ toFix16 (.ofRat 0) = some 0 ∧ toFix16 (.ofRat (1 / 2 ^ 17)) = some 1 ∧
      toFix16 (.ofRat (6553599999 / 100000)) = some 0xFFFFFFFF := by
  decide +kernel

/-- Both wire encodings, at the ends of their ranges. -/
theorem witness_SetMixedSpeedIsAccepted :
    idle.phase = .idle ∧ toWireRate .twos (.ofRat (-2147483648)) = some 0x80000000 ∧
      toWireRate .twos (.ofRat 2147483647) = some 0x7FFFFFFF ∧
      toWireRate .signMag (.ofRat (-2147483647)) = some 0xFFFFFFFF ∧
      toWireRate .signMag (.ofRat 2147483647) = some 0x7FFFFFFF := by
  decide +kernel

theorem witness_RefusedOperationsChangeOnlyTheMark :
    idle.phase = .idle ∧ toFix16 (.ofRat (-1 / 4)) = none ∧ toFix16 (.ofRat 65536) = none ∧
      toWireRate .twos (.ofRat 2147483648) = none ∧ toWireRate .twos (.ofRat (-2147483649)) = none ∧
      toWireRate .signMag (.ofRat (-2147483648)) = none ∧ nan.isFinite = false := by
  decide +kernel

/-- `2^-17` (a tie), `-2^-18` and the greatest gain; and a number that is not finite. -/
theorem witness_GainsRoundToTheNearestWord :
    toFix16 (.ofRat (1 / 2 ^ 17)) = some 1 ∧ toFix16 (.ofRat (-1 / 2 ^ 18)) = some 0 ∧
      toFix16 (.ofRat (6553599999 / 100000)) = some 0xFFFFFFFF ∧ nan.isFinite = false := by
  decide +kernel

/-- `-24.9`, in each encoding; the ends of the ranges are in `witness_SetMixedSpeedIsAccepted`. -/
theorem witness_RatesTruncateTowardZero :
    toWireRate .twos (.ofRat (-249 / 10)) = some 0xFFFFFFE8 ∧
      toWireRate .signMag (.ofRat (-249 / 10)) = some 0x80000018 ∧ nan.isFinite = false := by
  decide +kernel

/-- Irrational operands: `3 < π < 4` and `-4 < -π < -3`, so that the integer is 3 and -3. -/
theorem witness_RatesTruncateTowardZero_pi :
    (3 = (if 0 ≤ RealNum.pi.val then ⌊RealNum.pi.val⌋ else ⌈RealNum.pi.val⌉)) ∧
      (-3 = (if 0 ≤ (RealNum.neg .pi).val then ⌊(RealNum.neg .pi).val⌋ else ⌈(RealNum.neg .pi).val⌉)) ∧
      toWireRate .twos (.real .pi) = some 3 ∧ toWireRate .signMag (.real (.neg .pi)) = some 0x80000003 := by
  have h3 := Real.pi_gt_three
  have h4 := Real.pi_lt_four
  have f : ⌊Real.pi⌋ = 3 := Int.floor_eq_iff.mpr ⟨by push_cast; linarith, by push_cast; linarith⟩
  have n : ¬ 0 ≤ -Real.pi := by linarith
  have t : truncN (.real .pi) = 3 := by
    rw [truncN_real, RealNum.trunc_eq, RealNum.val, if_pos Real.pi_pos.le, f]
  have u : truncN (.real (.neg .pi)) = -3 := by
    rw [truncN_real, RealNum.trunc_eq, RealNum.val, RealNum.val, if_neg n, Int.ceil_neg, f]
  refine ⟨by rw [RealNum.val, if_pos Real.pi_pos.le, f],
    by rw [RealNum.val, RealNum.val, if_neg n, Int.ceil_neg, f], ?_, ?_⟩
  · simp [toWireRate, NumVal.isFinite, t, wireOfInt]
  · simp [toWireRate, NumVal.isFinite, u, wireOfInt]

theorem witness_WireWordsAreLossless :
    wireOfInt .twos (-1) = some 0xFFFFFFFF ∧ wireOfInt .signMag (-1) = some 0x80000001 ∧
      (0x80000001 : Word) ≠ 0x80000000 := by
  decide +kernel

/-- The first byte of a frame, the last byte of one without a response, and the last byte of one with a response. -/
theorem witness_TransmitStepSendsTheNextByte :
    (∃ frame, sending.phase = .tx ∧ sending.codec.txFrame = some frame ∧ sending.codec.txLen = some frame.length ∧
      sending.codec.txIdx = some 0 ∧ frame[0]? = some 0x80 ∧ sending.codec.rxShape = some .sDwordStatus ∧
      sending.codec.curOp = some 0x01 ∧ sending.codec.curOpc = some 0x10 ∧ 0 + 1 < frame.length) ∧
    (∃ frame, lastByte.phase = .tx ∧ lastByte.codec.txFrame = some frame ∧ lastByte.codec.txLen = some frame.length ∧
      lastByte.codec.txIdx = some 2 ∧ frame[2]? = some 0x14 ∧ lastByte.codec.rxShape = some .sNone ∧
      lastByte.codec.curOp = some 0x0A ∧ lastByte.codec.curOpc = some 0x14 ∧ 2 + 1 = frame.length) ∧
    (∃ (s : State) (frame : List Byte), s.phase = .tx ∧ s.codec.txFrame = some frame ∧
      s.codec.txLen = some frame.length ∧ s.codec.txIdx = some 2 ∧ frame[2]? = some 0x10 ∧
      s.codec.rxShape = some .sDwordStatus ∧ s.codec.curOp = some 0x01 ∧ s.codec.curOpc = some 0x10 ∧
      2 + 1 = frame.length ∧ Shape.sDwordStatus ≠ .sNone) := by
  refine ⟨⟨[0x80, 0x10, 0x10], by decide⟩, ⟨[0x80, 0x14, 0x14], by decide⟩,
    ⟨{ sending with codec := { sending.codec with txIdx := some 2 } }, [0x80, 0x10, 0x10], by decide⟩⟩

/-- V-RX-1 -/
theorem witness_ReadDwordStatusOperations :
    (⟨.readEncoderM1, 0x01, .encM1, .sDwordStatus⟩ : ReadRow) ∈ readRows ∧
      (answering [.byte 0, .byte 0, .byte 1, .byte 0, .byte 2, .byte 0x13]).phase = .idle ∧
      (answering [.byte 0, .byte 0, .byte 1, .byte 0, .byte 2, .byte 0x13]).link.rxAnswers =
        [.byte 0, .byte 0, .byte 1, .byte 0, .byte 2, .byte 0x13] ++ [] := by
  refine ⟨by simp [readRows], by decide, by decide⟩

/-- V-RX-11 and V-RX-20: both rows. -/
theorem witness_ReadWordOperations :
    (⟨.readTemperature, 0x05, .temp, .sWord⟩ : ReadRow) ∈ readRows ∧
      (⟨.readMainBatteryVoltage, 0x07, .batt, .sWord⟩ : ReadRow) ∈ readRows ∧
      (answering [.byte 0, .byte 0xFA, .byte 0x4C]).phase = .idle ∧
      (answering [.byte 0, .byte 0xFA, .byte 0x4C]).link.rxAnswers = [.byte 0, .byte 0xFA, .byte 0x4C] ++ [] := by
  refine ⟨by simp [readRows], by simp [readRows], by decide, by decide⟩

/-- V-RX-23 -/
theorem witness_ReadEncoderModesOperation :
    (answering [.byte 1, .byte 0x80, .byte 0x5C]).phase = .idle ∧
      (answering [.byte 1, .byte 0x80, .byte 0x5C]).link.rxAnswers = [.byte 1, .byte 0x80, .byte 0x5C] ++ [] := by
  decide

/-- V-RX-14 -/
theorem witness_ReadErrorStateOperation :
    (answering [.byte 0x20, .byte 0x7A]).phase = .idle ∧
      (answering [.byte 0x20, .byte 0x7A]).link.rxAnswers = [.byte 0x20, .byte 0x7A] ++ [] := by
  decide

/-- V-RX-21 -/
theorem witness_ReadCurrentsOperation :
    (answering [.byte 0, .byte 0x12, .byte 0, .byte 0x34, .byte 0x77]).phase = .idle ∧
      (answering [.byte 0, .byte 0x12, .byte 0, .byte 0x34, .byte 0x77]).link.rxAnswers =
        [.byte 0, .byte 0x12, .byte 0, .byte 0x34, .byte 0x77] ++ [] := by
  decide

/-- V-RX-17 and V-RX-18: the shortest and the longest string. -/
theorem witness_ReadVersionOperation :
    ∀ str ∈ [[], List.replicate 31 (0x41 : Byte)],
      (answering ((str ++ [0, 0x74]).map .byte)).phase = .idle ∧ str.length ≤ 31 ∧ (∀ b ∈ str, b ≠ 0) ∧
      (answering ((str ++ [0, 0x74]).map .byte)).link.rxAnswers = (str ++ [0, 0x74]).map .byte ++ [] := by
  decide

/-- V-RX-19 -/
theorem witness_UnterminatedVersionIsMalformed :
    (answering ((List.replicate 32 0x41).map .byte)).phase = .idle ∧ (List.replicate 32 (0x41 : Byte)).length = 32 ∧
      (∀ b ∈ List.replicate 32 (0x41 : Byte), b ≠ 0) ∧
      (answering ((List.replicate 32 0x41).map .byte)).link.rxAnswers = (List.replicate 32 0x41).map .byte ++ [] := by
  decide

theorem witness_TimeoutEndsTheOperation :
    (receiving 0x05 0x52 .sWord 1 0xD2 0 [.timeout]).phase = .rx ∧
      (receiving 0x05 0x52 .sWord 1 0xD2 0 [.timeout]).codec.curOp = some 0x05 ∧
      (receiving 0x05 0x52 .sWord 1 0xD2 0 [.timeout]).link.rxByte.1 = .timeout := by
  decide

theorem witness_WriteOperationsComplete :
    idle.phase = .idle ∧ idle.par.ackLen = 0 ∧
      (Instr.resetEncoders).request idle.par = some ⟨.reset, []⟩ ∧ OpKind.reset.isRead = false ∧
      (Instr.setMixedSpeed (.ofRat 25) (.ofRat 75)).request idle.par = some ⟨.mixed, [25, 75]⟩ ∧
      OpKind.mixed.isRead = false := by
  decide +kernel

/-- V-WR-2 and V-WR-3: the answer is the checksum byte, and is not. -/
theorem witness_WriteOperationsAreAcknowledged :
    ∀ a ∈ [(0x14 : Byte), 0x94],
      let s : State := { idleWith acked with link := (answering [.byte a]).link }
      s.phase = .idle ∧ s.par.ackLen = 1 ∧ (Instr.resetEncoders).request s.par = some ⟨.reset, []⟩ ∧
      OpKind.reset.isRead = false ∧ s.link.rxAnswers = .byte a :: [] := by
  decide

theorem sending_inv : CodecInv sending :=
  ⟨0x01, 0x10, [0x80, 0x10, 0x10], 0, 0x10, .sDwordStatus, rfl, rfl, rfl, rfl, rfl, rfl, rfl, by decide, by decide,
    by decide, rfl, rfl, ⟨.encM1, rfl⟩, by decide⟩

theorem ending_inv : CodecInv ending :=
  ⟨0x06, 0x5A, (0x80 + 0x5A) &&& 0x7F, .sByte, 1, 0xDA, 0, false, rfl, rfl, rfl, rfl, rfl, rfl, rfl, rfl, ⟨.error, rfl⟩,
    by decide, by decide, by decide⟩

theorem witness_OperationsEndWithin52Steps :
    (CodecInv sending ∧ sending.phase = .tx) ∧ CodecInv ending ∧ ending.phase = .rx :=
  ⟨⟨sending_inv, by decide⟩, ending_inv, by decide⟩

/-- The three ways of a missing validity. -/
theorem witness_InvalidReadsSkipTheUpdate :
    idle.phase = .idle ∧ (false && false) = false ∧ (true && false) = false ∧ (false && true) = false := by
  decide

theorem witness_UpdateWithoutOperandsFaults :
    idle.phase = .idle ∧ (NumVal.ofRat 1).isFinite = true ∧ (none : Option Word) = none := by
  decide

/-- `idle` with the heading `π / 2`. -/
def quarterTurned : State := { idle with odo := { idle.odo with theta := .real (RealNum.pi.times (.ofRat (1 / 2))) } }

/-- The states of V-UPD-5, whose numbers are all rational, and of V-UPD-6. -/
theorem witness_UpdateIntegratesThePose :
    (idle.phase = .idle ∧ idle.cfg.ticksPerMeter.Denotes 100 ∧ (100 : ℝ) ≠ 0 ∧ idle.cfg.wheelBase.Denotes (1 / 2) ∧
      (1 / 2 : ℝ) ≠ 0 ∧ idle.odo.x.Denotes 0 ∧ idle.odo.y.Denotes 0 ∧ idle.odo.theta.Denotes 0 ∧
      idle.odo.lastTime.Denotes 0 ∧ (NumVal.ofRat (1 / 2)).Denotes (1 / 2) ∧
      idle.odo.lastTime = .ofRat 0 ∧ idle.odo.theta = .ofRat 0 ∧ idle.cfg.ticksPerMeter = .ofRat 100 ∧
      idle.cfg.wheelBase = .ofRat (1 / 2)) ∧
    quarterTurned.phase = .idle ∧ quarterTurned.odo.theta.Denotes (Real.pi / 2) := by
  have z := NumVal.denotes_ofRat 0
  have h := NumVal.denotes_ofRat (1 / 2)
  have c := NumVal.denotes_ofRat 100
  push_cast at z h c
  exact ⟨⟨rfl, c, by norm_num, h, by norm_num, z, z, z, z, h, rfl, rfl, rfl, rfl⟩, rfl, _, rfl,
    by simp [RealNum.val]; ring⟩

/-- V-UPD-6: `x = 0.5 sin 0.4`, `y = 0.5 cos 0.4`, exactly -/
theorem test_update_quarter_turn :
    ∃ t, exec (.update (some (.ofRat (1 / 2))) (some 40) (some 60) true true) quarterTurned = .next t ∧
      t.odo.x.Denotes (0.5 * Real.sin 0.4) ∧ t.odo.y.Denotes (0.5 * Real.cos 0.4) ∧
      t.odo.theta.Denotes (Real.pi / 2 + 0.4) := by
  have tpm := NumVal.denotes_ofRat 100
  have base := NumVal.denotes_ofRat (1 / 2)
  have hx := NumVal.denotes_ofRat 0
  have ht : quarterTurned.odo.theta.Denotes (Real.pi / 2) := ⟨_, rfl, by simp [RealNum.val]; ring⟩
  have hl := wheelDist_denotes (s := quarterTurned) tpm (by norm_num) 40 0
  have hr := wheelDist_denotes (s := quarterTurned) tpm (by norm_num) 60 0
  rw [show tickDelta quarterTurned.par.tickDeltaMode 40 0 = 40 by decide] at hl
  rw [show tickDelta quarterTurned.par.tickDeltaMode 60 0 = 60 by decide] at hr
  have hd := centreDist_denotes hl hr
  have hdt := headingDelta_denotes base (by norm_num) hl hr
  obtain ⟨px, py⟩ := translatePose_denotes ht hd hdt hx hx
  have hth := turn_denotes ht hdt
  norm_num at px py hth
  refine ⟨_, rfl, ?_, ?_, ?_⟩
  · norm_num; rwa [mul_comm] at px
  · norm_num; rwa [mul_comm] at py
  · norm_num; exact hth

/-- V-UPD-1 and V-UPD-4. -/
theorem witness_StandingAndTurningKeepThePlace :
    idle.phase = .idle ∧ idle.cfg.ticksPerMeter.Denotes 100 ∧ (100 : ℝ) ≠ 0 ∧ idle.cfg.wheelBase.Denotes (1 / 2) ∧
      (1 / 2 : ℝ) ≠ 0 ∧ idle.odo.lastTime.Denotes 0 ∧ (NumVal.ofRat 1).Denotes 1 ∧ idle.odo.theta.Denotes 0 ∧
      tickDelta idle.par.tickDeltaMode (-25) idle.odo.lastLeft = -tickDelta idle.par.tickDeltaMode 25 idle.odo.lastRight ∧
      tickDelta idle.par.tickDeltaMode 0 idle.odo.lastRight = 0 := by
  have z := NumVal.denotes_ofRat 0
  have h := NumVal.denotes_ofRat (1 / 2)
  have c := NumVal.denotes_ofRat 100
  have o := NumVal.denotes_ofRat 1
  push_cast at z h c o
  exact ⟨rfl, c, by norm_num, h, by norm_num, z, o, z, by decide, by decide⟩

/-- V-UPD-11 is outside the range of the last clause; a step of 100 ticks is inside. -/
theorem witness_TickDifferencesWrap :
    -2147483648 ≤ (100 : Word).toInt - (0 : Word).toInt ∧ (100 : Word).toInt - (0 : Word).toInt ≤ 2147483647 ∧
      tickDelta .wrap32 (-2147483596) 2147483600 = 100 ∧ tickDelta .exact (-2147483596) 2147483600 = -4294967196 := by
  decide

theorem witness_MixComputesTheWheelRates :
    idle.phase = .idle ∧ (NumVal.ofRat 25).Denotes 25 ∧ 0 < RealNum.pi.val ∧ 0 < (RealNum.ofRat 1).val :=
  ⟨by decide, ⟨.ofRat 25, rfl, by simp⟩, Real.pi_pos, by simp⟩

theorem witness_FiniteOperandsRun :
    idle.phase = .idle ∧ (NumVal.ofRat 1).isFinite = true ∧ (NumVal.other (.finite 0)).isFinite = true := by
  decide

theorem witness_WireOperationsWriteOnlyTheRequest :
    (∀ now l r lv rv, Instr.readVersion ≠ .update now l r lv rv) ∧ (∀ a b c d, Instr.readVersion ≠ .mix a b c d) ∧
      exec .readVersion idle = .next (after (exec .readVersion idle)) := by
  refine ⟨by simp, by simp, rfl⟩

theorem witness_LocalOperationsTouchNoChannel :
    exec (.update none none none false false) idle = .next (after (exec (.update none none none false false) idle)) ∧
      exec (.mix (.ofRat 1) (.ofRat 0) (.ofRat 0) (.ofRat 1)) idle =
        .next (after (exec (.mix (.ofRat 1) (.ofRat 0) (.ofRat 0) (.ofRat 1)) idle)) := by
  refine ⟨rfl, rfl⟩

theorem witness_ConfigurationIsReadOnly : step sending = .next (after (step sending)) := rfl

/-- An `Update` that changes the integrator, and a `Mix` that changes the latches. -/
theorem witness_MotionRegistersHaveOneWriter :
    (let s := offering [encode (.update none none none false false)] [];
      step s = .next (after (step s)) ∧ (after (step s)).odo ≠ s.odo) ∧
    (let s := offering [encode (.mix (.ofRat 1) (.ofRat 0) (.ofRat 0) (.ofRat 1))] [];
      step s = .next (after (step s)) ∧ (after (step s)).mix ≠ s.mix) := by
  refine ⟨⟨rfl, by decide +kernel⟩, rfl, by decide +kernel⟩

/-- A completion in `RX`, and one in `TX`. -/
theorem witness_ResultsAreWrittenAtCompletion :
    (step ending = .next (after (step ending)) ∧ (after (step ending)).res ≠ ending.res) ∧
      step lastByte = .next (after (step lastByte)) ∧ (after (step lastByte)).res ≠ lastByte.res := by
  refine ⟨⟨rfl, by decide⟩, rfl, by decide⟩

/-- A set mark, a timeout that sets `desync`, and a reserved command that sets `refused`. -/
theorem witness_MarksAreSticky :
    (let s : State := { idle with desync := true, refused := some .rangeError };
      step s = .next (after (step s)) ∧ s.desync = true ∧ s.refused = some .rangeError) ∧
    (let s := receiving 0x05 0x52 .sWord 1 0xD2 0 [.timeout];
      step s = .next (after (step s)) ∧ (after (step s)).desync ≠ s.desync) ∧
    (let s := offering [⟨0x12, .zero⟩] [];
      step s = .next (after (step s)) ∧ (after (step s)).refused ≠ s.refused) := by
  refine ⟨⟨rfl, rfl, rfl⟩, ⟨rfl, by decide⟩, rfl, by decide⟩

theorem witness_StreamsAreUsedInOrder :
    (step sending = .next (after (step sending)) ∧ sending.phase = .tx) ∧
      step ending = .next (after (step ending)) ∧ ending.phase = .rx ∧ ending.link.rxAnswers ≠ [] := by
  refine ⟨⟨rfl, by decide⟩, rfl, by decide, by decide⟩

/-- A step that leaves both, a `Mix`, which writes the latches, and a timeout, which writes `desync`. -/
theorem witness_LatchesAndDesyncAreNeverRead :
    step ending = .next (after (step ending)) ∧
    (let s := offering [encode (.mix (.ofRat 1) (.ofRat 0) (.ofRat 0) (.ofRat 1))] [];
      step s = .next (after (step s)) ∧ (after (step s)).mix ≠ s.mix) ∧
    (let s := receiving 0x05 0x52 .sWord 1 0xD2 0 [.timeout];
      step s = .next (after (step s)) ∧ (after (step s)).desync ≠ s.desync) := by
  refine ⟨rfl, ⟨rfl, by decide +kernel⟩, rfl, by decide⟩

theorem witness_StepsKeepTheCodecInvariant :
    (CodecInv sending ∧ step sending = .next (after (step sending))) ∧
      CodecInv ending ∧ step ending = .next (after (step ending)) :=
  ⟨⟨sending_inv, rfl⟩, ending_inv, rfl⟩

/-- The defaults of log entries 5 and 6. -/
theorem witness_InvariantsHoldAfterReset :
    Params.default.initTime.wf = true ∧ Cfg.default.timeoutS.wf = true ∧ Cfg.default.updateRateHz.wf = true ∧
      Cfg.default.wheelBase.wf = true ∧ Cfg.default.ticksPerMeter.wf = true ∧ Cfg.default.kp.wf = true ∧
      Cfg.default.ki.wf = true ∧ Cfg.default.kd.wf = true := by
  decide

theorem witness_NoStepReadsAMissingRegister : CodecInv sending ∧ CodecInv ending := ⟨sending_inv, ending_inv⟩

theorem witness_InvalidResultsHoldNoValue : ResInv ending ∧ step ending = .next (after (step ending)) :=
  ⟨fun _ => ⟨rfl, rfl, rfl, rfl, rfl, rfl⟩, rfl⟩

/-- After a checksum mismatch. -/
theorem witness_InvalidResultsFaultOnThePort :
    let s : State := { idle with res := noValueResult 0x01 false .checksumMismatch }
    ResInv s ∧ s.res.resValid = some false :=
  ⟨fun _ => ⟨rfl, rfl, rfl, rfl, rfl, rfl⟩, rfl⟩

theorem witness_NumbersStayCanonical : NumsWf idle ∧ step idle = .next (after (step idle)) :=
  ⟨⟨by decide, by decide, by decide, by decide, fun c h => by cases h⟩, rfl⟩

theorem witness_ValidResultsMatchTheirChecksum :
    CodecInv ending ∧ ending.phase = .rx ∧ step ending = .next (after (step ending)) ∧
      (after (step ending)).phase = .idle ∧ (after (step ending)).res.resValid = some true ∧
      ending.codec.rxShape = some .sByte :=
  ⟨ending_inv, by decide, rfl, by decide, by decide, by decide⟩

theorem witness_OpenLeadsToIdleOrFatal :
    let s : State := { State.reset with host := ⟨[], [.openReq]⟩ }
    s.phase = .closed ∧ s.host.lifecycle = .openReq :: [] := by
  decide

/-- `FATAL` with nothing offered, with a `CLOSE`, and the `OPEN` that fails. -/
theorem witness_FatalIsTerminal :
    (let s : State := { idle with phase := .fatal };
      s.phase = .fatal ∧ s.host.lifecycle.head? ≠ some .closeReq) ∧
    (let s : State := { idle with phase := .fatal, host := ⟨[], [.closeReq]⟩ };
      s.phase = .fatal ∧ step s = .next (after (step s))) ∧
    (let s : State := { State.reset with host := ⟨[], [.openReq]⟩, link := { State.reset.link with openAnswers := [.fail] } };
      step s = .next (after (step s)) ∧ (after (step s)).phase = .fatal ∧ s.phase ≠ .fatal) := by
  refine ⟨by decide, ⟨by decide, rfl⟩, rfl, by decide, by decide⟩

theorem witness_CloseIsTakenInIdle :
    ((offering [] [.closeReq]).phase = .idle ∧ (offering [] [.closeReq]).host.lifecycle = .closeReq :: [] ∧
      (offering [] [.closeReq]).host.cmds = []) ∧
    (let s := offering [encode .readVersion] [.closeReq];
      s.phase = .idle ∧ s.host.lifecycle = .closeReq :: [] ∧ s.host.cmds = encode .readVersion :: []) ∧
    (sending.phase = .tx ∧ step sending = .next (after (step sending))) ∧
    (idle.phase = .idle ∧ idle.host.cmds = [] ∧ idle.host.lifecycle = []) ∧
    (State.reset.phase = .closed ∧ State.reset.host.lifecycle.head? ≠ some .openReq) := by
  refine ⟨by decide, by decide, ⟨by decide, rfl⟩, by decide, by decide⟩

/-- V-REF-3 and V-REF-2, fields that are negative irrationals or not finite, and the legal default. -/
theorem witness_ConstructionRefusesIllegalConfigurations :
    (let o : OpcTable := { OpcTable.default with encM1 := 0x15 };
      OpKind.version ≠ .encM1 ∧ o.get .version = o.get .encM1) ∧
    ((0 : ℝ) ≤ 0 ∧ ({ Cfg.default with wheelBase := .ofRat 0 } : Cfg).wheelBase.Denotes 0) ∧
    (-Real.pi ≤ 0 ∧ ({ Cfg.default with timeoutS := .real (.neg .pi) } : Cfg).timeoutS.Denotes (-Real.pi)) ∧
    ({ Cfg.default with kd := nan } : Cfg).kd.isFinite = false ∧
    (Cfg.default.timeoutS.Denotes 1 ∧ Cfg.default.updateRateHz.Denotes 1 ∧ Cfg.default.wheelBase.Denotes (1 / 2) ∧
      Cfg.default.ticksPerMeter.Denotes 100 ∧ Cfg.default.kp.Denotes 0 ∧ Cfg.default.ki.Denotes 0 ∧
      Cfg.default.kd.Denotes 0 ∧ (OpKind.all.map Params.default.opc.get).Nodup) ∧
    State.construct .default .default = .ok State.reset := by
  have z := NumVal.denotes_ofRat 0
  have h := NumVal.denotes_ofRat (1 / 2)
  have c := NumVal.denotes_ofRat 100
  have o := NumVal.denotes_ofRat 1
  push_cast at z h c o
  exact ⟨by decide, ⟨le_rfl, z⟩, ⟨by linarith [Real.pi_pos], _, rfl, rfl⟩, rfl, ⟨o, o, h, c, z, z, z, by decide⟩,
    by decide +kernel⟩

/-- The largest non-negative word and the least negative one, and a state for each error code and for none. -/
theorem witness_ResultPortReadings :
    (0x7FFFFFFF : Word).toNat < 2147483648 ∧ ¬(0x80000000 : Word).toNat < 2147483648 ∧
      (∀ e : Option ErrCode, ({ idle with res := { idle.res with resErr := e } } : State).res.resErr = e) ∧
      Params.default.leftIsM1 = true ∧ ({ Params.default with leftIsM1 := false } : Params).leftIsM1 = false :=
  ⟨by decide, by decide, fun _ => rfl, rfl, rfl⟩

/-- `IDLE` with a refusal before and without, an operation in progress, and the ends of a run in the three phases. -/
theorem witness_ShutdownStopsThenCloses :
    idle.phase = .idle ∧ ({ idle with refused := some .rangeError } : State).phase = .idle ∧ sending.phase = .tx ∧
      ending.phase = .rx ∧ idle.runEnded = true ∧ State.reset.runEnded = true ∧
      ({ idle with phase := .fatal } : State).runEnded = true ∧ idle.goodEnd = true ∧ State.reset.phase ≠ .idle := by
  decide

/-- The stop command is sent before the `CLOSE`: with it offered, the host does not yet request one. -/
theorem test_shutdown_order :
    idle.offerStop.offerClose.host.lifecycle = [] ∧
      onNext (fun t => t.offerClose.host.lifecycle) (step idle.offerStop) = some [] ∧
      idle.offerClose.host.lifecycle = [.closeReq] := by
  decide +kernel

/-- Comparisons and roundings of irrational numbers (`00_scope.md` R8): `cos (π / 2)` is 0, `cos (π / 4) ^ 2` is a half,
and `100 π` rounds to 314. -/
theorem test_real_comparisons :
    eqN (cosN (divN (.real .pi) (.ofRat 2))) (.ofRat 0) = true ∧
      eqN (mulN (cosN (divN (.real .pi) (.ofRat 4))) (cosN (divN (.real .pi) (.ofRat 4)))) (.ofRat (1 / 2)) = true ∧
      ltN (.real .pi) (.ofRat (22 / 7)) = true ∧ roundHalfAway (mulN (.real .pi) (.ofRat 100)) = 314 := by
  have p := NumVal.denotes_real .pi
  have d (q : ℚ) (h : (q : ℝ) ≠ 0) := divN_denotes p (NumVal.denotes_ofRat q) h
  have lo := Real.pi_gt_d4
  have hi := Real.pi_lt_d4
  refine ⟨?_, ?_, ?_, ?_⟩
  · rw [eqN_denotes (cosN_denotes (d 2 (by norm_num))) (NumVal.denotes_ofRat 0)]
    simp [RealNum.val]
  · rw [eqN_denotes (mulN_denotes (cosN_denotes (d 4 (by norm_num))) (cosN_denotes (d 4 (by norm_num))))
      (NumVal.denotes_ofRat _)]
    simp only [RealNum.val, Rat.cast_ofNat, Real.cos_pi_div_four]
    push_cast
    nlinarith [Real.sq_sqrt (show (0 : ℝ) ≤ 2 by norm_num)]
  · rw [ltN_denotes p (NumVal.denotes_ofRat _)]
    push_cast
    norm_num [RealNum.val]
    linarith
  · rw [mulN_real, roundHalfAway_real, RealNum.round_eq, RealNum.val_times, RealNum.val_ofRat, RealNum.val,
      if_pos (by push_cast; linarith)]
    exact Int.floor_eq_iff.mpr ⟨by push_cast; linarith, by push_cast; linarith⟩

end Sys2Proof.Tests
end

section
/-!
SUPPORT. Well-formed numbers stay well formed: the formulas of `Update` and `Mix`, the operands of a decoded command, and
every step of the block.
-/
namespace Sys2Proof.Machine

open Sys2Proof

/-! The formulas of motion -/

theorem wheelDist_wf {s : State} (h : s.cfg.ticksPerMeter.wf = true) (new last : Word) :
    (wheelDist s new last).wf = true :=
  divN_wf (NumVal.wf_ofRat _) h

theorem centreDist_wf {a b : NumVal} (ha : a.wf = true) (hb : b.wf = true) : (centreDist a b).wf = true :=
  divN_wf (addN_wf ha hb) (NumVal.wf_ofRat 2)

theorem headingDelta_wf {w a b : NumVal} (hw : w.wf = true) (ha : a.wf = true) (hb : b.wf = true) :
    (headingDelta w a b).wf = true :=
  divN_wf (subN_wf hb ha) hw

theorem velocityOf_wf {e q : NumVal} (he : e.wf = true) (hq : q.wf = true) : (velocityOf e q).wf = true := by
  unfold velocityOf
  split
  · exact NumVal.wf_ofRat 0
  · exact divN_wf hq he

theorem turn_wf {theta d : NumVal} (ht : theta.wf = true) (hd : d.wf = true) : (turn theta d).wf = true := by
  unfold turn
  split
  · exact ht
  · exact addN_wf ht hd

theorem translatePose_wf {theta dist d x y : NumVal} (ht : theta.wf = true) (hdist : dist.wf = true) (hd : d.wf = true)
    (hx : x.wf = true) (hy : y.wf = true) :
    (translatePose theta dist d x y).1.wf = true ∧ (translatePose theta dist d x y).2.wf = true := by
  have hdx := mulN_wf (cosN_wf hd) hdist
  have hdy := negN_wf (mulN_wf (sinN_wf hd) hdist)
  have hc := cosN_wf ht
  have hs := sinN_wf ht
  unfold translatePose
  split
  · exact ⟨hx, hy⟩
  · exact ⟨addN_wf hx (subN_wf (mulN_wf hdx hc) (mulN_wf hdy hs)),
      addN_wf hy (addN_wf (mulN_wf hdx hs) (mulN_wf hdy hc))⟩

theorem halfTurn_wf {a w : NumVal} (ha : a.wf = true) (hw : w.wf = true) : (halfTurn a w).wf = true :=
  divN_wf (mulN_wf ha hw) (NumVal.wf_ofRat 2)

theorem mixLeftRate_wf {l a w t : NumVal} (hl : l.wf = true) (ha : a.wf = true) (hw : w.wf = true) (ht : t.wf = true) :
    (mixLeftRate l a w t).wf = true :=
  mulN_wf (subN_wf hl (halfTurn_wf ha hw)) ht

theorem mixRightRate_wf {l a w t : NumVal} (hl : l.wf = true) (ha : a.wf = true) (hw : w.wf = true) (ht : t.wf = true) :
    (mixRightRate l a w t).wf = true :=
  mulN_wf (addN_wf hl (halfTurn_wf ha hw)) ht

/-- Every number of the integrator's registers is well formed: the part of `NumsWf` about them. -/
def OdoRegs.wf (o : OdoRegs) : Bool :=
  o.x.wf && o.y.wf && o.theta.wf && o.vLin.wf && o.vAng.wf && o.lastTime.wf

theorem OdoRegs.wf_iff {o : OdoRegs} :
    o.wf = true ↔ o.x.wf = true ∧ o.y.wf = true ∧ o.theta.wf = true ∧ o.vLin.wf = true ∧ o.vAng.wf = true ∧
      o.lastTime.wf = true := by
  simp only [OdoRegs.wf, Bool.and_eq_true, and_assoc]

/-- The integrator's new registers are well formed where the numbers that `Update` reads are (`42_odometry.md` R220). -/
theorem integrate_wf {s : State} {now : NumVal} (hw : s.cfg.wheelBase.wf = true) (ht : s.cfg.ticksPerMeter.wf = true)
    (ho : s.odo.wf = true) (hn : now.wf = true) (left right : Word) : (integrate s now left right).wf = true := by
  obtain ⟨hx, hy, htheta, -, -, hlast⟩ := OdoRegs.wf_iff.mp ho
  have hl := wheelDist_wf ht left s.odo.lastLeft
  have hr := wheelDist_wf ht right s.odo.lastRight
  have helapsed := subN_wf hn hlast
  have hdist := centreDist_wf hl hr
  have hturn := headingDelta_wf hw hl hr
  obtain ⟨hx', hy'⟩ := translatePose_wf htheta hdist hturn hx hy
  exact OdoRegs.wf_iff.mpr
    ⟨hx', hy', turn_wf htheta hturn, velocityOf_wf helapsed hdist, velocityOf_wf helapsed hturn, hn⟩

/-! The operands of a command -/

/-- An operation reads its operands from the record as they stand (`30_encoding.md` R109). -/
theorem decode_wf {c : Command} {i : Instr} (hc : c.operands.wf = true) (h : decode c = .ok i) : i.wf = true := by
  simp only [OperandRecord.wf, Bool.and_eq_true] at hc
  simp only [decode] at h
  split at h <;> cases h
  all_goals simp [Instr.wf, hc]

/-! The state -/

/-- The registers that `Update` reads are well formed. -/
theorem NumsWf.update_reads {s : State} (h : NumsWf s) :
    s.cfg.wheelBase.wf = true ∧ s.cfg.ticksPerMeter.wf = true ∧ s.odo.wf = true := by
  obtain ⟨-, hcfg, hodo, -⟩ := h
  simp only [Bool.and_eq_true] at hcfg
  obtain ⟨⟨⟨⟨⟨-, hwheel⟩, hticks⟩, -⟩, -⟩, -⟩ := hcfg
  exact ⟨hwheel, hticks, hodo⟩

@[simp] theorem numsWf_refuse {r : RefuseReason} {s : State} : NumsWf (s.refuse r) ↔ NumsWf s := Iff.rfl
@[simp] theorem numsWf_finish {r : ResRegs} {s : State} : NumsWf (s.finish r) ↔ NumsWf s := Iff.rfl
@[simp] theorem numsWf_sent {i : Nat} {b : Byte} {s : State} : NumsWf (s.sent i b) ↔ NumsWf s := Iff.rfl
@[simp] theorem numsWf_startRx {o : Byte} {s : State} : NumsWf (s.startRx o) ↔ NumsWf s := Iff.rfl
@[simp] theorem numsWf_sendCommand {op : Sel} {o : Byte} {p : List Byte} {sh : Shape} {s : State} :
    NumsWf (sendCommand op o p sh s) ↔ NumsWf s := Iff.rfl
@[simp] theorem numsWf_skipUpdate {s : State} : NumsWf s.skipUpdate ↔ NumsWf s := Iff.rfl
@[simp] theorem numsWf_popLifecycle {s : State} : NumsWf s.popLifecycle ↔ NumsWf s := Iff.rfl
@[simp] theorem numsWf_drawn {s : State} : NumsWf s.drawn ↔ NumsWf s := Iff.rfl
@[simp] theorem numsWf_openLink {s : State} : NumsWf (openLink s) ↔ NumsWf s := Iff.rfl
@[simp] theorem numsWf_closeLink {s : State} : NumsWf (closeLink s) ↔ NumsWf s := Iff.rfl

theorem NumsWf.popCmd {s : State} (h : NumsWf s) : NumsWf s.popCmd := by
  obtain ⟨hpar, hcfg, hodo, hmix, hcmds⟩ := h
  exact ⟨hpar, hcfg, hodo, hmix, fun c hc => hcmds c (List.mem_of_mem_tail hc)⟩

theorem NumsWf.withOdo {s : State} (h : NumsWf s) {o : OdoRegs} (ho : o.wf = true) : NumsWf { s with odo := o } := by
  obtain ⟨hpar, hcfg, -, hmix, hcmds⟩ := h
  exact ⟨hpar, hcfg, ho, hmix, hcmds⟩

theorem NumsWf.withMix {s : State} (h : NumsWf s) {l r : NumVal} (hl : l.wf = true) (hr : r.wf = true) (ready : Bool) :
    NumsWf { s with mix := ⟨some l, some r, ready⟩ } := by
  obtain ⟨hpar, hcfg, hodo, -, hcmds⟩ := h
  exact ⟨hpar, hcfg, hodo, Bool.and_eq_true_iff.mpr ⟨hl, hr⟩, hcmds⟩

/-- A transmit step writes no number. -/
theorem txStep_numsWf {s t : State} (h : NumsWf s) (hs : txStep s = .next t) : NumsWf t := by
  obtain ⟨frame, i, b, len, shape, -, -, -, -, -, ⟨-, rfl⟩ | ⟨-, -, hc⟩ | ⟨-, -, opc, -, rfl⟩⟩ := txStep_next hs
  · simpa using h
  · obtain ⟨op, r, -, rfl, -⟩ := complete_next hc
    simpa using h
  · simpa using h

/-- A receive step writes no number: it ends its operation or goes on, and takes an answer from the link. -/
theorem rxStep_numsWf {s t : State} (h : NumsWf s) (hs : rxStep s = .next t) : NumsWf t := by
  obtain ⟨c, -, -, -, rfl⟩ | ⟨c, op, r, d, -, -, rfl, -⟩ := rxStep_next hs
  · exact h
  · exact h

/-- The accept step of an operation with well-formed operands: only `Update` and `Mix` write numbers. -/
theorem exec_numsWf {i : Instr} {s t : State} (h : NumsWf s) (hi : i.wf = true) (hs : exec i s = .next t) :
    NumsWf t := by
  obtain ⟨-, rfl⟩ | ⟨-, ⟨kind, p, shape, rfl, -⟩ | ⟨r, rfl⟩ | ⟨now, l, r, rfl, -, rfl⟩ | ⟨-, rfl⟩ |
    ⟨a, b, c, d, rfl, rfl⟩⟩ := exec_cases hs
  · exact h
  · simpa using h
  · simpa using h
  · obtain ⟨hw, ht, ho⟩ := h.update_reads
    exact h.withOdo (integrate_wf hw ht ho hi l r)
  · simpa using h
  · simp only [Instr.wf, Bool.and_eq_true] at hi
    obtain ⟨⟨⟨ha, hb⟩, hc⟩, hd⟩ := hi
    exact h.withMix (mixLeftRate_wf ha hb hc hd) (mixRightRate_wf ha hb hc hd) true

/-- A step keeps every number well formed. -/
theorem step_numsWf {s t : State} (h : NumsWf s) (hs : step s = .next t) : NumsWf t := by
  obtain ⟨-, htx⟩ | ⟨-, hrx⟩ | ⟨-, -, rfl⟩ | ⟨-, -, rfl | rfl⟩ | ⟨-, c, u, hc, hu, hrun⟩ | ⟨-, rfl⟩ := step_cases hs
  · exact txStep_numsWf h htx
  · exact rxStep_numsWf h hrx
  · simpa using h
  · simpa using h
  · simpa using h
  · have hcwf : c.operands.wf = true := by
      obtain ⟨-, -, -, -, hcmds⟩ := h
      exact hcmds c (List.mem_of_mem_head? hc)
    have huwf : NumsWf u := by
      obtain rfl | rfl := hu
      · exact h.popCmd
      · exact (numsWf_drawn.mpr h).popCmd
    obtain ⟨i, hdec, hexec⟩ | ⟨e, -, rfl⟩ := hrun
    · exact exec_numsWf huwf (decode_wf hcwf hdec) hexec
    · simpa using huwf
  · exact h

/-- Settles O52, by the cases of a step: numbers are written by `Update` and `Mix` alone, from well-formed operands and
registers, by operations of `Num` that keep them well formed. -/
theorem numbersStayCanonical : Obligations.NumbersStayCanonical := by
  unfold Obligations.NumbersStayCanonical
  exact fun _ _ h hs => step_numsWf h hs

end Sys2Proof.Machine
end

section
/-!
SUPPORT. The codec's invariant: from a state that meets it a codec step goes on, to a state that meets it again.
-/
namespace Sys2Proof.Machine

open Sys2Proof

/-! Outside an operation, and on entering one -/

/-- The invariant speaks of `TX` and `RX` alone (`10_state.md` R22). -/
theorem codecInv_of_not_inOperation {s : State} (h : s.inOperation = false) : CodecInv s := by
  rcases hp : s.phase <;> simp_all [State.inOperation, CodecInv]

theorem finish_inOperation (r : ResRegs) (s : State) : (s.finish r).inOperation = false := rfl

theorem openLink_inOperation (s : State) : (openLink s).inOperation = false := by
  rcases ha : s.link.openAnswer.1 <;> simp [openLink, State.inOperation, ha]

theorem closeLink_inOperation (s : State) : (closeLink s).inOperation = false := by
  rcases hp : s.phase <;> simp [closeLink, State.inOperation, hp]

/-- A frame begins with the address and the opcode (`30_encoding.md` R90). -/
theorem frameBytes_head (a o : Byte) (p : List Byte) (k : Bool) :
    (frameBytes a o p k)[0]? = some a ∧ (frameBytes a o p k)[1]? = some o := by
  cases k <;> exact ⟨rfl, rfl⟩

/-- A frame with at most 16 payload bytes has 2 to 19 bytes (`10_state.md` R24). -/
theorem frameBytes_bounds {p : List Byte} (hp : p.length ≤ 16) (a o : Byte) (k : Bool) :
    2 ≤ (frameBytes a o p k).length ∧ (frameBytes a o p k).length ≤ 19 := by
  rw [frameBytes_length]
  split <;> omega

/-- A request of at most 16 payload bytes enters `TX` as the invariant asks (`40_codec.md` R131). -/
theorem sendCommand_codecInv (op : Sel) (kind : OpKind) {p : List Byte} (shape : Shape) (s : State)
    (hp : p.length ≤ 16) : CodecInv (sendCommand op (s.par.opc.get kind) p shape s) := by
  obtain ⟨h2, h19⟩ := frameBytes_bounds hp s.cfg.address (s.par.opc.get kind) (!(shape.isRead && !s.par.readReqChecksum))
  obtain ⟨h0, h1⟩ := frameBytes_head s.cfg.address (s.par.opc.get kind) p (!(shape.isRead && !s.par.readReqChecksum))
  exact ⟨op, _, _, 0, _, shape, rfl, rfl, rfl, rfl, rfl, rfl, rfl, by omega, h2, h19, h0, h1, ⟨kind, rfl⟩,
    reqChk_bit7 _ _ _⟩

/-- The accept step of an operation enters `TX` as the invariant asks, or stays out of an operation. -/
theorem exec_codecInv {i : Instr} {s t : State} (h : CodecInv s) (hs : exec i s = .next t) : CodecInv t := by
  obtain ⟨-, rfl⟩ | ⟨hp, ⟨kind, p, shape, rfl, hlen⟩ | ⟨r, rfl⟩ | ⟨now, l, r, -, -, rfl⟩ | ⟨-, rfl⟩ |
    ⟨a, b, c, d, -, rfl⟩⟩ := exec_cases hs
  · exact h
  · exact sendCommand_codecInv _ kind shape s hlen
  all_goals exact codecInv_of_not_inOperation (by simp [State.inOperation, hp])

/-! Completion -/

/-- The registers that a completion reads hold values (`40_codec.md` R139, R142). -/
def CanComplete (s : State) : Prop :=
  ∃ op shape, s.codec.curOp = some op ∧ s.codec.rxShape = some shape ∧
    match shape with
    | .sByte | .sWord | .sDword => ∃ v, s.codec.rxAcc = some v
    | .sDwordStatus => (∃ v, s.codec.rxAcc = some v) ∧ ∃ st, s.codec.rxStatus = some st
    | .sString => ∃ str, readString s.codec.rxStr.toList = some str
    | .sAck | .sNone => True

/-- A completion whose registers hold values goes on, to `IDLE`. -/
theorem complete_of_canComplete {s : State} (h : CanComplete s) (v : Bool) :
    ∃ r, complete v s = .next (s.finish r) := by
  obtain ⟨op, shape, hop, hshape, hregs⟩ := h
  cases v with
  | false => exact ⟨_, completeError_next.mpr ⟨op, hop, rfl⟩⟩
  | true =>
    simp only [complete, if_true, completeValid, hop, hshape, need_some]
    cases shape <;> simp only at hregs ⊢
    case sByte | sWord | sDword =>
      obtain ⟨acc, hacc⟩ := hregs
      exact ⟨_, by rw [hacc, need_some]⟩
    case sDwordStatus =>
      obtain ⟨⟨acc, hacc⟩, st, hst⟩ := hregs
      exact ⟨_, by rw [hacc, hst, need_some, need_some]⟩
    case sString =>
      obtain ⟨str, hstr⟩ := hregs
      exact ⟨_, by rw [hstr, need_some]⟩
    case sAck | sNone => exact ⟨_, rfl⟩

/-- The outcome goes on, to a state that meets the codec's invariant. -/
def GoesOn (o : Out) : Prop := ∃ t, o = .next t ∧ CodecInv t

/-- A read of a register with a value goes on where what it leads to does. -/
theorem need_goesOn {α : Type} {o : Option α} {a : α} {r : Reg} {k : α → Out} (h : o = some a) (hk : GoesOn (k a)) :
    GoesOn (need o r k) := by
  rwa [h, need_some]

theorem complete_goesOn {s : State} (h : CanComplete s) (v : Bool) : GoesOn (complete v s) := by
  obtain ⟨r, hr⟩ := complete_of_canComplete h v
  exact ⟨_, hr, codecInv_of_not_inOperation (finish_inOperation r s)⟩

theorem completeError_goesOn {s : State} {op : Sel} (h : s.codec.curOp = some op) (err : ErrCode) :
    GoesOn (completeError err s) :=
  ⟨_, completeError_next.mpr ⟨op, h, rfl⟩, codecInv_of_not_inOperation (finish_inOperation _ _)⟩

/-! The transmit step -/

/-- The response sum of no byte is its seed, as `rx_acc` 0 says it (`40_codec.md` R133). -/
theorem respSeed_eq_respSum (addr opc : Byte) : respSeed addr opc = respSum addr opc (bytes32 0) := by
  simp [respSum, bytes32, sum8]

/-- Reception starts as the invariant asks (`40_codec.md` R133). -/
theorem startRx_codecInv {s : State} {op : Sel} {opc chk : Byte} {shape : Shape} (hop : s.codec.curOp = some op)
    (hopc : s.codec.curOpc = some opc) (hchk : s.codec.txChk = some chk) (hshape : s.codec.rxShape = some shape)
    (hkind : ∃ k, opc = s.par.opc.get k) (hne : shape ≠ .sNone) : CodecInv (s.startRx opc) := by
  refine ⟨op, opc, chk, shape, 0, _, 0, false, hop, hopc, hchk, hshape, rfl, rfl, rfl, rfl, hkind, ?_⟩
  have hfixed : FixedRx (s.startRx opc) opc shape 0 (respSeed s.cfg.address opc) 0 :=
    ⟨Nat.zero_le _, by simp, by simpa using respSeed_eq_respSum _ _⟩
  cases shape with
  | sByte | sWord | sDword | sDwordStatus => exact hfixed
  | sString => exact ⟨by decide, [], rfl, by simp, by simp, by simp [respSum, sum8]⟩
  | sAck => rfl
  | sNone => exact absurd rfl hne

/-- After the frame of an operation with a response, reception starts (`40_codec.md` R132). -/
theorem endTx_of_response {s : State} {opc : Byte} {shape : Shape} (hne : shape ≠ .sNone)
    (hopc : s.codec.curOpc = some opc) : endTx shape s = .next (s.startRx opc) := by
  cases shape with
  | sNone => exact absurd rfl hne
  | sByte | sWord | sDword | sDwordStatus | sString | sAck => simp only [endTx, hopc, need_some]

/-- Under the invariant a transmit step sends the next byte of the frame, and its last byte ends an operation without a
response or starts reception (`40_codec.md` R132). -/
theorem txStep_goesOn {s : State} (hp : s.phase = .tx) (h : TxInv s) : GoesOn (txStep s) := by
  obtain ⟨op, opc, frame, i, chk, shape, hop, hopc, hframe, hlen, hidx, hchk, hshape, hi, h2, h19, h0, h1, hkind, hbit⟩ := h
  simp only [txStep, hframe, hidx, hlen, hshape, need_some]
  split
  · by_cases hnone : shape = .sNone
    · subst hnone
      exact complete_goesOn (s := s.sent i (frameByte frame i)) ⟨op, .sNone, hop, hshape, trivial⟩ true
    · exact ⟨_, endTx_of_response hnone hopc,
        startRx_codecInv (s := s.sent i (frameByte frame i)) hop hopc hchk hshape hkind hnone⟩
  · refine ⟨_, rfl, ?_⟩
    simp only [CodecInv, State.sent_phase, hp]
    exact ⟨op, opc, frame, i + 1, chk, shape, hop, hopc, hframe, hlen, rfl, hchk, hshape, by omega, h2, h19, h0, h1, hkind,
      hbit⟩

/-! The receive step -/

/-- A byte more in the response is a byte more in its sum. -/
theorem respSum_append_singleton (addr opc : Byte) (body : List Byte) (b : Byte) :
    respSum addr opc (body ++ [b]) = respSum addr opc body + b := by
  simp [respSum, sum8_append, sum8, BitVec.add_assoc]

theorem Shape.valueBytes_le_four (shape : Shape) : shape.valueBytes ≤ 4 := by cases shape <;> decide

theorem Shape.bodyBytes_le_succ_valueBytes (shape : Shape) : shape.bodyBytes ≤ shape.valueBytes + 1 := by
  cases shape <;> decide

theorem Shape.valueBytes_le_bodyBytes (shape : Shape) : shape.valueBytes ≤ shape.bodyBytes := by
  cases shape <;> decide

/-- A value byte goes into `rx_acc` and `rx_sum` alike (`40_codec.md` R134). -/
theorem FixedRx.takeValue {s : State} {opc sum : Byte} {shape : Shape} {i : Nat} {acc : Word}
    (h : FixedRx s opc shape i sum acc) (hi : i < shape.valueBytes) (b : Byte) :
    FixedRx s opc shape (i + 1) (sum + b) (accShift acc b) := by
  obtain ⟨-, hacc, hsum⟩ := h
  have h4 := shape.valueBytes_le_four
  have hbody := shape.valueBytes_le_bodyBytes
  rw [if_pos hi.le] at hsum
  have h24 : acc.toNat < 2 ^ 24 := hacc.trans_le (Nat.pow_le_pow_right (by omega) (by omega))
  refine ⟨by omega, toNat_accShift_lt acc b i (by omega) hacc, ?_⟩
  rw [if_pos (Nat.succ_le_of_lt hi), hsum]
  simp only [respSum, sum8_accShift acc b h24, BitVec.add_assoc]

/-- The status byte, after the value bytes, goes into `rx_status` and `rx_sum` (`40_codec.md` R134). -/
theorem FixedRx.takeStatus {s : State} {opc sum : Byte} {shape : Shape} {i : Nat} {acc : Word}
    (h : FixedRx s opc shape i sum acc) (hv : ¬ i < shape.valueBytes) (hi : i < shape.bodyBytes) (b : Byte) :
    FixedRx (s.takeStatus sum b) opc shape (i + 1) (sum + b) acc := by
  obtain ⟨-, hacc, hsum⟩ := h
  have hbody := shape.bodyBytes_le_succ_valueBytes
  rw [if_pos (by omega)] at hsum
  refine ⟨by omega, hacc.trans_le (Nat.pow_le_pow_right (by omega) (by omega)), ?_⟩
  rw [if_neg (by omega), hsum]
  exact ⟨b, rfl, (respSum_append_singleton _ _ _ _).symm⟩

/-- Once all its bytes are received a shape with a status has one. -/
theorem FixedRx.status {s : State} {opc sum : Byte} {i : Nat} {acc : Word}
    (h : FixedRx s opc .sDwordStatus i sum acc) (hi : ¬ i < Shape.sDwordStatus.bodyBytes) :
    ∃ st, s.codec.rxStatus = some st := by
  obtain ⟨-, -, hsum⟩ := h
  change ¬ i < 5 at hi
  have hv : ¬ i ≤ Shape.sDwordStatus.valueBytes := fun h4 => hi (Nat.lt_succ_of_le h4)
  rw [if_neg hv] at hsum
  obtain ⟨st, hst, -⟩ := hsum
  exact ⟨st, hst⟩

/-- The registers that `RxInv` asks values of, with those values. -/
def RxHolds (s : State) (opc : Byte) (shape : Shape) (i : Nat) (sum : Byte) (acc : Word) (term : Bool) : Prop :=
  ∃ op chk, s.codec.curOp = some op ∧ s.codec.curOpc = some opc ∧ s.codec.txChk = some chk ∧
    s.codec.rxShape = some shape ∧ s.codec.rxIdx = some i ∧ s.codec.rxSum = some sum ∧ s.codec.rxAcc = some acc ∧
    s.codec.rxTerm = some term ∧ ∃ k, opc = s.par.opc.get k

/-- Where `RxInv` says that the response is. -/
def ShapeRx (s : State) (opc : Byte) (shape : Shape) (i : Nat) (sum : Byte) (acc : Word) (term : Bool) : Prop :=
  match shape with
  | .sByte | .sWord | .sDword | .sDwordStatus => FixedRx s opc shape i sum acc
  | .sString => StringRx s opc i sum term
  | .sAck => i = 0
  | .sNone => False

theorem rxInv_iff {s : State} :
    RxInv s ↔ ∃ opc shape i sum acc term,
      RxHolds s opc shape i sum acc term ∧ ShapeRx s opc shape i sum acc term := by
  constructor
  · rintro ⟨op, opc, chk, shape, i, sum, acc, term, hop, hopc, hchk, hshape, hidx, hsum, hacc, hterm, hkind, h⟩
    exact ⟨opc, shape, i, sum, acc, term, ⟨op, chk, hop, hopc, hchk, hshape, hidx, hsum, hacc, hterm, hkind⟩, h⟩
  · rintro ⟨opc, shape, i, sum, acc, term, ⟨op, chk, hop, hopc, hchk, hshape, hidx, hsum, hacc, hterm, hkind⟩, h⟩
    exact ⟨op, opc, chk, shape, i, sum, acc, term, hop, hopc, hchk, hshape, hidx, hsum, hacc, hterm, hkind, h⟩

theorem codecInv_of_rx {s : State} {opc sum : Byte} {shape : Shape} {i : Nat} {acc : Word} {term : Bool}
    (hp : s.phase = .rx) (hr : RxHolds s opc shape i sum acc term) (h : ShapeRx s opc shape i sum acc term) :
    CodecInv s := by
  simp only [CodecInv, hp]
  exact rxInv_iff.mpr ⟨_, _, _, _, _, _, hr, h⟩

/-- The fixed shapes are those with value bytes. -/
theorem shapeRx_fixed {s : State} {opc sum : Byte} {shape : Shape} {i : Nat} {acc : Word} {term : Bool}
    (hv : 0 < shape.valueBytes) : ShapeRx s opc shape i sum acc term ↔ FixedRx s opc shape i sum acc := by
  cases shape <;> simp_all [ShapeRx, Shape.valueBytes]

/-- A fixed shape whose bytes are all received can complete. -/
theorem FixedRx.canComplete {s : State} {opc sum : Byte} {shape : Shape} {i j : Nat} {acc : Word} {term : Bool}
    (h : FixedRx s opc shape i sum acc) (hr : RxHolds s opc shape j sum acc term) (hv : 0 < shape.valueBytes)
    (hi : ¬ i < shape.bodyBytes) : CanComplete s := by
  obtain ⟨op, -, hop, -, -, hshape, -, -, hacc, -⟩ := hr
  refine ⟨op, shape, hop, hshape, ?_⟩
  cases shape with
  | sByte | sWord | sDword => exact ⟨acc, hacc⟩
  | sDwordStatus => exact ⟨⟨acc, hacc⟩, h.status hi⟩
  | sString | sAck | sNone => simp [Shape.valueBytes] at hv

/-- A byte of a fixed shape at index `i`, which `rx_idx` has counted (`40_codec.md` R134). -/
theorem rxFixed_goesOn {s : State} {opc sum : Byte} {shape : Shape} {i : Nat} {acc : Word} {term : Bool}
    (hp : s.phase = .rx) (hr : RxHolds s opc shape (i + 1) sum acc term) (h : FixedRx s opc shape i sum acc)
    (hv : 0 < shape.valueBytes) (b : Byte) : GoesOn (rxFixed shape i b s) := by
  obtain ⟨op, chk, hop, hopc, hchk, hshape, hidx, hsum, hacc, hterm, hkind⟩ := id hr
  simp only [rxFixed, hsum, hacc, need_some]
  split
  · next hi =>
    exact ⟨_, rfl, codecInv_of_rx (s := s.takeValue acc sum b) hp
      ⟨op, chk, hop, hopc, hchk, hshape, hidx, rfl, rfl, hterm, hkind⟩ ((shapeRx_fixed hv).mpr (h.takeValue hi b))⟩
  · next hi =>
    split
    · next hb =>
      exact ⟨_, rfl, codecInv_of_rx (s := s.takeStatus sum b) hp
        ⟨op, chk, hop, hopc, hchk, hshape, hidx, rfl, hacc, hterm, hkind⟩ ((shapeRx_fixed hv).mpr (h.takeStatus hi hb b))⟩
    · next hb => exact complete_goesOn (h.canComplete hr hv hb) _

/-- The array after a byte is written at the end of what is received. -/
theorem toList_takeChar {s : State} {i : Nat} (sum b : Byte) (term : Bool) {str : List Byte} (hi : i < strMax)
    (hstr : s.codec.rxStr.toList.take i = str.map some) :
    (s.takeChar i sum b term).codec.rxStr.toList =
      str.map some ++ some b :: s.codec.rxStr.toList.drop (i + 1) := by
  have hlen : i < s.codec.rxStr.toList.length := by simpa using hi
  have hset := List.set_eq_take_append_cons_drop (l := s.codec.rxStr.toList) (i := i) (a := some b)
  rw [if_pos hlen, hstr] at hset
  rw [← hset]
  exact Vector.toList_setIfInBounds

/-- A character goes into `rx_str` and `rx_sum`, and a zero byte ends the string (`40_codec.md` R139). -/
theorem StringRx.takeChar {s : State} {opc sum : Byte} {i : Nat} (h : StringRx s opc i sum false) (b : Byte)
    (hroom : ¬ (b ≠ 0 ∧ i = strMax - 1)) :
    StringRx (s.takeChar i sum b false) opc (i + 1) (sum + b) (if b = 0 then true else false) := by
  obtain ⟨hi, str, hlen, hnonzero, htake, hsum⟩ := h
  have harray := toList_takeChar sum b false hi htake
  have hsum' : sum + b = respSum s.cfg.address opc (str ++ [b]) := by rw [hsum, respSum_append_singleton]
  by_cases hb : b = 0
  · subst hb
    exact ⟨str ++ [0], by rw [harray, stringOf_map str hnonzero], by simp [hlen], hsum'⟩
  · rw [if_neg hb]
    have hlast : i ≠ strMax - 1 := fun h => hroom ⟨hb, h⟩
    refine ⟨by omega, str ++ [b], by simp [hlen], ?_, ?_, hsum'⟩
    · exact List.forall_mem_append.mpr ⟨hnonzero, by simpa using hb⟩
    · rw [harray]
      simp [List.take_append, hlen]

/-- A byte of a string at index `i`, which `rx_idx` has counted (`40_codec.md` R134, R139). -/
theorem rxString_goesOn {s : State} {opc sum : Byte} {i : Nat} {acc : Word} {term : Bool}
    (hp : s.phase = .rx) (hr : RxHolds s opc .sString (i + 1) sum acc term) (h : StringRx s opc i sum term) (b : Byte) :
    GoesOn (rxString i b s) := by
  obtain ⟨op, chk, hop, hopc, hchk, hshape, hidx, hsum, hacc, hterm, hkind⟩ := hr
  simp only [rxString, hterm, hsum, need_some]
  cases term with
  | true =>
    obtain ⟨str, hstr, -⟩ := h
    exact complete_goesOn ⟨op, .sString, hop, hshape, str, readString_of_stringOf hstr⟩ _
  | false =>
    rw [if_neg Bool.false_ne_true]
    split
    · exact completeError_goesOn (s := { s.takeChar i sum b false with desync := true }) hop _
    · next hroom =>
      exact ⟨_, rfl, codecInv_of_rx (s := s.takeChar i sum b false) hp
        ⟨op, chk, hop, hopc, hchk, hshape, hidx, rfl, hacc, rfl, hkind⟩ (h.takeChar b hroom)⟩

/-- The state once a byte received at index `i` is counted, with which `receive` goes on. -/
def State.counted (i : Nat) (s : State) : State := { s with codec := { s.codec with rxIdx := some (i + 1) } }

/-- Under the invariant a received byte goes where the shape says (`40_codec.md` R134). -/
theorem receive_goesOn {s : State} (hp : s.phase = .rx) (h : RxInv s) (b : Byte) : GoesOn (receive b s) := by
  obtain ⟨opc, shape, i, sum, acc, term, ⟨op, chk, hop, hopc, hchk, hshape, hidx, hregs⟩, h⟩ := rxInv_iff.mp h
  have hr : RxHolds (s.counted i) opc shape (i + 1) sum acc term :=
    ⟨op, chk, hop, hopc, hchk, hshape, rfl, hregs⟩
  refine need_goesOn hshape (need_goesOn hidx ?_)
  cases shape with
  | sByte | sWord | sDword | sDwordStatus => exact rxFixed_goesOn (s := s.counted i) hp hr h (by decide) b
  | sString => exact rxString_goesOn (s := s.counted i) hp hr h b
  | sAck =>
    exact need_goesOn hchk (complete_goesOn (s := s.counted i) ⟨op, .sAck, hop, hshape, trivial⟩ _)
  | sNone => exact h.elim

/-- Under the invariant a receive step goes on, whatever the environment answers (`20_memory.md` R63). -/
theorem rxStep_goesOn {s : State} (hp : s.phase = .rx) (h : RxInv s) : GoesOn (rxStep s) := by
  rcases ha : s.link.rxByte.1 with b | _
  · rw [rxStep_byte ha]
    exact receive_goesOn (s := { s with link := s.link.rxByte.2 }) hp h b
  · rw [rxStep_timeout ha]
    obtain ⟨op, -, -, -, -, -, -, -, hop, -⟩ := h
    exact completeError_goesOn (s := { s with link := s.link.rxByte.2, desync := true }) hop _

/-! The step -/

/-- Under the invariant an operation in progress goes on at every step. -/
theorem step_goesOn {s : State} (h : CodecInv s) (ho : s.inOperation = true) : GoesOn (step s) := by
  rcases hp : s.phase <;> simp only [State.inOperation, hp, Bool.false_eq_true] at ho
  · rw [step_tx hp]
    exact txStep_goesOn hp (by simpa only [CodecInv, hp] using h)
  · rw [step_rx hp]
    exact rxStep_goesOn hp (by simpa only [CodecInv, hp] using h)

/-- Settles O47: an operation in progress goes on to a state that meets the invariant, a command accepted enters `TX` as
the invariant asks, and every other step is one outside an operation. -/
theorem stepsKeepTheCodecInvariant : Obligations.StepsKeepTheCodecInvariant := by
  unfold Obligations.StepsKeepTheCodecInvariant
  intro s t h hs
  cases ho : s.inOperation with
  | true =>
    obtain ⟨u, hu, hinv⟩ := step_goesOn h ho
    rw [hs] at hu
    cases hu
    exact hinv
  | false =>
    obtain ⟨hp, -⟩ | ⟨hp, -⟩ | ⟨-, -, rfl⟩ | ⟨-, -, rfl | rfl⟩ | ⟨hp, c, u, -, hu, hrun⟩ | ⟨-, rfl⟩ := step_cases hs
    · simp [State.inOperation, hp] at ho
    · simp [State.inOperation, hp] at ho
    · exact codecInv_of_not_inOperation (openLink_inOperation _)
    · exact codecInv_of_not_inOperation (closeLink_inOperation _)
    · exact codecInv_of_not_inOperation (closeLink_inOperation _)
    · have hidle : u.inOperation = false := by obtain rfl | rfl := hu <;> exact ho
      obtain ⟨i, -, hexec⟩ | ⟨e, -, rfl⟩ := hrun
      · exact exec_codecInv (codecInv_of_not_inOperation hidle) hexec
      · exact codecInv_of_not_inOperation hidle
    · exact h

end Sys2Proof.Machine
end

section
/-!
SUPPORT. What a step leaves unchanged: the frame of the codec's steps and of the accept step, and from it who writes each
group of registers.
-/
namespace Sys2Proof.Machine

open Sys2Proof

/-! The codec's steps -/

/-- What no step of the codec writes: all but the phase, the codec, the results, `desync` and the link. -/
structure CodecKeeps (s t : State) : Prop where
  par : t.par = s.par
  cfg : t.cfg = s.cfg
  refused : t.refused = s.refused
  odo : t.odo = s.odo
  mix : t.mix = s.mix
  host : t.host = s.host

/-- A transmit step goes on, with its results and `desync` as they were, or ends its operation validly. -/
theorem txStep_frame {s t : State} (h : txStep s = .next t) :
    CodecKeeps s t ∧ t.desync = s.desync ∧ (t.res = s.res ∨ ∃ u, u.codec.curOp = s.codec.curOp ∧ Ends u t) := by
  obtain ⟨frame, i, b, len, shape, -, -, -, -, -, ⟨-, rfl⟩ | ⟨-, -, hc⟩ | ⟨-, -, opc, -, rfl⟩⟩ := txStep_next h
  · exact ⟨⟨rfl, rfl, rfl, rfl, rfl, rfl⟩, rfl, .inl rfl⟩
  · have hends : Ends (s.sent i b) t := ends_of_complete rfl rfl hc
    obtain ⟨op, r, -, rfl, -⟩ := complete_next hc
    exact ⟨⟨rfl, rfl, rfl, rfl, rfl, rfl⟩, rfl, .inr ⟨s.sent i b, rfl, hends⟩⟩
  · exact ⟨⟨rfl, rfl, rfl, rfl, rfl, rfl⟩, rfl, .inl rfl⟩

/-- A receive step goes on, with its results and `desync` as they were, or ends its operation. -/
theorem rxStep_frame {s t : State} (h : rxStep s = .next t) :
    CodecKeeps s t ∧ ((t.res = s.res ∧ t.desync = s.desync) ∨ Ends { s with link := s.link.rxByte.2 } t) := by
  obtain ⟨c, -, -, -, rfl⟩ | hends := rxStep_next h
  · exact ⟨⟨rfl, rfl, rfl, rfl, rfl, rfl⟩, .inl ⟨rfl, rfl⟩⟩
  · obtain ⟨c, op, r, d, -, -, rfl, -⟩ := id hends
    exact ⟨⟨rfl, rfl, rfl, rfl, rfl, rfl⟩, .inr hends⟩

theorem txStep_keeps {s t : State} (h : txStep s = .next t) : CodecKeeps s t := (txStep_frame h).1
theorem rxStep_keeps {s t : State} (h : rxStep s = .next t) : CodecKeeps s t := (rxStep_frame h).1

/-- The results of an operation that ends (`40_codec.md` R142, `60_exceptions.md` R270): a valid one is `OK`, and one with
an error holds no value. -/
theorem Ends.res_cases {s t : State} (h : Ends s t) :
    t.phase = .idle ∧ t.res.resReady = true ∧ t.res.resOp = s.codec.curOp ∧ (∃ op, s.codec.curOp = some op) ∧
    ((t.res.resValid = some true ∧ t.res.resErr = some .ok) ∨
      ∃ op err, err ≠ .ok ∧ err ≠ .transportUnavailable ∧ t.res = ResRegs.latched op false err) := by
  obtain ⟨c, op, r, d, -, hop, rfl, hready, hresOp, hout⟩ := h
  refine ⟨rfl, hready, by rw [hop]; exact hresOp, ⟨op, hop⟩, ?_⟩
  obtain ⟨-, hvalid, herr⟩ | ⟨-, rfl⟩ | ⟨-, rfl | rfl⟩ := hout
  · exact .inl ⟨hvalid, herr⟩
  all_goals exact .inr ⟨op, _, by simp, by simp, rfl⟩

/-- An operation that ends leaves `desync` as it was, or sets it with one of the two errors that do
(`10_state.md` R33). -/
theorem Ends.desync_cases {s t : State} (h : Ends s t) :
    t.desync = s.desync ∨
      (t.desync = true ∧ (t.res.resErr = some .transportTimeout ∨ t.res.resErr = some .malformedResponse)) := by
  obtain ⟨c, op, r, d, -, -, rfl, -, -, ⟨rfl, -⟩ | ⟨rfl, -⟩ | ⟨rfl, herr⟩⟩ := h
  · exact .inl rfl
  · exact .inl rfl
  · exact .inr ⟨rfl, herr.imp (by rintro rfl; rfl) (by rintro rfl; rfl)⟩

/-! The accept step -/

/-- What no accept step writes: the parameters, the configuration, the results, `desync`, the link and the offers. -/
structure AcceptKeeps (s t : State) : Prop where
  par : t.par = s.par
  cfg : t.cfg = s.cfg
  res : t.res = s.res
  desync : t.desync = s.desync
  link : t.link = s.link
  host : t.host = s.host

theorem exec_keeps {i : Instr} {s t : State} (h : exec i s = .next t) : AcceptKeeps s t := by
  obtain ⟨-, rfl⟩ | ⟨-, ⟨kind, p, shape, rfl, -⟩ | ⟨r, rfl⟩ | ⟨now, l, r, -, -, rfl⟩ | ⟨-, rfl⟩ |
    ⟨a, b, c, d, -, rfl⟩⟩ := exec_cases h
  all_goals exact ⟨rfl, rfl, rfl, rfl, rfl, rfl⟩

/-- An operation leaves the mark as it is, or is a refusal. -/
theorem exec_refused {i : Instr} {s t : State} (h : exec i s = .next t) :
    t.refused = s.refused ∨ ∃ r, t = s.refuse r := by
  obtain ⟨-, rfl⟩ | ⟨-, ⟨kind, p, shape, rfl, -⟩ | ⟨r, rfl⟩ | ⟨now, l, r, -, -, rfl⟩ | ⟨-, rfl⟩ |
    ⟨a, b, c, d, -, rfl⟩⟩ := exec_cases h
  case inr.inr.inl => exact .inr ⟨r, rfl⟩
  all_goals exact .inl rfl

/-- `Update` alone writes the integrator (`10_state.md` R35 to R38). -/
theorem exec_odo {i : Instr} {s t : State} (h : exec i s = .next t) :
    t.odo = s.odo ∨ ∃ now l r lv rv, i = .update now l r lv rv := by
  obtain ⟨-, rfl⟩ | ⟨-, ⟨kind, p, shape, rfl, -⟩ | ⟨r, rfl⟩ | ⟨now, l, r, hi, -, -⟩ | ⟨hi, -⟩ |
    ⟨a, b, c, d, -, rfl⟩⟩ := exec_cases h
  case inr.inr.inr.inl => exact .inr ⟨_, _, _, _, _, hi⟩
  case inr.inr.inr.inr.inl => exact .inr hi
  all_goals exact .inl rfl

/-- `Mix` alone writes the latches (`10_state.md` R39). -/
theorem exec_mix {i : Instr} {s t : State} (h : exec i s = .next t) :
    t.mix = s.mix ∨ ∃ a b c d, i = .mix a b c d := by
  obtain ⟨-, rfl⟩ | ⟨-, ⟨kind, p, shape, rfl, -⟩ | ⟨r, rfl⟩ | ⟨now, l, r, -, -, rfl⟩ | ⟨-, rfl⟩ |
    ⟨a, b, c, d, hi, -⟩⟩ := exec_cases h
  case inr.inr.inr.inr.inr => exact .inr ⟨a, b, c, d, hi⟩
  all_goals exact .inl rfl

/-! Faults -/

theorem accept_fault {s : State} {k : Out} {f : Fault} (h : accept s k = .fault f) :
    s.phase = .idle ∧ k = .fault f := by
  by_cases hp : s.phase = .idle
  · exact ⟨hp, by rwa [accept_idle hp] at h⟩
  · rw [accept_busy hp] at h
    cases h

theorem accept_refuseCommand_ne_fault {s : State} {r : RefuseReason} {f : Fault} :
    accept s (refuseCommand r s) ≠ .fault f := by
  intro h
  obtain ⟨-, h⟩ := accept_fault h
  cases h

theorem startWire_ne_fault {op : Sel} {kind : OpKind} {p : List Byte} {shape : Shape} {s : State} {f : Fault} :
    startWire op kind p shape s ≠ .fault f := by
  intro h
  obtain ⟨-, h⟩ := accept_fault h
  cases h

theorem setVelocityPid_ne_fault {op : Sel} {kind : OpKind} {kd kp ki : NumVal} {qpps : Word} {s : State} {f : Fault} :
    setVelocityPid op kind kd kp ki qpps s ≠ .fault f := by
  unfold setVelocityPid
  split
  · exact startWire_ne_fault
  · exact accept_refuseCommand_ne_fault

theorem execSetMixedSpeed_ne_fault {left right : NumVal} {s : State} {f : Fault} :
    execSetMixedSpeed left right s ≠ .fault f := by
  unfold execSetMixedSpeed
  split
  · exact startWire_ne_fault
  · exact accept_refuseCommand_ne_fault

theorem updateValid_fault {now : Option NumVal} {left right : Option Word} {s : State} {f : Fault}
    (h : updateValid now left right s = .fault f) : f = .operandNoValue := by
  unfold updateValid at h
  split at h
  · cases h; rfl
  · split at h
    · split at h
      · cases h
      · cases h; rfl
    · cases h

/-- An accept step is a fault in `IDLE` only, and for a missing operand of `Update` only (`41_operations.md` R188). -/
theorem exec_fault {i : Instr} {s : State} {f : Fault} (h : exec i s = .fault f) :
    s.phase = .idle ∧ f = .operandNoValue := by
  cases i
  case update now l r lv rv =>
    obtain ⟨hp, h⟩ := accept_fault h
    refine ⟨hp, ?_⟩
    split at h
    · exact updateValid_fault h
    · cases h
  case mix a b c d =>
    obtain ⟨-, h⟩ := accept_fault h
    split at h <;> cases h
  case setMixedSpeed => exact absurd h execSetMixedSpeed_ne_fault
  case setM1VelocityPID | setM2VelocityPID => exact absurd h setVelocityPid_ne_fault
  all_goals exact absurd h startWire_ne_fault

/-- Outside `IDLE` an operation changes nothing (`10_state.md` R45). -/
theorem exec_busy {i : Instr} {s : State} (hp : s.phase ≠ .idle) : exec i s = .next s := by
  cases hx : exec i s with
  | next t =>
    obtain ⟨-, rfl⟩ | ⟨hidle, -⟩ := exec_cases hx
    · rfl
    · exact absurd hidle hp
  | fault f =>
    obtain ⟨hidle, -⟩ := exec_fault hx
    exact absurd hidle hp
  | refused q => exact absurd hx exec_not_refused

/-- Outside an operation nothing is transmitted or received (`10_state.md` R22). -/
theorem nextAction_of_not_inOperation {s : State} (ho : s.inOperation = false) :
    nextAction s ≠ .transmit ∧ nextAction s ≠ .receive := by
  rcases hp : s.phase
  case tx | rx => simp [State.inOperation, hp] at ho
  case closed | fatal =>
    simp only [nextAction, hp]
    split <;> simp
  case idle =>
    simp only [nextAction, hp, idleAction]
    split
    case h_2 => split <;> simp
    all_goals simp

/-- Outside an operation a step is a fault for a missing operand of `Update`, or in `FATAL` (`60_exceptions.md` R274). -/
theorem step_fault {s : State} {f : Fault} (ho : s.inOperation = false) (h : step s = .fault f) :
    f = .operandNoValue ∨ f = .transportUnavailable := by
  obtain ⟨htx, hrx⟩ := nextAction_of_not_inOperation ho
  unfold step at h
  split at h
  case h_1 ha => exact absurd ha htx
  case h_2 ha => exact absurd ha hrx
  case h_5 c u _ =>
    unfold acceptCommand at h
    split at h
    · obtain ⟨-, hf⟩ := exec_fault h
      exact .inl hf
    · next e _ => cases e; cases h
  case h_7 => cases h; exact .inr rfl
  all_goals cases h

/-! The step -/

/-- The state in which a command is accepted: it is taken from the port, and a free choice may be drawn. -/
def State.taking (draws : Nat) (cmds : List Command) (s : State) : State :=
  { s with link := { s.link with draws := draws }, host := { s.host with cmds := cmds } }

/-- The command `c` is accepted from the state `u`: its operation's accept step, or the refusal of a reserved selector
(`41_operations.md` R170, `30_encoding.md` R110). -/
def Accepts (c : Command) (u t : State) : Prop :=
  (∃ i, decode c = .ok i ∧ exec i u = .next t) ∨ t = u.refuse .reservedCommand

theorem Accepts.keeps {c : Command} {u t : State} (h : Accepts c u t) : AcceptKeeps u t := by
  obtain ⟨i, -, hexec⟩ | rfl := h
  · exact exec_keeps hexec
  · exact ⟨rfl, rfl, rfl, rfl, rfl, rfl⟩

theorem Accepts.refused {c : Command} {u t : State} (h : Accepts c u t) :
    t.refused = u.refused ∨ ∃ r, t = u.refuse r := by
  obtain ⟨i, -, hexec⟩ | rfl := h
  · exact exec_refused hexec
  · exact .inr ⟨_, rfl⟩

/-- The kinds of a step: of the codec; of the lifecycle port, or none, which writes no register but the phase; or the
accept step of the first command. -/
theorem step_kinds {s t : State} (h : step s = .next t) :
    (s.phase = .tx ∧ txStep s = .next t) ∨
    (s.phase = .rx ∧ rxStep s = .next t) ∨
    (∃ ph l ls, t = { s with phase := ph, link := l, host := { s.host with lifecycle := ls } }) ∨
    (s.phase = .idle ∧ ∃ c n cs, s.host.cmds.head? = some c ∧ Accepts c (s.taking n cs) t) := by
  obtain htx | hrx | ⟨-, -, rfl⟩ | ⟨-, -, rfl | rfl⟩ | ⟨hp, c, u, hc, hu, hrun⟩ | ⟨-, rfl⟩ := step_cases h
  · exact .inl htx
  · exact .inr (.inl hrx)
  · exact .inr (.inr (.inl ⟨_, _, _, rfl⟩))
  · exact .inr (.inr (.inl ⟨_, _, _, rfl⟩))
  · exact .inr (.inr (.inl ⟨_, _, _, rfl⟩))
  · have htaking : ∃ n cs, u = s.taking n cs := by
      obtain rfl | rfl := hu
      · exact ⟨s.link.draws, s.host.cmds.tail, rfl⟩
      · exact ⟨s.link.draws + 1, s.host.cmds.tail, rfl⟩
    obtain ⟨n, cs, rfl⟩ := htaking
    exact .inr (.inr (.inr ⟨hp, c, n, cs, hc, hrun.imp id fun ⟨_, _, ht⟩ => ht⟩))
  · exact .inr (.inr (.inl ⟨_, _, _, rfl⟩))

/-- Over a step the results are as they were, or are those of an operation that ends (`40_codec.md` R142). -/
theorem step_res {s t : State} (h : step s = .next t) :
    t.res = s.res ∨ ((s.phase = .tx ∨ s.phase = .rx) ∧ ∃ u, u.codec.curOp = s.codec.curOp ∧ Ends u t) := by
  obtain ⟨hp, htx⟩ | ⟨hp, hrx⟩ | ⟨ph, l, ls, rfl⟩ | ⟨-, c, n, cs, -, hacc⟩ := step_kinds h
  · obtain ⟨-, -, hres⟩ := txStep_frame htx
    exact hres.imp_right fun hends => ⟨.inl hp, hends⟩
  · obtain ⟨-, ⟨hres, -⟩ | hends⟩ := rxStep_frame hrx
    · exact .inl hres
    · exact .inr ⟨.inr hp, { s with link := s.link.rxByte.2 }, rfl, hends⟩
  · exact .inl rfl
  · exact .inl hacc.keeps.res

/-- Over a step `desync` is as it was, or is set by a receive step that ends its operation (`10_state.md` R33). -/
theorem step_desync {s t : State} (h : step s = .next t) :
    t.desync = s.desync ∨ (t.desync = true ∧ s.phase = .rx ∧ t.phase = .idle ∧
      (t.res.resErr = some .transportTimeout ∨ t.res.resErr = some .malformedResponse)) := by
  obtain ⟨-, htx⟩ | ⟨hp, hrx⟩ | ⟨ph, l, ls, rfl⟩ | ⟨-, c, n, cs, -, hacc⟩ := step_kinds h
  · obtain ⟨-, hdesync, -⟩ := txStep_frame htx
    exact .inl hdesync
  · obtain ⟨-, ⟨-, hdesync⟩ | hends⟩ := rxStep_frame hrx
    · exact .inl hdesync
    · obtain ⟨hidle, -⟩ := hends.res_cases
      exact hends.desync_cases.imp_right fun ⟨hset, herr⟩ => ⟨hset, hp, hidle, herr⟩
  · exact .inl rfl
  · exact .inl hacc.keeps.desync

/-- Over a step the `refused` mark is as it was, or the step is a refusal in `IDLE` (`10_state.md` R34). -/
theorem step_refused {s t : State} (h : step s = .next t) :
    t.refused = s.refused ∨ (s.phase = .idle ∧ ∃ n cs r, t = (s.taking n cs).refuse r) := by
  obtain ⟨-, htx⟩ | ⟨-, hrx⟩ | ⟨ph, l, ls, rfl⟩ | ⟨hp, c, n, cs, -, hacc⟩ := step_kinds h
  · exact .inl (txStep_keeps htx).refused
  · exact .inl (rxStep_keeps hrx).refused
  · exact .inl rfl
  · exact hacc.refused.imp_right fun ⟨r, ht⟩ => ⟨hp, n, cs, r, ht⟩

/-! The statements -/

/-- Settles O5: outside `IDLE` an operation changes nothing, and no step takes a command. -/
theorem commandsWaitOutsideIdle : Obligations.CommandsWaitOutsideIdle := by
  unfold Obligations.CommandsWaitOutsideIdle
  refine ⟨fun i s hp => exec_busy hp, fun s t hp hs => ?_⟩
  obtain ⟨-, htx⟩ | ⟨-, hrx⟩ | ⟨ph, l, ls, rfl⟩ | ⟨hidle, -⟩ := step_kinds hs
  · rw [(txStep_keeps htx).host]
  · rw [(rxStep_keeps hrx).host]
  · rfl
  · exact absurd hidle hp

/-- Settles O41, by the frames of the codec's steps and of the accept step. -/
theorem configurationIsReadOnly : Obligations.ConfigurationIsReadOnly := by
  unfold Obligations.ConfigurationIsReadOnly
  intro s t hs
  obtain ⟨-, htx⟩ | ⟨-, hrx⟩ | ⟨ph, l, ls, rfl⟩ | ⟨-, c, n, cs, -, hacc⟩ := step_kinds hs
  · exact ⟨(txStep_keeps htx).cfg, (txStep_keeps htx).par⟩
  · exact ⟨(rxStep_keeps hrx).cfg, (rxStep_keeps hrx).par⟩
  · exact ⟨rfl, rfl⟩
  · exact ⟨hacc.keeps.cfg, hacc.keeps.par⟩

/-- Settles O42: of the kinds of a step only an accept step writes motion registers, and of the operations `Update` the
integrator and `Mix` the latches. -/
theorem motionRegistersHaveOneWriter : Obligations.MotionRegistersHaveOneWriter := by
  unfold Obligations.MotionRegistersHaveOneWriter
  intro s t hs
  obtain ⟨-, htx⟩ | ⟨-, hrx⟩ | ⟨ph, l, ls, rfl⟩ | ⟨hp, c, n, cs, hc, ⟨i, hdec, hexec⟩ | rfl⟩ := step_kinds hs
  · exact ⟨fun hne => absurd (txStep_keeps htx).odo hne, fun hne => absurd (txStep_keeps htx).mix hne⟩
  · exact ⟨fun hne => absurd (rxStep_keeps hrx).odo hne, fun hne => absurd (rxStep_keeps hrx).mix hne⟩
  · exact ⟨fun hne => absurd rfl hne, fun hne => absurd rfl hne⟩
  · constructor
    · intro hne
      obtain hodo | ⟨now, l, r, lv, rv, rfl⟩ := exec_odo hexec
      · exact absurd hodo hne
      · exact ⟨hp, c, now, l, r, lv, rv, hc, hdec⟩
    · intro hne
      obtain hmix | ⟨a, b, e, d, rfl⟩ := exec_mix hexec
      · exact absurd hmix hne
      · exact ⟨hp, c, a, b, e, d, hc, hdec⟩
  · exact ⟨fun hne => absurd rfl hne, fun hne => absurd rfl hne⟩

/-- Settles O43: a result that changes is that of an operation that ends. -/
theorem resultsAreWrittenAtCompletion : Obligations.ResultsAreWrittenAtCompletion := by
  unfold Obligations.ResultsAreWrittenAtCompletion
  intro s t hs hne
  obtain hres | ⟨hp, u, hop, hends⟩ := step_res hs
  · exact absurd hres hne
  · obtain ⟨hidle, hready, hresOp, ⟨op, hcur⟩, ⟨hvalid, herr⟩ | ⟨op', err, hok, hopen, hlatched⟩⟩ := hends.res_cases
    · refine ⟨hp, hidle, hready, by rw [hresOp, hop], by simp [hresOp, hcur], ?_⟩
      simp [hvalid, herr]
    · refine ⟨hp, hidle, hready, by rw [hresOp, hop], by simp [hresOp, hcur], ?_⟩
      simp [hlatched, hok, hopen]

/-- Settles O44: `desync` changes by being set, and the `refused` mark by a refusal, which keeps a mark that is set. -/
theorem marksAreSticky : Obligations.MarksAreSticky := by
  unfold Obligations.MarksAreSticky
  intro s t hs
  refine ⟨fun hset => ?_, fun r hr => ?_, fun hne => ?_, fun hne => ?_⟩
  · obtain hsame | ⟨hset', -⟩ := step_desync hs
    · rw [hsame, hset]
    · exact hset'
  · obtain hsame | ⟨-, n, cs, r', rfl⟩ := step_refused hs
    · rw [hsame, hr]
    · simp [State.taking, hr]
  · obtain hsame | ⟨-, hwhen⟩ := step_desync hs
    · exact absurd hsame hne
    · exact hwhen
  · obtain hsame | ⟨hp, n, cs, r, rfl⟩ := step_refused hs
    · exact absurd hsame hne
    · exact ⟨hp, rfl⟩

/-- Settles O49: an operation in progress goes on, and any other step is a fault for another reason or none. -/
theorem noStepReadsAMissingRegister : Obligations.NoStepReadsAMissingRegister := by
  unfold Obligations.NoStepReadsAMissingRegister
  intro s r hinv hs
  cases ho : s.inOperation with
  | true =>
    obtain ⟨t, ht, -⟩ := step_goesOn hinv ho
    rw [ht] at hs
    cases hs
  | false => obtain hf | hf := step_fault ho hs <;> cases hf

/-! The result port's invariant -/

/-- The result of an error holds no value (`10_state.md` R30). -/
theorem resInv_of_latched {s : State} {op : Sel} {v : Bool} {err : ErrCode}
    (h : s.res = ResRegs.latched op v err) : ResInv s := by
  intro _
  rw [h]
  exact ⟨rfl, rfl, rfl, rfl, rfl, rfl⟩

/-- Settles O50: results that a step writes are valid, or those of an error, which hold no value. -/
theorem invalidResultsHoldNoValue : Obligations.InvalidResultsHoldNoValue := by
  unfold Obligations.InvalidResultsHoldNoValue
  intro s t hinv hs
  obtain hres | ⟨-, u, -, hends⟩ := step_res hs
  · unfold ResInv
    rw [hres]
    exact hinv
  · obtain ⟨-, -, -, -, ⟨hvalid, -⟩ | ⟨op, err, -, -, hlatched⟩⟩ := hends.res_cases
    · exact fun hne => absurd hvalid hne
    · exact resInv_of_latched hlatched

end Sys2Proof.Machine
end

section
/-!
SUPPORT. Nothing reads the mixer's latches or `desync`: a step from a state with other ones mirrors the step from the
state itself.
-/
namespace Sys2Proof.Machine

open Sys2Proof

/-- The state with other latches and another `desync`. -/
def State.withUnread (m : MixRegs) (d : Bool) (s : State) : State := { s with mix := m, desync := d }

@[simp] theorem State.withUnread_par (m : MixRegs) (d : Bool) (s : State) : (s.withUnread m d).par = s.par := rfl
@[simp] theorem State.withUnread_phase (m : MixRegs) (d : Bool) (s : State) : (s.withUnread m d).phase = s.phase := rfl
@[simp] theorem State.withUnread_link (m : MixRegs) (d : Bool) (s : State) : (s.withUnread m d).link = s.link := rfl
@[simp] theorem State.withUnread_host (m : MixRegs) (d : Bool) (s : State) : (s.withUnread m d).host = s.host := rfl

/-- The outcome `o'` of a run with latches `m` and `desync` `d` mirrors the outcome `o` of another: its state is the same
but for these, and each of them is left as it was or holds what the other run leaves in it. -/
def Mirrors (m : MixRegs) (d : Bool) (o o' : Out) : Prop :=
  ∀ t, o = .next t → ∃ m' d', (m' = m ∨ m' = t.mix) ∧ (d' = d ∨ d' = t.desync) ∧ o' = .next (t.withUnread m' d')

section
variable {m : MixRegs} {d : Bool} {s : State}

/-! How outcomes are made -/

theorem mirrors_next : Mirrors m d (.next s) (.next (s.withUnread m d)) := by
  rintro t ⟨⟩
  exact ⟨m, d, .inl rfl, .inl rfl, rfl⟩

theorem mirrors_fault {f : Fault} {o : Out} : Mirrors m d (.fault f) o := by
  rintro t ⟨⟩

theorem mirrors_need {α : Type} {o : Option α} {r : Reg} {k k' : α → Out} (h : ∀ a, Mirrors m d (k a) (k' a)) :
    Mirrors m d (need o r k) (need o r k') := by
  cases o with
  | none => exact mirrors_fault
  | some a => exact h a

theorem mirrors_ite {c : Prop} [Decidable c] {a a' b b' : Out} (ha : Mirrors m d a a') (hb : Mirrors m d b b') :
    Mirrors m d (if c then a else b) (if c then a' else b') := by
  split
  · exact ha
  · exact hb

theorem mirrors_accept {k k' : Out} (h : Mirrors m d k k') :
    Mirrors m d (accept s k) (accept (s.withUnread m d) k') := by
  by_cases hp : s.phase = .idle
  · rwa [accept_idle hp, accept_idle (s := s.withUnread m d) hp]
  · rw [accept_busy hp, accept_busy (s := s.withUnread m d) hp]
    exact mirrors_next

/-! The codec's steps -/

theorem mirrors_completeError (err : ErrCode) :
    Mirrors m d (completeError err s) (completeError err (s.withUnread m d)) :=
  mirrors_need fun _ => mirrors_next

theorem mirrors_complete (v : Bool) : Mirrors m d (complete v s) (complete v (s.withUnread m d)) := by
  cases v with
  | false => exact mirrors_completeError _
  | true =>
    refine mirrors_need fun op => mirrors_need fun shape => ?_
    cases shape with
    | sByte | sWord | sDword | sString => exact mirrors_need fun _ => mirrors_next
    | sDwordStatus => exact mirrors_need fun _ => mirrors_need fun _ => mirrors_next
    | sAck | sNone => exact mirrors_next

/-- An error that sets `desync` sets it in both runs (`40_codec.md` R139, R141). -/
theorem mirrors_completeError_desync (err : ErrCode) :
    Mirrors m d (completeError err { s with desync := true })
      (completeError err { s.withUnread m d with desync := true }) := by
  refine mirrors_need fun op => ?_
  rintro t ⟨⟩
  exact ⟨m, true, .inl rfl, .inr rfl, rfl⟩

theorem mirrors_txStep : Mirrors m d (txStep s) (txStep (s.withUnread m d)) := by
  refine mirrors_need fun frame => mirrors_need fun i => mirrors_need fun len => mirrors_need fun shape =>
    mirrors_ite ?_ mirrors_next
  cases shape with
  | sNone => exact mirrors_complete (s := s.sent i (frameByte frame i)) true
  | sByte | sWord | sDword | sDwordStatus | sString | sAck => exact mirrors_need fun _ => mirrors_next

theorem mirrors_rxFixed (shape : Shape) (i : Nat) (b : Byte) :
    Mirrors m d (rxFixed shape i b s) (rxFixed shape i b (s.withUnread m d)) :=
  mirrors_need fun _ =>
    mirrors_ite (mirrors_need fun _ => mirrors_next) (mirrors_ite mirrors_next (mirrors_complete _))

theorem mirrors_rxString (i : Nat) (b : Byte) : Mirrors m d (rxString i b s) (rxString i b (s.withUnread m d)) :=
  mirrors_need fun term => mirrors_need fun sum => mirrors_ite (mirrors_complete _)
    (mirrors_ite (mirrors_completeError_desync (s := s.takeChar i sum b term) _) mirrors_next)

theorem mirrors_receive (b : Byte) : Mirrors m d (receive b s) (receive b (s.withUnread m d)) := by
  refine mirrors_need fun shape => mirrors_need fun i => ?_
  cases shape with
  | sByte | sWord | sDword | sDwordStatus => exact mirrors_rxFixed (s := s.counted i) _ i b
  | sString => exact mirrors_rxString (s := s.counted i) i b
  | sAck => exact mirrors_need fun _ => mirrors_complete (s := s.counted i) _
  | sNone => exact mirrors_next

theorem mirrors_rxStep : Mirrors m d (rxStep s) (rxStep (s.withUnread m d)) := by
  rcases ha : s.link.rxByte.1 with b | _
  · rw [rxStep_byte ha, rxStep_byte (s := s.withUnread m d) ha]
    exact mirrors_receive (s := { s with link := s.link.rxByte.2 }) b
  · rw [rxStep_timeout ha, rxStep_timeout (s := s.withUnread m d) ha]
    exact mirrors_completeError_desync (s := { s with link := s.link.rxByte.2 }) _

/-! The accept step -/

theorem mirrors_startWire (op : Sel) (kind : OpKind) (p : List Byte) (shape : Shape) :
    Mirrors m d (startWire op kind p shape s) (startWire op kind p shape (s.withUnread m d)) :=
  mirrors_accept mirrors_next

theorem mirrors_setVelocityPid (op : Sel) (kind : OpKind) (kd kp ki : NumVal) (qpps : Word) :
    Mirrors m d (setVelocityPid op kind kd kp ki qpps s) (setVelocityPid op kind kd kp ki qpps (s.withUnread m d)) := by
  unfold setVelocityPid
  split
  · exact mirrors_startWire _ _ _ _
  · exact mirrors_accept mirrors_next

theorem mirrors_execSetMixedSpeed (left right : NumVal) :
    Mirrors m d (execSetMixedSpeed left right s) (execSetMixedSpeed left right (s.withUnread m d)) := by
  simp only [execSetMixedSpeed, State.withUnread_par]
  split
  · exact mirrors_startWire _ _ _ _
  · exact mirrors_accept mirrors_next

theorem mirrors_updateValid (now : Option NumVal) (left right : Option Word) :
    Mirrors m d (updateValid now left right s) (updateValid now left right (s.withUnread m d)) := by
  cases now with
  | none => exact mirrors_fault
  | some t =>
    refine mirrors_ite ?_ mirrors_next
    cases left <;> cases right
    case some.some l r => exact mirrors_next
    all_goals exact mirrors_fault

theorem mirrors_execUpdate (now : Option NumVal) (left right : Option Word) (lv rv : Bool) :
    Mirrors m d (execUpdate now left right lv rv s) (execUpdate now left right lv rv (s.withUnread m d)) :=
  mirrors_accept (mirrors_ite (mirrors_updateValid now left right) mirrors_next)

/-- `Mix` leaves the same latches in both runs (`43_mixer.md` R250). -/
theorem mirrors_execMix (a b c e : NumVal) : Mirrors m d (execMix a b c e s) (execMix a b c e (s.withUnread m d)) := by
  refine mirrors_accept (mirrors_ite ?_ mirrors_next)
  rintro t ⟨⟩
  exact ⟨_, d, .inr rfl, .inl rfl, rfl⟩

theorem mirrors_exec (i : Instr) : Mirrors m d (exec i s) (exec i (s.withUnread m d)) := by
  cases i
  case setM1VelocityPID | setM2VelocityPID => exact mirrors_setVelocityPid _ _ _ _ _ _
  case setMixedSpeed => exact mirrors_execSetMixedSpeed _ _
  case update => exact mirrors_execUpdate _ _ _ _ _
  case mix => exact mirrors_execMix _ _ _ _
  all_goals exact mirrors_startWire _ _ _ _

theorem mirrors_acceptCommand (c : Command) : Mirrors m d (acceptCommand c s) (acceptCommand c (s.withUnread m d)) := by
  unfold acceptCommand
  split
  · exact mirrors_exec _
  · next e _ => cases e; exact mirrors_next

/-! The step -/

/-- The action with other latches and another `desync` in the state after its offer is taken. -/
def Action.withUnread (m : MixRegs) (d : Bool) : Action → Action
  | .openLink t => .openLink (t.withUnread m d)
  | .closeLink t => .closeLink (t.withUnread m d)
  | .command c t => .command c (t.withUnread m d)
  | .transmit => .transmit
  | .receive => .receive
  | .wait => .wait
  | .stuck => .stuck

theorem idleAction_withUnread : idleAction (s.withUnread m d) = (idleAction s).withUnread m d := by
  unfold idleAction
  simp only [State.withUnread_host, State.withUnread_link]
  split
  case h_2 => rw [apply_ite (Action.withUnread m d)]; rfl
  all_goals rfl

theorem nextAction_withUnread : nextAction (s.withUnread m d) = (nextAction s).withUnread m d := by
  unfold nextAction
  simp only [State.withUnread_host, State.withUnread_phase]
  split
  case h_3 => exact idleAction_withUnread
  case h_4 | h_5 => split <;> rfl
  all_goals rfl

theorem mirrors_step : Mirrors m d (step s) (step (s.withUnread m d)) := by
  unfold step
  rw [nextAction_withUnread]
  cases nextAction s with
  | transmit => exact mirrors_txStep
  | receive => exact mirrors_rxStep
  | openLink t | closeLink t | wait => exact mirrors_next
  | command c t => exact mirrors_acceptCommand c
  | stuck => exact mirrors_fault

end

/-- Settles O46: a step from the state with other latches and another `desync` mirrors the step from the state. -/
theorem latchesAndDesyncAreNeverRead : Obligations.LatchesAndDesyncAreNeverRead := by
  unfold Obligations.LatchesAndDesyncAreNeverRead
  exact fun s t m d hs => mirrors_step t hs

end Sys2Proof.Machine
end

section
/-! SUPPORT. Construction, the reset state and the host's read of the result port. -/
namespace Sys2Proof.Machine

open Sys2Proof

/-! Legal configurations -/

theorem isFinite_of_denotes {a : NumVal} {x : ℝ} (h : a.Denotes x) : a.isFinite = true := by
  obtain ⟨e, rfl, -⟩ := h
  rfl

theorem positive_denotes {a : NumVal} {x : ℝ} (h : a.Denotes x) : a.positive = true ↔ 0 < x := by
  rw [NumVal.positive, isFinite_of_denotes h, Bool.true_and, ltN_denotes (NumVal.denotes_ofRat 0) h, Rat.cast_zero]

theorem nonnegative_denotes {a : NumVal} {x : ℝ} (h : a.Denotes x) : a.nonnegative = true ↔ 0 ≤ x := by
  rw [NumVal.nonnegative, isFinite_of_denotes h, Bool.true_and, leN_denotes (NumVal.denotes_ofRat 0) h, Rat.cast_zero]

theorem isFinite_of_positive {a : NumVal} (h : a.positive = true) : a.isFinite = true :=
  (Bool.and_eq_true_iff.mp h).1

theorem isFinite_of_nonnegative {a : NumVal} (h : a.nonnegative = true) : a.isFinite = true :=
  (Bool.and_eq_true_iff.mp h).1

/-- The legal values of `10_state.md` R21, field by field. -/
theorem Cfg.legal_iff {c : Cfg} :
    c.legal = true ↔ c.timeoutS.positive = true ∧ 0 < c.baud ∧ c.updateRateHz.positive = true ∧
      c.wheelBase.positive = true ∧ c.ticksPerMeter.positive = true ∧ c.kp.nonnegative = true ∧
      c.ki.nonnegative = true ∧ c.kd.nonnegative = true := by
  simp only [Cfg.legal, Bool.and_eq_true, decide_eq_true_eq, and_assoc]

theorem Cfg.finite_of_legal {c : Cfg} (h : c.legal = true) :
    c.timeoutS.isFinite = true ∧ c.updateRateHz.isFinite = true ∧ c.wheelBase.isFinite = true ∧
      c.ticksPerMeter.isFinite = true ∧ c.kp.isFinite = true ∧ c.ki.isFinite = true ∧ c.kd.isFinite = true := by
  obtain ⟨htimeout, -, hrate, hbase, hticks, hkp, hki, hkd⟩ := Cfg.legal_iff.mp h
  exact ⟨isFinite_of_positive htimeout, isFinite_of_positive hrate, isFinite_of_positive hbase,
    isFinite_of_positive hticks, isFinite_of_nonnegative hkp, isFinite_of_nonnegative hki, isFinite_of_nonnegative hkd⟩

theorem OpcTable.distinct_iff {t : OpcTable} : t.distinct = true ↔ (OpKind.all.map t.get).Nodup := decide_eq_true_iff

/-- A table of distinct values has no two kinds of one opcode (`30_encoding.md` R108). -/
theorem OpcTable.get_injective {t : OpcTable} (h : t.distinct = true) {k k' : OpKind} (hk : t.get k = t.get k') :
    k = k' := by
  have hkind := OpcTable.kindOf_get h k
  rw [hk, OpcTable.kindOf_get h k'] at hkind
  exact (Option.some.inj hkind).symm

/-! Construction -/

theorem legalConfig_iff {p : Params} {c : Cfg} :
    legalConfig p c = true ↔ c.legal = true ∧ p.opc.distinct = true := Bool.and_eq_true_iff

theorem construct_eq_ok_iff {p : Params} {c : Cfg} {s : State} :
    State.construct p c = .ok s ↔ (c.legal = true ∧ p.opc.distinct = true) ∧ s = State.resetWith p c := by
  rw [← legalConfig_iff]
  unfold State.construct
  split
  · next h => simp [h, eq_comm]
  · next h => simp [h]

/-- Construction is refused where the configuration or the opcode table is not legal (`10_state.md` R46). -/
theorem construct_refused {p : Params} {c : Cfg} (h : ¬ (c.legal = true ∧ p.opc.distinct = true)) :
    State.construct p c = .error .invalidConfig :=
  if_neg (mt legalConfig_iff.mp h)

/-- With real fields a configuration is legal exactly where the real numbers are in the ranges of `10_state.md` R21. -/
theorem Cfg.legal_denotes {c : Cfg} {timeout rate base tpm kp ki kd : ℝ} (htimeout : c.timeoutS.Denotes timeout)
    (hrate : c.updateRateHz.Denotes rate) (hbase : c.wheelBase.Denotes base) (htpm : c.ticksPerMeter.Denotes tpm)
    (hkp : c.kp.Denotes kp) (hki : c.ki.Denotes ki) (hkd : c.kd.Denotes kd) :
    c.legal = true ↔ 0 < timeout ∧ 0 < rate ∧ 0 < base ∧ 0 < tpm ∧ 0 ≤ kp ∧ 0 ≤ ki ∧ 0 ≤ kd ∧ 0 < c.baud := by
  rw [Cfg.legal_iff, positive_denotes htimeout, positive_denotes hrate, positive_denotes hbase, positive_denotes htpm,
    nonnegative_denotes hkp, nonnegative_denotes hki, nonnegative_denotes hkd]
  tauto

theorem positive_ofRat {q : ℚ} (h : 0 < q) : (NumVal.ofRat q).positive = true :=
  (positive_denotes (NumVal.denotes_ofRat q)).mpr (Rat.cast_pos.mpr h)

theorem nonnegative_ofRat {q : ℚ} (h : 0 ≤ q) : (NumVal.ofRat q).nonnegative = true :=
  (nonnegative_denotes (NumVal.denotes_ofRat q)).mpr (Rat.cast_nonneg.mpr h)

theorem Cfg.default_legal : Cfg.default.legal = true :=
  Cfg.legal_iff.mpr ⟨positive_ofRat one_pos, one_pos, positive_ofRat one_pos, positive_ofRat (by norm_num),
    positive_ofRat (by norm_num), nonnegative_ofRat le_rfl, nonnegative_ofRat le_rfl, nonnegative_ofRat le_rfl⟩

/-- Settles O58: construction answers the reset state exactly where the configuration is legal and the opcodes are
distinct, and each clause is about one condition of that. -/
theorem constructionRefusesIllegalConfigurations : Obligations.ConstructionRefusesIllegalConfigurations := by
  unfold Obligations.ConstructionRefusesIllegalConfigurations
  refine ⟨?equalOpcodes, ?notPositive, ?notFinite, ?realFields, ?answer, ?default⟩
  case equalOpcodes => exact fun p c k k' hne hk => construct_refused fun ⟨_, hopc⟩ => hne (OpcTable.get_injective hopc hk)
  case notPositive =>
    intro p c x hx hfield
    refine construct_refused fun ⟨hlegal, _⟩ => hx.not_gt ?_
    obtain ⟨htimeout, -, -, hbase, hticks, -⟩ := Cfg.legal_iff.mp hlegal
    obtain hden | hden | hden := hfield
    · exact (positive_denotes hden).mp hbase
    · exact (positive_denotes hden).mp hticks
    · exact (positive_denotes hden).mp htimeout
  case notFinite =>
    intro p c hfield
    refine construct_refused fun ⟨hlegal, _⟩ => ?_
    obtain ⟨htimeout, hrate, hbase, hticks, hkp, hki, hkd⟩ := Cfg.finite_of_legal hlegal
    simp [htimeout, hrate, hbase, hticks, hkp, hki, hkd] at hfield
  case realFields =>
    intro p c timeout rate base tpm kp ki kd htimeout hrate hbase htpm hkp hki hkd hopc
    rw [construct_eq_ok_iff, Cfg.legal_denotes htimeout hrate hbase htpm hkp hki hkd]
    simp [OpcTable.distinct_iff.mpr hopc]
  case answer => exact fun p c s h => (construct_eq_ok_iff.mp h).2
  case default => exact construct_eq_ok_iff.mpr ⟨⟨Cfg.default_legal, by decide⟩, rfl⟩

/-! The reset state -/

/-- Settles O57, by the definition of the reset state. -/
theorem resetValuesAreTheSpecs : Obligations.ResetValuesAreTheSpecs := by
  unfold Obligations.ResetValuesAreTheSpecs
  intro p c
  simp [State.resetWith]

theorem resetWith_codecInv (p : Params) (c : Cfg) : CodecInv (State.resetWith p c) :=
  codecInv_of_not_inOperation rfl

theorem resetWith_resInv (p : Params) (c : Cfg) : ResInv (State.resetWith p c) :=
  fun _ => ⟨rfl, rfl, rfl, rfl, rfl, rfl⟩

/-- The numbers of the reset state are 0 and those of its parameters and configuration. -/
theorem resetWith_numsWf {p : Params} {c : Cfg} (htime : p.initTime.wf = true) (htimeout : c.timeoutS.wf = true)
    (hrate : c.updateRateHz.wf = true) (hbase : c.wheelBase.wf = true) (hticks : c.ticksPerMeter.wf = true)
    (hkp : c.kp.wf = true) (hki : c.ki.wf = true) (hkd : c.kd.wf = true) : NumsWf (State.resetWith p c) := by
  refine ⟨htime, ?_, ?_, rfl, fun _ hc => absurd hc List.not_mem_nil⟩
  · simp [State.resetWith, htimeout, hrate, hbase, hticks, hkp, hki, hkd]
  · simp [State.resetWith, NumVal.wf_ofRat, htime]

/-- Settles O48: after reset no operation is in progress, no register of the results holds a value, and the numbers are
given ones and 0. -/
theorem invariantsHoldAfterReset : Obligations.InvariantsHoldAfterReset := by
  unfold Obligations.InvariantsHoldAfterReset
  refine ⟨fun p c => ⟨resetWith_codecInv p c, resetWith_resInv p c⟩,
    fun p c htime htimeout hrate hbase hticks hkp hki hkd =>
      resetWith_numsWf htime htimeout hrate hbase hticks hkp hki hkd,
    resetWith_codecInv _ _, resetWith_resInv _ _, ?_⟩
  exact resetWith_numsWf rfl rfl rfl rfl rfl rfl rfl rfl

/-! The result port -/

@[simp] theorem readPort_some {α : Type} (r : Reg) (a : α) : readPort r (some a) = .ok a := rfl
@[simp] theorem readPort_none {α : Type} (r : Reg) : readPort r (none : Option α) = .error (.noValue r) := rfl

/-- Settles O51: the result port's invariant leaves the value registers without a value, and the host's read of one is a
fault. -/
theorem invalidResultsFaultOnThePort : Obligations.InvalidResultsFaultOnThePort := by
  unfold Obligations.InvalidResultsFaultOnThePort
  intro s hinv hvalid
  obtain ⟨hvalue, hstatus, hm1, hm2, hstr, hlen⟩ := hinv (by simp [hvalid])
  simp [State.readValid, State.readValue, State.readStatus, State.readM1, State.readM2, State.readStr, State.readStrLen,
    State.encoderReading, hvalid, hvalue, hstatus, hm1, hm2, hstr, hlen, Except.map]

end Sys2Proof.Machine
end

section
/-! SUPPORT. What each kind of step does to the transmit stream and to the list of answers. -/
namespace Sys2Proof.Machine

open Sys2Proof

/-- An answer is the first of the list, and the rest is left; past the list's end none is (`20_memory.md` R63). -/
@[simp] theorem Link.rxByte_rxAnswers (l : Link) : l.rxByte.2.rxAnswers = l.rxAnswers.tail := by
  cases h : l.rxAnswers with
  | nil => simp [Link.rxByte_nil h, h]
  | cons a rest => simp [Link.rxByte_cons h]

/-- A transmit step writes one byte to the link and nothing else there, also where it ends the frame
(`20_memory.md` R62, R70). -/
theorem txStep_link {s t : State} (h : txStep s = .next t) :
    ∃ b, t.link = { s.link with txStream := s.link.txStream ++ [b] } := by
  obtain ⟨frame, i, b, len, shape, -, -, -, -, -, ⟨-, rfl⟩ | ⟨-, -, hc⟩ | ⟨-, -, opc, -, rfl⟩⟩ := txStep_next h
  · exact ⟨b, rfl⟩
  · obtain ⟨op, r, -, rfl, -⟩ := complete_next hc
    exact ⟨b, rfl⟩
  · exact ⟨b, rfl⟩

/-- A receive step takes one answer from the link, whether its operation goes on or ends (`20_memory.md` R63, R71). -/
theorem rxStep_link {s t : State} (h : rxStep s = .next t) : t.link = s.link.rxByte.2 := by
  obtain ⟨c, -, -, -, rfl⟩ | ⟨c, op, r, d, -, -, rfl, -⟩ := rxStep_next h
  · rfl
  · rfl

/-- Outside `TX` and `RX` a step leaves both streams: it draws a free choice or takes an answer to `OPEN` at most. -/
theorem step_streams_of_not_codec {s t : State} (hntx : s.phase ≠ .tx) (hnrx : s.phase ≠ .rx)
    (h : step s = .next t) : t.link.txStream = s.link.txStream ∧ t.link.rxAnswers = s.link.rxAnswers := by
  obtain ⟨htx, -⟩ | ⟨hrx, -⟩ | ⟨-, -, rfl⟩ | ⟨-, -, rfl | rfl⟩ | ⟨-, c, u, -, hu, hrun⟩ | ⟨-, rfl⟩ := step_cases h
  · exact absurd htx hntx
  · exact absurd hrx hnrx
  · exact ⟨Link.openAnswer_txStream s.link, Link.openAnswer_rxAnswers s.link⟩
  · exact ⟨rfl, rfl⟩
  · exact ⟨rfl, rfl⟩
  · have hacc : Accepts c u t := hrun.imp_right fun ⟨_, _, ht⟩ => ht
    rw [hacc.keeps.link]
    obtain rfl | rfl := hu
    · exact ⟨rfl, rfl⟩
    · exact ⟨rfl, rfl⟩
  · exact ⟨rfl, rfl⟩

/-- Settles O45: a transmit step appends its byte, a receive step takes its answer, and any other step leaves both
streams. -/
theorem streamsAreUsedInOrder : Obligations.StreamsAreUsedInOrder := by
  unfold Obligations.StreamsAreUsedInOrder
  intro s t hs
  by_cases htx : s.phase = .tx
  · rw [step_tx htx] at hs
    obtain ⟨b, hlink⟩ := txStep_link hs
    simp [htx, hlink]
  by_cases hrx : s.phase = .rx
  · rw [step_rx hrx] at hs
    simp [hrx, rxStep_link hs]
  · obtain ⟨hstream, hanswers⟩ := step_streams_of_not_codec htx hrx hs
    simp [htx, hrx, hstream, hanswers]

end Sys2Proof.Machine
end

section
/-! SUPPORT. The command port's encoding: every operation decodes from its command, and the reserved selectors from none. -/
namespace Sys2Proof.Machine

open Sys2Proof

theorem decode_encode (i : Instr) : decode (encode i) = .ok i := by
  cases i <;> rfl

/-- The selectors above those of the operations stand for none (`30_encoding.md` R110). -/
theorem decode_reserved {c : Command} (h : 0x12 ≤ c.sel.toNat) : decode c = .error (.reservedCommand c.sel) := by
  unfold decode
  split
  case h_19 => rfl
  all_goals omega

/-- In `IDLE`, with no `CLOSE` offered, the first command is taken from the port. -/
theorem step_idle_command {s : State} {c : Command} {cs : List Command} (hp : s.phase = .idle)
    (hl : s.host.lifecycle.head? ≠ some .closeReq) (hc : s.host.cmds = c :: cs) :
    step s = acceptCommand c { s with host := { s.host with cmds := cs } } := by
  have hpop : s.popCmd = { s with host := { s.host with cmds := cs } } := by simp [State.popCmd, hc]
  rw [← hpop]
  rcases hlife : s.host.lifecycle.head? with _ | _ | _
  case some.closeReq => exact absurd hlife hl
  all_goals simp [step, nextAction, hp, idleAction, hlife, hc]

/-- Settles O2, by evaluation. -/
theorem commandWordsDecode : Obligations.CommandWordsDecode := by
  unfold Obligations.CommandWordsDecode
  exact ⟨rfl, rfl, rfl, rfl, rfl, rfl, rfl, rfl⟩

/-- Settles O3, by the cases of the operation. -/
theorem decodeInvertsEncode : Obligations.DecodeInvertsEncode := by
  unfold Obligations.DecodeInvertsEncode
  exact decode_encode

/-- Settles O4: the command is taken, and one that decodes to no operation is refused. -/
theorem reservedCommandsAreRefused : Obligations.ReservedCommandsAreRefused := by
  unfold Obligations.ReservedCommandsAreRefused
  intro s c cs hsel hp hl hc
  have hdec := decode_reserved hsel
  refine ⟨hdec, ?_⟩
  rw [step_idle_command hp hl hc, acceptCommand, hdec]
  rfl

end Sys2Proof.Machine
end

section
/-! SUPPORT. The link's encoding: bytes read as a request exactly where they are the frame of that request. -/
namespace Sys2Proof

/-- The bytes that follow a request's payload: its checksum byte, or none (`30_encoding.md` R92). -/
def OpKind.checksumBytes (p : Params) (addr opc : Byte) (kind : OpKind) (payload : List Byte) : List Byte :=
  if kind.isRead && !p.readReqChecksum then [] else [reqChk addr opc payload]

theorem Request.frame_eq (p : Params) (addr : Byte) (r : Request) :
    r.frame p addr =
      addr :: p.opc.get r.kind :: (r.payload ++ OpKind.checksumBytes p addr (p.opc.get r.kind) r.kind r.payload) := by
  unfold Request.frame OpKind.checksumBytes frameBytes
  cases r.kind.isRead && !p.readReqChecksum <;> simp

theorem Request.wf_iff {r : Request} : r.wf = true ↔ r.words.length = r.kind.payloadWords := beq_iff_eq

theorem Request.payload_length {r : Request} (h : r.wf = true) : r.payload.length = 4 * r.kind.payloadWords := by
  rw [Request.payload, length_flatMap_bytes32, Request.wf_iff.mp h]

/-- The bytes after the address and the opcode read as a request exactly where they are its payload and its checksum
byte. -/
theorem parseBody_eq_ok_iff {p : Params} {addr opc : Byte} {kind : OpKind} {rest : List Byte} {r : Request} :
    parseBody p addr opc kind rest = .ok r ↔
      r.kind = kind ∧ r.wf = true ∧ rest = r.payload ++ OpKind.checksumBytes p addr opc kind r.payload := by
  have hchecksum : ∀ payload, (if kind.isRead && !p.readReqChecksum then [] else [reqChk addr opc payload]) =
      OpKind.checksumBytes p addr opc kind payload := fun _ => rfl
  simp only [parseBody, hchecksum]
  constructor
  · intro h
    split at h
    case isFalse => cases h
    next hlen =>
    split at h
    case isFalse => cases h
    next hdrop =>
    split at h
    case h_2 => cases h
    next ws hws =>
    cases h
    have hpayload := flatMap_of_wordsOf _ _ hws
    have hcount := congrArg List.length hpayload
    rw [length_flatMap_bytes32, List.length_take, hlen] at hcount
    refine ⟨rfl, Request.wf_iff.mpr (by simp only; omega), ?_⟩
    simp only [Request.payload, hpayload]
    rw [← hdrop, List.take_append_drop]
  · rintro ⟨rfl, hwf, rfl⟩
    have hlen := Request.payload_length hwf
    rw [← hlen, List.take_left, List.drop_left, List.length_append, if_pos rfl, if_pos rfl, Request.payload,
      wordsOf_flatMap]

/-- Bytes read as a request exactly where they are the address, an opcode of its kind and its body. -/
theorem parseFrame_eq_ok_iff {p : Params} {addr : Byte} {bytes : List Byte} {r : Request} :
    parseFrame p addr bytes = .ok r ↔
      ∃ opc rest, bytes = addr :: opc :: rest ∧ p.opc.kindOf opc = some r.kind ∧
        parseBody p addr opc r.kind rest = .ok r := by
  constructor
  · intro h
    unfold parseFrame at h
    split at h
    case h_2 => cases h
    next a opc rest =>
    split at h
    case isFalse => cases h
    next ha =>
    split at h
    case h_2 => cases h
    next kind hkind =>
    obtain ⟨rfl, -⟩ := parseBody_eq_ok_iff.mp h
    exact ⟨opc, rest, by rw [ha], hkind, h⟩
  · rintro ⟨opc, rest, rfl, hkind, hbody⟩
    simp only [parseFrame, if_true, hkind, hbody]

theorem parseFrame_frame {p : Params} {addr : Byte} {r : Request} (hd : p.opc.distinct = true) (hr : r.wf = true) :
    parseFrame p addr (r.frame p addr) = .ok r :=
  parseFrame_eq_ok_iff.mpr
    ⟨_, _, Request.frame_eq p addr r, OpcTable.kindOf_get hd r.kind, parseBody_eq_ok_iff.mpr ⟨rfl, hr, rfl⟩⟩

theorem frame_of_parseFrame {p : Params} {addr : Byte} {bytes : List Byte} {r : Request}
    (h : parseFrame p addr bytes = .ok r) : r.wf = true ∧ r.frame p addr = bytes := by
  obtain ⟨opc, rest, rfl, hkind, hbody⟩ := parseFrame_eq_ok_iff.mp h
  obtain ⟨-, hwf, rfl⟩ := parseBody_eq_ok_iff.mp hbody
  exact ⟨hwf, by rw [Request.frame_eq, OpcTable.get_of_kindOf hkind]⟩

/-- The request that an operation sends has the words that its kind carries. -/
theorem Instr.request_wf {p : Params} {i : Instr} {r : Request} (h : i.request p = some r) : r.wf = true := by
  cases i <;> simp only [Instr.request, Option.some.injEq, reduceCtorEq] at h
  case setM1VelocityPID | setM2VelocityPID =>
    split at h <;> cases h
    rfl
  case setMixedSpeed =>
    split at h <;> cases h
    cases p.leftIsM1 <;> rfl
  all_goals subst h; rfl

/-- Settles O6: the frame's opcode stands for the request's kind alone, and its body reads back. -/
theorem framesReadBack : Obligations.FramesReadBack := by
  unfold Obligations.FramesReadBack
  exact ⟨fun _ _ _ hd hr => parseFrame_frame hd hr, fun _ _ _ h => Instr.request_wf h⟩

/-- Settles O7: bytes that read as a request are an address, an opcode and a body, and these make up its frame. -/
theorem onlyFramesReadBack : Obligations.OnlyFramesReadBack := by
  unfold Obligations.OnlyFramesReadBack
  exact fun _ _ _ _ h => frame_of_parseFrame h

end Sys2Proof
end

section
/-! SUPPORT. The checksum byte of the frame that an accepted operation sends. -/
namespace Sys2Proof.Machine

open Sys2Proof

theorem reqChk_le (a o : Byte) (p : List Byte) : (reqChk a o p).toNat ≤ 0x7F := by
  rw [reqChk, toNat_and_7F]
  omega

theorem frameBytes_getLast? (a o : Byte) (p : List Byte) : (frameBytes a o p true).getLast? = some (reqChk a o p) := by
  rw [frameBytes, if_pos rfl, List.getLast?_concat]

theorem isRead_writeShape (p : Params) : (writeShape p).isRead = false := by
  unfold writeShape
  split <;> rfl

/-- A request sent in `IDLE` awaits a response of the shape it names (`40_codec.md` R131). -/
theorem startWire_rxShape {op : Sel} {kind : OpKind} {p : List Byte} {shape : Shape} {s t : State}
    (hp : s.phase = .idle) (h : startWire op kind p shape s = .next t) : t.codec.rxShape = some shape := by
  rw [startWire_idle _ _ _ _ hp] at h
  cases h
  rfl

theorem accept_refuseCommand_phase {s t : State} {r : RefuseReason} (h : accept s (refuseCommand r s) = .next t) :
    t.phase = s.phase := by
  obtain ⟨-, h⟩ | ⟨-, rfl⟩ := accept_next h
  · cases h; rfl
  · rfl

theorem updateValid_phase {now : Option NumVal} {left right : Option Word} {s t : State}
    (h : updateValid now left right s = .next t) : t.phase = s.phase := by
  unfold updateValid at h
  split at h
  · cases h
  · split at h
    · split at h <;> cases h
      rfl
    · cases h; rfl

/-- `Update` does not change the phase: it completes in the accept step (`41_operations.md` R170). -/
theorem execUpdate_phase {now : Option NumVal} {left right : Option Word} {lv rv : Bool} {s t : State}
    (h : execUpdate now left right lv rv s = .next t) : t.phase = s.phase := by
  obtain ⟨-, h⟩ | ⟨-, rfl⟩ := accept_next h
  · split at h
    · exact updateValid_phase h
    · cases h; rfl
  · rfl

theorem execMix_phase {a b c d : NumVal} {s t : State} (h : execMix a b c d s = .next t) : t.phase = s.phase := by
  obtain ⟨-, h⟩ | ⟨-, rfl⟩ := accept_next h
  · split at h <;> cases h <;> rfl
  · rfl

theorem setVelocityPid_rxShape {op : Sel} {kind : OpKind} {kd kp ki : NumVal} {qpps : Word} {s t : State}
    (hp : s.phase = .idle) (h : setVelocityPid op kind kd kp ki qpps s = .next t) (htx : t.phase = .tx) :
    t.codec.rxShape = some (writeShape s.par) := by
  unfold setVelocityPid at h
  split at h
  · exact startWire_rxShape hp h
  · simp [accept_refuseCommand_phase h, hp] at htx

theorem execSetMixedSpeed_rxShape {left right : NumVal} {s t : State} (hp : s.phase = .idle)
    (h : execSetMixedSpeed left right s = .next t) (htx : t.phase = .tx) :
    t.codec.rxShape = some (writeShape s.par) := by
  unfold execSetMixedSpeed at h
  split at h
  · exact startWire_rxShape hp h
  · simp [accept_refuseCommand_phase h, hp] at htx

/-- An operation that goes to `TX` is one of the ten reads, or a write, with a write's response (`30_encoding.md` R92,
R100). -/
theorem exec_read_or_writeShape {i : Instr} {s t : State} (hp : s.phase = .idle) (h : exec i s = .next t)
    (htx : t.phase = .tx) : (∃ row ∈ readRows, row.instr = i) ∨ t.codec.rxShape = some (writeShape s.par) := by
  cases i
  case resetEncoders | setM1Constants | setM2Constants => exact .inr (startWire_rxShape hp h)
  case setM1VelocityPID | setM2VelocityPID => exact .inr (setVelocityPid_rxShape hp h htx)
  case setMixedSpeed => exact .inr (execSetMixedSpeed_rxShape hp h htx)
  case update => simp [execUpdate_phase h, hp] at htx
  case mix => simp [execMix_phase h, hp] at htx
  all_goals exact .inl (by simp [readRows])

/-- An operation that goes to `TX` has sent a request; its response has a read's shape only where it is a read. -/
theorem exec_sends {i : Instr} {s t : State} (hp : s.phase = .idle) (h : exec i s = .next t) (htx : t.phase = .tx) :
    ∃ kind p shape, t = sendCommand i.sel (s.par.opc.get kind) p shape s ∧
      (shape.isRead = true → ∃ row ∈ readRows, row.instr = i) := by
  obtain ⟨hbusy, -⟩ | ⟨-, ⟨kind, p, shape, rfl, -⟩ | ⟨r, rfl⟩ | ⟨now, l, r, -, -, rfl⟩ | ⟨-, rfl⟩ |
    ⟨a, b, c, d, -, rfl⟩⟩ := exec_cases h
  · exact absurd hp hbusy
  · refine ⟨kind, p, shape, rfl, fun hread => ?_⟩
    obtain hrow | hshape := exec_read_or_writeShape hp h htx
    · exact hrow
    · rw [Option.some.inj hshape, isRead_writeShape] at hread
      cases hread
  all_goals simp [hp] at htx

/-- Settles O9: an operation in `TX` has sent a frame, whose checksum byte is masked to 7 bits and left out of a read at
most. -/
theorem requestChecksumsHaveBit7Clear : Obligations.RequestChecksumsHaveBit7Clear := by
  unfold Obligations.RequestChecksumsHaveBit7Clear
  intro i s t hp h htx
  obtain ⟨kind, p, shape, rfl, hread⟩ := exec_sends hp h htx
  refine ⟨_, _, rfl, rfl, reqChk_bit7 _ _ _, reqChk_le _ _ _, fun hchk => ?_, rfl⟩
  have hkeep : (!(shape.isRead && !s.par.readReqChecksum)) = true := by
    obtain hpar | hrows := hchk
    · simp [hpar]
    · have hwrite : shape.isRead ≠ true := fun hr => by
        obtain ⟨row, hrow, hi⟩ := hread hr
        exact hrows row hrow hi
      simp [hwrite]
  rw [hkeep]
  exact frameBytes_getLast? _ _ _

end Sys2Proof.Machine
end

section
/-! SUPPORT. Real numbers on the wire: the word that a gain or a rate becomes, and where there is none. -/
namespace Sys2Proof

/-! Gains -/

/-- `round_half_away` is within a half of the number (`00_scope.md` R8). -/
theorem RealNum.round_bounds (a : RealNum) : a.val - 1 / 2 ≤ a.round ∧ (a.round : ℝ) ≤ a.val + 1 / 2 := by
  rw [RealNum.round_eq]
  split
  · have hle := Int.floor_le (a.val + 1 / 2)
    have hlt := Int.lt_floor_add_one (a.val + 1 / 2)
    constructor <;> linarith
  · have hle := Int.floor_le (-a.val + 1 / 2)
    have hlt := Int.lt_floor_add_one (-a.val + 1 / 2)
    push_cast
    constructor <;> linarith

/-- A tie of a number that is not negative goes up. -/
theorem RealNum.sub_half_lt_round {a : RealNum} (h : 0 ≤ a.round) : a.val - 1 / 2 < a.round := by
  rw [RealNum.round_eq] at h ⊢
  split
  · linarith [Int.lt_floor_add_one (a.val + 1 / 2)]
  · next hneg =>
    have : (0 : ℝ) ≤ ((-⌊-a.val + 1 / 2⌋ : ℤ) : ℝ) := by simpa [hneg] using h
    linarith

theorem RealNum.round_neg_iff {a : RealNum} : a.round < 0 ↔ a.val ≤ -(1 / 2) := by
  constructor
  · intro h
    have hr : (a.round : ℝ) ≤ -1 := by exact_mod_cast Int.le_sub_one_of_lt h
    linarith [a.round_bounds.1]
  · intro h
    have hf : 1 ≤ ⌊-a.val + 1 / 2⌋ := Int.le_floor.mpr (by push_cast; linarith)
    rw [RealNum.round_eq, if_neg (by linarith)]
    omega

theorem RealNum.le_round_iff {a : RealNum} {n : ℤ} (hn : 0 < n) : n ≤ a.round ↔ n - 1 / 2 ≤ a.val := by
  constructor
  · intro h
    have hr : (n : ℝ) ≤ a.round := by exact_mod_cast h
    linarith [a.round_bounds.2]
  · intro h
    have h1 : (1 : ℝ) ≤ n := by exact_mod_cast hn
    rw [RealNum.round_eq, if_pos (by linarith)]
    exact Int.le_floor.mpr (by linarith)

/-- The number that `ToFix16` rounds (`30_encoding.md` R103). -/
def RealNum.fix16Scaled (a : RealNum) : RealNum := a.times (.ofRat (65536 : ℤ))

theorem RealNum.val_fix16Scaled (a : RealNum) : a.fix16Scaled.val = 65536 * a.val := by
  simp [RealNum.fix16Scaled, mul_comm]

theorem toFix16_real (a : RealNum) :
    toFix16 (.real a) = if a.fix16Scaled.round < 0 ∨ 4294967295 < a.fix16Scaled.round then none
      else some (BitVec.ofInt 32 a.fix16Scaled.round) := rfl

theorem toFix16_real_eq_none_iff {a : RealNum} :
    toFix16 (.real a) = none ↔ a.fix16Scaled.round < 0 ∨ 4294967296 ≤ a.fix16Scaled.round := by
  rw [toFix16_real, ite_eq_left_iff]
  simp only [reduceCtorEq, imp_false, not_not]
  omega

theorem toNat_of_toFix16_real {a : RealNum} {w : Word} (h : toFix16 (.real a) = some w) :
    (w.toNat : ℤ) = a.fix16Scaled.round := by
  rw [toFix16_real] at h
  split at h <;> cases h
  rw [BitVec.toNat_ofInt]
  omega

theorem toFix16_of_not_finite {r : NumVal} (h : r.isFinite = false) : toFix16 r = none := by
  simp [toFix16, h]

/-- Settles O17, by the bounds of `round_half_away` at `65536 a`. -/
theorem gainsRoundToTheNearestWord : Obligations.GainsRoundToTheNearestWord := by
  unfold Obligations.GainsRoundToTheNearestWord
  refine ⟨fun a => ?none, fun a w hw => ?some, fun r hr => toFix16_of_not_finite hr⟩
  case none =>
    have hhigh := RealNum.le_round_iff (a := a.fix16Scaled) (n := 4294967296) (by norm_num)
    rw [toFix16_real_eq_none_iff, RealNum.round_neg_iff, hhigh, RealNum.val_fix16Scaled]
    norm_num
  case some =>
    have hword : (w.toNat : ℝ) = a.fix16Scaled.round := by exact_mod_cast toNat_of_toFix16_real hw
    have hnonneg : 0 ≤ a.fix16Scaled.round := by
      rw [← toNat_of_toFix16_real hw]
      exact Int.natCast_nonneg _
    rw [hword, ← RealNum.val_fix16Scaled]
    exact ⟨RealNum.sub_half_lt_round hnonneg, a.fix16Scaled.round_bounds.2⟩

/-! Rates -/

theorem wireOfInt_twos (n : ℤ) : wireOfInt .twos n =
    if n < -2147483648 ∨ 2147483647 < n then none else some (BitVec.ofInt 32 n) := rfl

theorem wireOfInt_signMag (n : ℤ) : wireOfInt .signMag n =
    if n < -2147483647 ∨ 2147483647 < n then none
    else some (if n < 0 then 0x80000000 ||| BitVec.ofInt 32 (-n) else BitVec.ofInt 32 n) := rfl

/-- The refusal of `TWOS` (`30_encoding.md` R104). -/
theorem wireOfInt_twos_eq_none_iff {n : ℤ} : wireOfInt .twos n = none ↔ n < -2147483648 ∨ 2147483647 < n := by
  rw [wireOfInt_twos, ite_eq_left_iff]
  simp only [reduceCtorEq, imp_false, not_not]

/-- The refusal of `SIGN_MAG` (R104): its range is symmetric. -/
theorem wireOfInt_signMag_eq_none_iff {n : ℤ} : wireOfInt .signMag n = none ↔ n < -2147483647 ∨ 2147483647 < n := by
  rw [wireOfInt_signMag, ite_eq_left_iff]
  simp only [reduceCtorEq, imp_false, not_not]

/-- In two's complement every word is its own integer's, and no other's. -/
theorem wireOfInt_twos_eq_some_iff {n : ℤ} {w : Word} : wireOfInt .twos n = some w ↔ w.toInt = n := by
  constructor
  · intro h
    rw [wireOfInt_twos] at h
    split at h <;> cases h
    exact BitVec.toInt_ofInt_eq_self (by norm_num) (by omega) (by omega)
  · rintro rfl
    have hlow := BitVec.le_toInt w
    have hhigh := BitVec.toInt_lt (x := w)
    rw [wireOfInt_twos, if_neg (by omega), BitVec.ofInt_toInt]

/-- The word of sign and magnitude: the sign in bit 31, the magnitude below (`30_encoding.md` R104). -/
theorem toNat_signMag {n : ℤ} (hneg : n < 0) (hlow : -2147483648 < n) :
    ((0x80000000 ||| BitVec.ofInt 32 (-n) : Word).toNat : ℤ) = 2147483648 - n := by
  have hmag : (-n).toNat < 2 ^ 31 := by omega
  have hmod : (-n % (2 ^ 32 : ℕ)).toNat = (-n).toNat := by omega
  have hor := Nat.two_pow_add_eq_or_of_lt hmag 1
  rw [BitVec.toNat_or, BitVec.toNat_ofInt, hmod, show (0x80000000 : Word).toNat = 2 ^ 31 * 1 from rfl, ← hor]
  omega

/-- In sign and magnitude the word of a negative integer lies above `2^31` by the magnitude. -/
theorem wireOfInt_signMag_eq_some_iff {n : ℤ} {w : Word} :
    wireOfInt .signMag n = some w ↔
      (0 ≤ n ∧ n ≤ 2147483647 ∧ (w.toNat : ℤ) = n) ∨ (n < 0 ∧ -2147483647 ≤ n ∧ (w.toNat : ℤ) = 2147483648 - n) := by
  constructor
  · intro h
    rw [wireOfInt_signMag] at h
    split at h <;> cases h
    split
    · next hneg => exact .inr ⟨hneg, by omega, toNat_signMag hneg (by omega)⟩
    · next hpos =>
      refine .inl ⟨by omega, by omega, ?_⟩
      rw [BitVec.toNat_ofInt]
      omega
  · rintro (⟨hpos, hhigh, hw⟩ | ⟨hneg, hlow, hw⟩)
    · rw [wireOfInt_signMag, if_neg (by omega), if_neg (by omega), ← hw, BitVec.ofInt_natCast, BitVec.ofNat_toNat,
        BitVec.setWidth_eq]
    · rw [wireOfInt_signMag, if_neg (by omega), if_pos hneg]
      refine congrArg some (BitVec.eq_of_toNat_eq ?_)
      have hword := toNat_signMag hneg (by omega)
      omega

/-- The sign and the magnitude that a word of `SIGN_MAG` holds are those of its integer. -/
theorem sign_and_magnitude_of_wireOfInt {n : ℤ} {w : Word} (h : wireOfInt .signMag n = some w) :
    w.getLsbD 31 = decide (n < 0) ∧ ((w.extractLsb' 0 31).toNat : ℤ) = |n| := by
  have hbit : w.getLsbD 31 = decide (2147483648 ≤ w.toNat) := BitVec.msb_eq_decide w
  rw [hbit, BitVec.extractLsb'_toNat, Nat.shiftRight_zero, decide_eq_decide]
  obtain ⟨hpos, hhigh, hw⟩ | ⟨hneg, hlow, hw⟩ := wireOfInt_signMag_eq_some_iff.mp h
  · rw [abs_of_nonneg hpos]
    omega
  · rw [abs_of_neg hneg]
    omega

theorem toWireRate_real (enc : SpeedWireEnc) (a : RealNum) :
    toWireRate enc (.real a) = wireOfInt enc (if 0 ≤ a.val then ⌊a.val⌋ else ⌈a.val⌉) := by
  rw [← RealNum.trunc_eq]
  rfl

theorem toWireRate_of_not_finite {r : NumVal} (enc : SpeedWireEnc) (h : r.isFinite = false) :
    toWireRate enc r = none := by
  simp [toWireRate, h]

/-- Settles O18: the rate is truncated, and the integer's word is that of its encoding. -/
theorem ratesTruncateTowardZero : Obligations.RatesTruncateTowardZero := by
  unfold Obligations.RatesTruncateTowardZero
  refine ⟨fun a n hn => ?_, fun enc r hr => toWireRate_of_not_finite enc hr⟩
  rw [toWireRate_real, toWireRate_real, ← hn]
  exact ⟨wireOfInt_twos_eq_none_iff, wireOfInt_signMag_eq_none_iff, fun w hw => wireOfInt_twos_eq_some_iff.mp hw,
    fun w hw => sign_and_magnitude_of_wireOfInt hw⟩

/-! The integer-to-word step is lossless -/

theorem wireOfInt_injective {enc : SpeedWireEnc} {m n : ℤ} {w : Word} (hm : wireOfInt enc m = some w)
    (hn : wireOfInt enc n = some w) : m = n := by
  cases enc with
  | twos => rw [← wireOfInt_twos_eq_some_iff.mp hm, wireOfInt_twos_eq_some_iff.mp hn]
  | signMag =>
    rw [wireOfInt_signMag_eq_some_iff] at hm hn
    omega

/-- Only the negative zero is no integer's word of sign and magnitude. -/
theorem exists_wireOfInt_signMag_iff {w : Word} : (∃ n, wireOfInt .signMag n = some w) ↔ w ≠ 0x80000000 := by
  have hzero : w = 0x80000000 ↔ w.toNat = 2147483648 := BitVec.toNat_inj.symm
  have hlt := w.isLt
  simp only [wireOfInt_signMag_eq_some_iff, ne_eq, hzero]
  constructor
  · rintro ⟨n, h⟩
    omega
  · intro hne
    by_cases hpos : w.toNat < 2147483648
    · exact ⟨w.toNat, by omega⟩
    · exact ⟨2147483648 - w.toNat, by omega⟩

/-- Settles O19: a word holds its integer under either encoding. -/
theorem wireWordsAreLossless : Obligations.WireWordsAreLossless := by
  unfold Obligations.WireWordsAreLossless
  exact ⟨fun _ _ _ _ hm hn => wireOfInt_injective hm hn, fun w => ⟨w.toInt, wireOfInt_twos_eq_some_iff.mpr rfl⟩,
    fun _ => exists_wireOfInt_signMag_iff⟩

end Sys2Proof
end

section
/-!
SUPPORT. The checksum over natural numbers: what each function of `40_codec.md` R130 computes, and which changes of a
response it detects (R144).
-/
namespace Sys2Proof

/-! The functions -/

theorem toNat_reqChk (addr opc : Byte) (p : List Byte) :
    (reqChk addr opc p).toNat = (addr.toNat + opc.toNat + (p.map BitVec.toNat).sum) % 256 % 128 := by
  simp only [reqChk, toNat_and_7F, toNat_sum8, List.map_append, List.map_cons, List.map_nil, List.sum_append,
    List.sum_cons, List.sum_nil, Nat.add_zero]

theorem toNat_respSum (addr opc : Byte) (body : List Byte) :
    (respSum addr opc body).toNat = (addr.toNat + opc.toNat + (body.map BitVec.toNat).sum) % 256 := by
  simp only [respSum, respSeed, BitVec.toNat_add, toNat_sum8]
  omega

theorem chkMatches_iff {sum c : Byte} : chkMatches sum c = true ↔ sum &&& 0x7F = c := beq_iff_eq

theorem respValid_iff {addr opc c : Byte} {body : List Byte} :
    respValid addr opc body c = true ↔ (respSum addr opc body).toNat % 128 = c.toNat := by
  rw [respValid, chkMatches_iff, ← BitVec.toNat_inj, toNat_and_7F]

/-- Settles O8, by the three functions' values. -/
theorem checksumsAreSumsModulo256 : Obligations.ChecksumsAreSumsModulo256 := by
  unfold Obligations.ChecksumsAreSumsModulo256
  exact fun addr opc c bytes => ⟨toNat_reqChk addr opc bytes, toNat_respSum addr opc bytes, respValid_iff⟩

/-! What is detected -/

/-- A valid response's trailing byte goes with the bodies whose sum is the same modulo 128 (`40_codec.md` R144 (e)). -/
theorem respValid_iff_sum_mod {addr opc c : Byte} {body : List Byte} (h : respValid addr opc body c = true)
    (body' : List Byte) :
    respValid addr opc body' c = true ↔ (body'.map BitVec.toNat).sum % 128 = (body.map BitVec.toNat).sum % 128 := by
  rw [respValid_iff, toNat_respSum] at h ⊢
  omega

/-- Bytes that agree below bit 7 are equal or differ in bit 7 alone. -/
theorem toNat_mod_128_eq_iff (b b' : Byte) : b'.toNat % 128 = b.toNat % 128 ↔ b' = b ∨ b' = b ^^^ 0x80 := by
  obtain ⟨d, rfl⟩ : ∃ d, b' = b ^^^ d := ⟨b ^^^ b', by rw [← BitVec.xor_assoc, BitVec.xor_self, BitVec.zero_xor]⟩
  have hmod : (b ^^^ d).toNat % 128 = b.toNat % 128 ^^^ d.toNat % 128 := by
    rw [BitVec.toNat_xor]
    exact Nat.xor_mod_two_pow (n := 7)
  have hd : d.toNat % 128 = 0 ↔ d = 0 ∨ d = 0x80 := by
    rw [← BitVec.toNat_inj, ← BitVec.toNat_inj]
    simp only [BitVec.reduceToNat]
    omega
  have hsame : b ^^^ d = b ↔ d = 0 := xor_left_eq_self_iff
  rw [hmod, xor_left_eq_self_iff, hd, hsame, BitVec.xor_right_inj]

/-- A replaced body byte is accepted where it agrees with the byte sent below bit 7 (`40_codec.md` R144 (c)). -/
theorem respValid_replace_iff {addr opc b c : Byte} {before after : List Byte}
    (h : respValid addr opc (before ++ [b] ++ after) c = true) (b' : Byte) :
    respValid addr opc (before ++ [b'] ++ after) c = true ↔ b' = b ∨ b' = b ^^^ 0x80 := by
  rw [respValid_iff_sum_mod h, ← toNat_mod_128_eq_iff]
  simp only [List.map_append, List.map_cons, List.map_nil, List.sum_append, List.sum_cons, List.sum_nil]
  omega

/-- A bit below bit 7 is neither no change nor a change of bit 7. -/
theorem xor_twoPow_ne {j : Nat} (hj : j < 7) (b : Byte) :
    ¬ (b ^^^ BitVec.twoPow 8 j = b ∨ b ^^^ BitVec.twoPow 8 j = b ^^^ 0x80) := by
  have hbit : ∀ j < 7, BitVec.twoPow 8 j ≠ 0 ∧ BitVec.twoPow 8 j ≠ 0x80 := by decide
  obtain ⟨hzero, hseven⟩ := hbit j hj
  rintro (h | h)
  · exact hzero (by simpa using h)
  · exact hseven (by simpa using h)

/-- Settles O10, by the sum modulo 128 that a valid response must keep. -/
theorem checksumDetection : Obligations.ChecksumDetection := by
  unfold Obligations.ChecksumDetection
  refine ⟨fun addr opc b b' c before after h => ⟨fun j hj => ?_, ?_, respValid_replace_iff h b'⟩,
    fun addr opc c c' body h hne => ?_, fun addr opc c body body' h => ?_⟩
  · exact Bool.eq_false_iff.mpr fun hflip => xor_twoPow_ne hj b ((respValid_replace_iff h _).mp hflip)
  · exact (respValid_replace_iff h _).mpr (.inr rfl)
  · rw [respValid, chkMatches_iff] at h
    exact Bool.eq_false_iff.mpr fun h' => hne ((chkMatches_iff.mp h').symm.trans h)
  · rw [respValid_iff_sum_mod h]
    omega

end Sys2Proof
end

section
/-!
SUPPORT. One step of the codec, whole: a byte transmitted, a receive step answered `TIMEOUT`, and the accept step of an
operation that uses the wire.
-/
namespace Sys2Proof.Machine

open Sys2Proof

/-- Within the frame a transmit step sends its byte, and the last one ends it (`40_codec.md` R132). -/
theorem txStep_of_getElem? {s : State} {frame : List Byte} {i : Nat} {b : Byte} {shape : Shape}
    (hframe : s.codec.txFrame = some frame) (hlen : s.codec.txLen = some frame.length) (hidx : s.codec.txIdx = some i)
    (hb : frame[i]? = some b) (hshape : s.codec.rxShape = some shape) :
    txStep s = if i + 1 = frame.length then endTx shape (s.sent i b) else .next (s.sent i b) := by
  simp only [txStep, hframe, hlen, hidx, hshape, need_some, frameByte_of_getElem? hb]

/-- After the frame of an operation without a response, the operation is valid (`40_codec.md` R132, R142). -/
theorem endTx_sNone {s : State} {op : Sel} (hop : s.codec.curOp = some op) (hshape : s.codec.rxShape = some .sNone) :
    endTx .sNone s = .next (s.finish (ResRegs.latched op true .ok)) := by
  simp only [endTx, complete, if_true, completeValid, hop, hshape, need_some]

/-- Settles O20: the byte sent is the frame's, and where it is the last the frame ends as its shape says. -/
theorem transmitStepSendsTheNextByte : Obligations.TransmitStepSendsTheNextByte := by
  unfold Obligations.TransmitStepSendsTheNextByte
  intro s frame i b opc op shape hp hframe hlen hidx hb hshape hop hopc
  have hstep := txStep_of_getElem? hframe hlen hidx hb hshape
  rw [← step_tx hp] at hstep
  refine ⟨fun hmore => ?_, fun hlast hnone => ?_, fun hlast hresponse => ?_⟩
  · rw [hstep, if_neg hmore.ne]
    rfl
  · subst hnone
    rw [hstep, if_pos hlast, endTx_sNone (s := s.sent i b) hop hshape]
    rfl
  · rw [hstep, if_pos hlast, endTx_of_response (s := s.sent i b) hresponse hopc]
    rfl

/-- Settles O28: the step is `Timeout` once the answer is taken. -/
theorem timeoutEndsTheOperation : Obligations.TimeoutEndsTheOperation := by
  unfold Obligations.TimeoutEndsTheOperation
  intro s op hp hop ha
  rw [step_rx hp, rxStep_timeout ha]
  exact timeout_next.mpr ⟨op, hop, rfl⟩

/-- An operation other than `Update` and `Mix` is not accepted, sends its request, or is refused
(`41_operations.md` R170). -/
theorem exec_wire_cases {i : Instr} {s t : State} (hupdate : ∀ now l r lv rv, i ≠ .update now l r lv rv)
    (hmix : ∀ a b c d, i ≠ .mix a b c d) (h : exec i s = .next t) :
    t = s ∨ (s.phase = .idle ∧ SendRuns i s t) ∨ ∃ r, t = s.refuse r := by
  obtain ⟨-, rfl⟩ | ⟨hp, hsend | hrefuse | ⟨now, l, r, hi, -⟩ | ⟨⟨now, l, r, lv, rv, hi⟩, -⟩ | ⟨a, b, c, d, hi, -⟩⟩ :=
    exec_cases h
  · exact .inl rfl
  · exact .inr (.inl ⟨hp, hsend⟩)
  · exact .inr (.inr hrefuse)
  · exact absurd hi (hupdate _ _ _ _ _)
  · exact absurd hi (hupdate _ _ _ _ _)
  · exact absurd hi (hmix _ _ _ _)

/-- Settles O39: a request sent writes the phase and the request registers, and a refusal the mark. -/
theorem wireOperationsWriteOnlyTheRequest : Obligations.WireOperationsWriteOnlyTheRequest := by
  unfold Obligations.WireOperationsWriteOnlyTheRequest
  intro i s t hupdate hmix h
  obtain rfl | ⟨hp, kind, p, shape, rfl, -⟩ | ⟨r, rfl⟩ := exec_wire_cases hupdate hmix h
  · simp
  · exact ⟨⟨rfl, rfl, rfl, rfl, rfl, rfl, rfl, rfl⟩, ⟨rfl, rfl, rfl, rfl, rfl, rfl⟩, .inr ⟨hp, rfl, rfl⟩⟩
  · simp

end Sys2Proof.Machine
end

section
/-! SUPPORT. The value and the status that a valid read reports, and the checksum they were received with. -/
namespace Sys2Proof.Machine

open Sys2Proof

/-- The status that a read of the shape reports (`40_codec.md` R142). -/
def State.statusFor (shape : Shape) (s : State) : Option Byte :=
  match shape with
  | .sDwordStatus => s.codec.rxStatus
  | .sByte | .sWord | .sDword | .sString | .sAck | .sNone => none

/-- A valid read of a fixed shape reports `rx_acc`, and the status of its shape (`40_codec.md` R142). -/
theorem completeValid_value {s t : State} {shape : Shape} {acc : Word} (hshape : s.codec.rxShape = some shape)
    (hv : 0 < shape.valueBytes) (hacc : s.codec.rxAcc = some acc) (h : completeValid s = .next t) :
    t.res.resValue = some acc ∧ t.res.resStatus = s.statusFor shape := by
  unfold completeValid at h
  rw [hshape] at h
  obtain ⟨op, -, h⟩ := need_eq_next.mp h
  cases shape with
  | sByte | sWord | sDword =>
    simp only [need_some, hacc] at h
    cases h
    exact ⟨rfl, rfl⟩
  | sDwordStatus =>
    simp only [need_some, hacc] at h
    obtain ⟨st, hst, h⟩ := need_eq_next.mp h
    cases h
    exact ⟨rfl, hst.symm⟩
  | sString | sAck | sNone => simp [Shape.valueBytes] at hv

/-- Once all bytes of a fixed shape are received, `rx_sum` is the sum of those reported (`40_codec.md` R134). -/
theorem FixedRx.sum_eq {s : State} {opc sum : Byte} {shape : Shape} {i : Nat} {acc : Word}
    (h : FixedRx s opc shape i sum acc) (hv : 0 < shape.valueBytes) (hi : ¬ i < shape.bodyBytes) :
    sum = respSum s.cfg.address opc (bytes32 acc ++ (s.statusFor shape).toList) := by
  obtain ⟨hle, -, hsum⟩ := h
  obtain rfl : i = shape.bodyBytes := by omega
  cases shape with
  | sByte | sWord | sDword => simpa [Shape.bodyBytes, State.statusFor] using hsum
  | sDwordStatus =>
    obtain ⟨st, hst, hsum⟩ : ∃ st, s.codec.rxStatus = some st ∧ sum = respSum s.cfg.address opc (bytes32 acc ++ [st]) := hsum
    simpa [State.statusFor, hst] using hsum
  | sString | sAck | sNone => simp [Shape.valueBytes] at hv

/-- A byte of a fixed shape that leads to `IDLE` is the trailing one, and completes. -/
theorem rxFixed_idle {s t : State} {shape : Shape} {i : Nat} {b sum : Byte} (hp : s.phase = .rx)
    (hsum : s.codec.rxSum = some sum) (h : rxFixed shape i b s = .next t) (hidle : t.phase = .idle) :
    ¬ i < shape.bodyBytes ∧ complete (chkMatches sum b) s = .next t := by
  simp only [rxFixed, hsum, need_some] at h
  split at h
  · obtain ⟨acc, -, h⟩ := need_eq_next.mp h
    cases h
    simp [hp] at hidle
  · split at h
    · cases h
      simp [hp] at hidle
    · next hi => exact ⟨hi, h⟩

/-- A completion reported valid is a valid one. -/
theorem completeValid_of_resValid {s t : State} {v : Bool} (h : complete v s = .next t)
    (hvalid : t.res.resValid = some true) : v = true ∧ completeValid s = .next t := by
  obtain ⟨op, r, -, rfl, -, -, hr, -⟩ := complete_next h
  obtain rfl : v = true := Option.some.inj (hr.symm.trans hvalid)
  exact ⟨rfl, h⟩

/-- A byte of a fixed shape that ends the operation validly is the checksum of the value and status reported
(`40_codec.md` R134, R143). -/
theorem rxFixed_valid {s t : State} {opc sum b : Byte} {shape : Shape} {i : Nat} {acc : Word} {term : Bool}
    (hp : s.phase = .rx) (hr : RxHolds s opc shape (i + 1) sum acc term) (hfixed : FixedRx s opc shape i sum acc)
    (hv : 0 < shape.valueBytes) (h : rxFixed shape i b s = .next t) (hidle : t.phase = .idle)
    (hvalid : t.res.resValid = some true) :
    t.res.resValue = some acc ∧ b = respSum s.cfg.address opc (bytes32 acc ++ t.res.resStatus.toList) &&& 0x7F := by
  obtain ⟨-, -, -, -, -, hshape, -, hsum, hacc, -⟩ := hr
  obtain ⟨hi, hc⟩ := rxFixed_idle hp hsum h hidle
  obtain ⟨hchk, hc⟩ := completeValid_of_resValid hc hvalid
  obtain ⟨hvalue, hstatus⟩ := completeValid_value hshape hv hacc hc
  refine ⟨hvalue, ?_⟩
  rw [hstatus, ← hfixed.sum_eq hv hi]
  exact (chkMatches_iff.mp hchk).symm

theorem need_of_eq {α : Type} {o : Option α} {a : α} {r : Reg} {k : α → Out} (h : o = some a) : need o r k = k a := by
  rw [h, need_some]

/-- In a fixed shape a received byte goes the fixed shapes' way (`40_codec.md` R134). -/
theorem receive_fixed {s : State} {shape : Shape} {i : Nat} (b : Byte) (hshape : s.codec.rxShape = some shape)
    (hidx : s.codec.rxIdx = some i) (hv : 0 < shape.valueBytes) :
    receive b s = rxFixed shape i b (s.counted i) := by
  refine (need_of_eq hshape).trans ((need_of_eq hidx).trans ?_)
  cases shape with
  | sByte | sWord | sDword | sDwordStatus => rfl
  | sString | sAck | sNone => simp [Shape.valueBytes] at hv

/-- A received byte that ends a fixed shape validly is the checksum of the value and status reported. -/
theorem receive_valid {s t : State} {opc sum b : Byte} {shape : Shape} {i : Nat} {acc : Word} {term : Bool}
    (hp : s.phase = .rx) (hr : RxHolds s opc shape i sum acc term) (hfixed : FixedRx s opc shape i sum acc)
    (hv : 0 < shape.valueBytes) (h : receive b s = .next t) (hidle : t.phase = .idle)
    (hvalid : t.res.resValid = some true) :
    t.res.resValue = some acc ∧ b = respSum s.cfg.address opc (bytes32 acc ++ t.res.resStatus.toList) &&& 0x7F := by
  obtain ⟨op, chk, hop, hopc, hchk, hshape, hidx, hregs⟩ := hr
  rw [receive_fixed b hshape hidx hv] at h
  exact rxFixed_valid (s := s.counted i) hp ⟨op, chk, hop, hopc, hchk, hshape, rfl, hregs⟩ hfixed hv h hidle hvalid

/-- Settles O53: the step's answer is a byte, since a timeout is not valid, and under the invariant that byte is the
checksum of what is reported. -/
theorem validResultsMatchTheirChecksum : Obligations.ValidResultsMatchTheirChecksum := by
  unfold Obligations.ValidResultsMatchTheirChecksum
  intro s t hinv hp hs hidle hvalid hfixed
  rw [step_rx hp] at hs
  have hrx : RxInv s := by simpa only [CodecInv, hp] using hinv
  obtain ⟨opc, shape, i, sum, acc, term, hr, h⟩ := rxInv_iff.mp hrx
  obtain ⟨-, -, -, hopc, -, hshape, -⟩ := id hr
  have hv : 0 < shape.valueBytes := by
    rw [hshape] at hfixed
    obtain hf | hf | hf | hf := hfixed <;> cases hf <;> decide
  rcases ha : s.link.rxByte.1 with b | _
  · rw [rxStep_byte ha] at hs
    obtain ⟨hvalue, hsum⟩ := receive_valid (s := { s with link := s.link.rxByte.2 }) hp hr ((shapeRx_fixed hv).mp h) hv hs
      hidle hvalid
    exact ⟨opc, b, acc, hopc, rfl, hvalue, hsum⟩
  · rw [rxStep_timeout ha] at hs
    obtain ⟨op, -, rfl⟩ := timeout_next.mp hs
    simp at hvalid

end Sys2Proof.Machine
end

section
/-!
SUPPORT. The accept step, operation by operation: the request that a wire operation sends, whole; and the operands that
are refused or missing.
-/
namespace Sys2Proof.Machine

open Sys2Proof

/-! Reads -/

/-- The checksum byte of a request without a payload (`40_codec.md` R130). -/
theorem reqChk_nil (addr opc : Byte) : reqChk addr opc [] = (addr + opc) &&& 0x7F := by simp [reqChk, sum8]

theorem readFrame_length (p : Params) (addr opc : Byte) :
    (readFrame p addr opc).length = if p.readReqChecksum then 3 else 2 := by
  unfold readFrame
  split <;> rfl

/-- Settles O11: a read sends the frame of its row's opcode, without a payload. -/
theorem readOperationsAreAccepted : Obligations.ReadOperationsAreAccepted := by
  unfold Obligations.ReadOperationsAreAccepted
  intro row hrow s hp opc
  rw [exec_readRow hrow, startWire_idle _ _ _ _ hp, sendCommand, frameBytes_readFrame _ _ _ (isRead_readRow hrow),
    reqChk_nil, readFrame_length]

/-! Writes -/

/-- The request of a write operation: always with its checksum byte, and with the response of `ACK_LEN`
(`30_encoding.md` R92, R100, `40_codec.md` R131). -/
theorem startWire_writeShape {s : State} (op : Sel) (kind : OpKind) (payload : List Byte) (hp : s.phase = .idle) :
    startWire op kind payload (writeShape s.par) s = .next
      { s with
        phase := .tx
        codec :=
          { s.codec with
            curOp := some op
            curOpc := some (s.par.opc.get kind)
            txChk := some (reqChk s.cfg.address (s.par.opc.get kind) payload)
            txFrame := some (frameBytes s.cfg.address (s.par.opc.get kind) payload true)
            txLen := some (payload.length + 3)
            txIdx := some 0
            rxShape := some (writeShape s.par) } } := by
  rw [startWire_idle _ _ _ _ hp, sendCommand, isRead_writeShape, Bool.false_and, Bool.not_false, frameBytes_length,
    if_pos rfl]

/-- Settles O12: the request has no payload. -/
theorem resetEncodersIsAccepted : Obligations.ResetEncodersIsAccepted := by
  unfold Obligations.ResetEncodersIsAccepted
  intro s hp
  rw [← reqChk_nil]
  exact startWire_writeShape 0x0A .reset [] hp

/-- Settles O13: the payload is the four words, 16 bytes. -/
theorem setConstantsAreAccepted : Obligations.SetConstantsAreAccepted := by
  unfold Obligations.SetConstantsAreAccepted
  intro s kd kp ki qpps hp
  exact ⟨startWire_writeShape 0x0B .pidM1 (pidPayload kd kp ki qpps) hp,
    startWire_writeShape 0x0C .pidM2 (pidPayload kd kp ki qpps) hp⟩

/-- With gains that have words, a `VelocityPID` operation is the `Constants` operation on these
(`41_operations.md` R184, R185). -/
theorem setVelocityPid_of_toFix16 {op : Sel} {kind : OpKind} {kd kp ki : NumVal} {wkd wkp wki qpps : Word} {s : State}
    (hkd : toFix16 kd = some wkd) (hkp : toFix16 kp = some wkp) (hki : toFix16 ki = some wki) :
    setVelocityPid op kind kd kp ki qpps s = setConstants op kind wkd wkp wki qpps s := by
  simp only [setVelocityPid, hkd, hkp, hki]

/-- A gain without a word is refused, whichever it is (`41_operations.md` R184, R185). -/
theorem setVelocityPid_refused {op : Sel} {kind : OpKind} {kd kp ki : NumVal} {qpps : Word} {s : State}
    (hp : s.phase = .idle) (h : toFix16 kd = none ∨ toFix16 kp = none ∨ toFix16 ki = none) :
    setVelocityPid op kind kd kp ki qpps s = .next (s.refuse .rangeError) := by
  unfold setVelocityPid
  split
  · next hkd hkp hki => simp [hkd, hkp, hki] at h
  · exact accept_idle hp

/-- Settles O14: the operations send one request, but for their selectors. -/
theorem velocityPidIsAccepted : Obligations.VelocityPidIsAccepted := by
  unfold Obligations.VelocityPidIsAccepted
  intro s kd kp ki wkd wkp wki qpps hp hkd hkp hki
  have hsent (op : Sel) (kind : OpKind) :
      setConstants op kind wkd wkp wki qpps s = .next _ := startWire_writeShape op kind (pidPayload wkd wkp wki qpps) hp
  have hconverted (op : Sel) (kind : OpKind) :
      setVelocityPid op kind kd kp ki qpps s = .next _ := (setVelocityPid_of_toFix16 hkd hkp hki).trans (hsent op kind)
  exact ⟨_, _, hsent 0x0B .pidM1, hconverted 0x0D .pidM1, hsent 0x0C .pidM2, hconverted 0x0E .pidM2, rfl, rfl, rfl, rfl⟩

/-- With rates that have wire words, `SetMixedSpeed` sends these (`41_operations.md` R186). -/
theorem execSetMixedSpeed_of_toWireRate {left right : NumVal} {wl wr : Word} {s : State}
    (hl : toWireRate s.par.speedWireEnc left = some wl) (hr : toWireRate s.par.speedWireEnc right = some wr) :
    execSetMixedSpeed left right s =
      startWire 0x0F .mixed (mixPayload s.par.leftIsM1 wl wr) (writeShape s.par) s := by
  simp only [execSetMixedSpeed, hl, hr]

/-- A rate without a wire word is refused, whichever it is (`41_operations.md` R186). -/
theorem execSetMixedSpeed_refused {left right : NumVal} {s : State} (hp : s.phase = .idle)
    (h : toWireRate s.par.speedWireEnc left = none ∨ toWireRate s.par.speedWireEnc right = none) :
    execSetMixedSpeed left right s = .next (s.refuse .rangeError) := by
  unfold execSetMixedSpeed
  split
  · next hl hr => simp [hl, hr] at h
  · exact accept_idle hp

/-- The payload of `SetMixedSpeed` is its two words in the order of the wheels (`30_encoding.md` R94). -/
theorem mixPayload_eq_flatMap (leftIsM1 : Bool) (wl wr : Word) :
    mixPayload leftIsM1 wl wr = (if leftIsM1 then [wl, wr] else [wr, wl]).flatMap bytes32 := by
  cases leftIsM1 <;> simp [mixPayload]

/-- Settles O15: the payload is the two words, 8 bytes. -/
theorem setMixedSpeedIsAccepted : Obligations.SetMixedSpeedIsAccepted := by
  unfold Obligations.SetMixedSpeedIsAccepted
  intro s left right wl wr hp hl hr opc payload
  have hpayload : mixPayload s.par.leftIsM1 wl wr = payload := mixPayload_eq_flatMap _ _ _
  rw [← hpayload]
  refine (execSetMixedSpeed_of_toWireRate hl hr).trans ?_
  rw [startWire_writeShape _ _ _ hp, mixPayload_length]
  rfl

/-! Operands refused or missing -/

/-- An `Update` that is not skipped reads its operands (`42_odometry.md` R220). -/
theorem execUpdate_valid {s : State} (hp : s.phase = .idle) (now : Option NumVal) (l r : Option Word) :
    execUpdate now l r true true s = updateValid now l r s := accept_idle hp

theorem updateValid_notFinite {now : NumVal} {l r : Option Word} {s : State} (h : now.isFinite = false) :
    updateValid (some now) l r s = .next (s.refuse .nonFinite) := by
  simp only [updateValid, h, Bool.false_eq_true, if_false, refuseCommand]

/-- At a finite time a missing tick operand is read, and is a fault (`41_operations.md` R188). -/
theorem updateValid_missingTicks {now : NumVal} {l r : Option Word} {s : State} (hf : now.isFinite = true)
    (h : l = none ∨ r = none) : updateValid (some now) l r s = .fault .operandNoValue := by
  simp only [updateValid, hf, if_true]
  split
  · simp at h
  · rfl

/-- An operand of `Mix` that is not finite is refused, whichever it is (`43_mixer.md` R250). -/
theorem execMix_notFinite {a b c d : NumVal} {s : State} (hp : s.phase = .idle)
    (h : a.isFinite = false ∨ b.isFinite = false ∨ c.isFinite = false ∨ d.isFinite = false) :
    execMix a b c d s = .next (s.refuse .nonFinite) := by
  have hfinite : (a.isFinite && b.isFinite && c.isFinite && d.isFinite) = false := by
    simpa only [Bool.and_eq_false_iff, or_assoc] using h
  rw [execMix, accept_idle hp, hfinite]
  rfl

/-- Settles O16, by the refusals of each operation. -/
theorem refusedOperationsChangeOnlyTheMark : Obligations.RefusedOperationsChangeOnlyTheMark := by
  unfold Obligations.RefusedOperationsChangeOnlyTheMark
  intro s hp marked
  exact ⟨fun _ _ _ _ h => ⟨setVelocityPid_refused hp h, setVelocityPid_refused hp h⟩,
    fun _ _ h => execSetMixedSpeed_refused hp h,
    fun _ l r h => (execUpdate_valid hp _ l r).trans (updateValid_notFinite h),
    fun _ _ _ _ h => execMix_notFinite hp h⟩

/-- Settles O33: the time is read first, and then the ticks. -/
theorem updateWithoutOperandsFaults : Obligations.UpdateWithoutOperandsFaults := by
  unfold Obligations.UpdateWithoutOperandsFaults
  intro s hp
  exact ⟨fun l r => execUpdate_valid hp none l r,
    fun now l r hf h => (execUpdate_valid hp (some now) l r).trans (updateValid_missingTicks hf h)⟩

/-! The command -/

/-- Settles O1: the command is taken from the port, and decodes to the operation. -/
theorem stepRunsTheDecodedCommand : Obligations.StepRunsTheDecodedCommand := by
  unfold Obligations.StepRunsTheDecodedCommand
  intro s c cs i hp hl hc hdec
  rw [step_idle_command hp hl hc, acceptCommand, hdec]

end Sys2Proof.Machine
end

section
/-! SUPPORT. The write operations from the command to the result. -/
namespace Sys2Proof.Machine

open Sys2Proof

/-- The payload of `SetMixedSpeed` is that of its request (`30_encoding.md` R94). -/
theorem payload_mixed (leftIsM1 : Bool) (wl wr : Word) :
    Request.payload ⟨.mixed, if leftIsM1 then [wl, wr] else [wr, wl]⟩ = mixPayload leftIsM1 wl wr :=
  (mixPayload_eq_flatMap leftIsM1 wl wr).symm

/-- A write operation whose operands are not refused sends its request (`41_operations.md` R181 to R186). -/
theorem exec_of_request {s : State} {i : Instr} {r : Request} (h : i.request s.par = some r)
    (hwrite : r.kind.isRead = false) : exec i s = startWire i.sel r.kind r.payload (writeShape s.par) s := by
  cases i <;> simp only [Instr.request, Option.some.injEq, reduceCtorEq] at h
  case resetEncoders | setM1Constants | setM2Constants => subst h; rfl
  case setM1VelocityPID | setM2VelocityPID =>
    split at h <;> cases h
    next hkd hkp hki => exact setVelocityPid_of_toFix16 hkd hkp hki
  case setMixedSpeed =>
    split at h <;> cases h
    next hl hr =>
      rw [payload_mixed]
      exact execSetMixedSpeed_of_toWireRate hl hr
  all_goals subst h; cases hwrite

/-- The frame of a write request has its checksum byte (`30_encoding.md` R92). -/
theorem requestFrame_of_write {r : Request} (h : r.kind.isRead = false) (p : Params) (addr : Byte) :
    r.frame p addr = frameBytes addr (p.opc.get r.kind) r.payload true := by
  simp only [Request.frame, h, Bool.false_and, Bool.not_false]

/-- A write operation whose frame is transmitted (`40_codec.md` R132). -/
def writeSent (i : Instr) (r : Request) (s : State) : State :=
  let opc := s.par.opc.get r.kind
  let frame := r.frame s.par s.cfg.address
  { s with
    phase := .tx
    link := { s.link with txStream := s.link.txStream ++ frame }
    codec :=
      { s.codec with
        curOp := some i.sel
        curOpc := some opc
        txChk := some (reqChk s.cfg.address opc r.payload)
        txFrame := some frame
        txLen := some frame.length
        txIdx := some frame.length
        rxShape := some (writeShape s.par) } }

/-- A write operation transmits its frame, which then ends. -/
theorem runOperation_write {s t : State} {i : Instr} {r : Request} (hp : s.phase = .idle)
    (h : i.request s.par = some r) (hwrite : r.kind.isRead = false)
    (hend : endTx (writeShape s.par) (writeSent i r s) = .next t) (k : Nat) :
    runOperation i ((r.frame s.par s.cfg.address).length + k) s = stepN k t := by
  have hrun := runOperation_startWire hp (exec_of_request h hwrite) k
  simp only [isRead_writeShape, Bool.false_and, Bool.not_false, ← requestFrame_of_write hwrite] at hrun
  rw [hrun]
  unfold writeSent at hend
  rw [hend]

/-- An operation without a value ends with its validity and no value (`40_codec.md` R140, R142). -/
theorem complete_sAck {s : State} {op : Sel} (hop : s.codec.curOp = some op) (hshape : s.codec.rxShape = some .sAck)
    (v : Bool) :
    complete v s = .next (s.finish (ResRegs.latched op v (if v then .ok else .checksumMismatch))) := by
  cases v with
  | false => exact completeError_next.mpr ⟨op, hop, rfl⟩
  | true => simp only [complete, if_true, completeValid, hop, hshape, need_some]

/-- The byte of an acknowledgement ends the operation, validly where it is the checksum byte of the request
(`40_codec.md` R140). -/
theorem receive_sAck {s : State} {op : Sel} {chk : Byte} {i : Nat} (hop : s.codec.curOp = some op)
    (hchk : s.codec.txChk = some chk) (hshape : s.codec.rxShape = some .sAck) (hidx : s.codec.rxIdx = some i)
    (b : Byte) :
    receive b s = .next ((s.counted i).finish
      (ResRegs.latched op (b == chk) (if b == chk then .ok else .checksumMismatch))) := by
  refine (need_of_eq hshape).trans ((need_of_eq hidx).trans ((need_of_eq hchk).trans ?_))
  exact complete_sAck (s := s.counted i) hop hshape _

/-- Settles O29: with no response the end of the frame is the end of the operation. -/
theorem writeOperationsComplete : Obligations.WriteOperationsComplete := by
  unfold Obligations.WriteOperationsComplete
  intro s i r hp hack hreq hwrite
  have hnone : writeShape s.par = .sNone := if_pos hack
  have hend : endTx (writeShape s.par) (writeSent i r s) =
      .next ((writeSent i r s).finish (ResRegs.latched i.sel true .ok)) := by
    rw [hnone]
    exact endTx_sNone rfl (congrArg some hnone)
  exact ⟨_, runOperation_write hp hreq hwrite hend 0, rfl, rfl, rfl, rfl, rfl, rfl, rfl, rfl, rfl, rfl⟩

/-- Settles O30: after the frame reception starts, and its one byte ends the operation. -/
theorem writeOperationsAreAcknowledged : Obligations.WriteOperationsAreAcknowledged := by
  unfold Obligations.WriteOperationsAreAcknowledged
  intro s i r a rest hp hack hreq hwrite hans
  have hshape : writeShape s.par = .sAck := if_neg (by simp [hack])
  have hend : endTx (writeShape s.par) (writeSent i r s) =
      .next ((writeSent i r s).startRx (s.par.opc.get r.kind)) := endTx_of_response (by simp [hshape]) rfl
  have hstep := step_rx_byte (s := (writeSent i r s).startRx (s.par.opc.get r.kind)) rfl hans
  rw [receive_sAck rfl rfl (congrArg some hshape) rfl] at hstep
  refine ⟨_, (runOperation_write hp hreq hwrite hend 1).trans (stepN_succ_of_next hstep), rfl, rfl, rfl, ?_, rfl, rfl,
    rfl, rfl, rfl, rfl⟩
  rw [State.finish_res]
  by_cases ha : a = reqChk s.cfg.address (s.par.opc.get r.kind) r.payload
  · rw [if_pos ha, beq_iff_eq.mpr ha]
    rfl
  · rw [if_neg ha, beq_eq_false_iff_ne.mpr ha]
    rfl

end Sys2Proof.Machine
end

section
/-! SUPPORT. The reads of a value from the command to the result: the fixed shapes' responses, byte by byte. -/
namespace Sys2Proof.Machine

open Sys2Proof

/-! The bytes of a response -/

/-- The response sum adds the bytes in the order of the stream. -/
theorem respSum_eq_foldl (addr opc : Byte) (body : List Byte) :
    respSum addr opc body = body.foldl (· + ·) (addr + opc) := by
  induction body using List.reverseRecOn with
  | nil => simp [respSum, respSeed, sum8]
  | append_singleton body b ih => rw [respSum_append_singleton, ih, List.foldl_append]; rfl

/-! The end of a read -/

/-- `t` is `s`, in reception, once its operation has ended: `rest` is what is left of the answers, and nothing is changed
but the phase, the codec, the results and `desync`. -/
def Answered (s t : State) (rest : List RxAnswer) (desync : Bool) (res : ResRegs) : Prop :=
  ∃ codec, t =
    { s with
      phase := .idle, link := { s.link with rxAnswers := rest }, codec := codec, res := res, desync := desync }

/-- A read that ends after its frame is transmitted is a whole operation. -/
theorem completed_of_answered {row : ReadRow} {s t : State} {rest : List RxAnswer} {desync : Bool} {res : ResRegs}
    (h : Answered (readStarted row s) t rest desync res) :
    Completed s t (readFrame s.par s.cfg.address (s.par.opc.get row.kind)) rest desync res := by
  obtain ⟨codec, rfl⟩ := h
  exact ⟨rfl, rfl, rfl, rfl, rfl, rfl, rfl, rfl, rfl, rfl⟩

/-- The result of a read of a value: the value with its halves and its status where the checksum matches, and none where it
does not (`40_codec.md` R142, `41_operations.md` R170). -/
def readResult (m1High : Bool) (op : Sel) (value : Word) (status : Option Byte) (valid : Bool) : ResRegs :=
  if valid then { valueResult m1High op value with resStatus := status } else noValueResult op false .checksumMismatch

/-- A fixed shape whose bytes are all received completes with what they hold (`40_codec.md` R142). -/
theorem complete_fixed {s : State} {op : Sel} {shape : Shape} {acc : Word} {st : Option Byte}
    (hop : s.codec.curOp = some op) (hshape : s.codec.rxShape = some shape) (hacc : s.codec.rxAcc = some acc)
    (hv : 0 < shape.valueBytes) (hst : s.statusFor shape = st)
    (hbody : shape.valueBytes + st.toList.length = shape.bodyBytes) (valid : Bool) :
    complete valid s = .next (s.finish (readResult s.par.modesM1High op acc st valid)) := by
  subst hst
  cases valid with
  | false => exact completeError_next.mpr ⟨op, hop, rfl⟩
  | true =>
    simp only [complete, if_true, completeValid, hop, hshape, need_some]
    cases shape with
    | sByte | sWord | sDword => exact need_of_eq hacc
    | sDwordStatus =>
      refine (need_of_eq hacc).trans ?_
      cases hst : s.codec.rxStatus with
      | none => simp [State.statusFor, hst, Shape.valueBytes, Shape.bodyBytes] at hbody
      | some st => simp only [need_some, readResult, State.statusFor, hst, if_true]
    | sString | sAck | sNone => simp [Shape.valueBytes] at hv

/-! The steps of a fixed shape -/

/-- The state in reception with `i` bytes counted, summed up to `sum` and assembled to `acc`, and the answers to come
(`10_state.md` R25 to R27). -/
def State.receiving (i : Nat) (sum : Byte) (acc : Word) (answers : List RxAnswer) (s : State) : State :=
  { s with
    link := { s.link with rxAnswers := answers }
    codec := { s.codec with rxIdx := some i, rxSum := some sum, rxAcc := some acc } }

section
variable {s : State} {shape : Shape} (hp : s.phase = .rx) (hshape : s.codec.rxShape = some shape)
  (hv : 0 < shape.valueBytes)
include hp hshape hv

/-- A byte answered is counted, and goes the fixed shapes' way (`40_codec.md` R134). -/
theorem step_receiving (i : Nat) (sum : Byte) (acc : Word) (b : Byte) (rest : List RxAnswer) :
    step (s.receiving i sum acc (.byte b :: rest)) = rxFixed shape i b (s.receiving (i + 1) sum acc rest) :=
  (step_rx_byte (s := s.receiving i sum acc (.byte b :: rest)) hp rfl).trans
    (receive_fixed (s := s.receiving i sum acc rest) b hshape rfl hv)

/-- A value byte goes into `rx_acc` and `rx_sum`. -/
theorem step_value {i : Nat} (hi : i < shape.valueBytes) (sum : Byte) (acc : Word) (b : Byte) (rest : List RxAnswer) :
    step (s.receiving i sum acc (.byte b :: rest)) = .next (s.receiving (i + 1) (sum + b) (accShift acc b) rest) :=
  (step_receiving hp hshape hv i sum acc b rest).trans (if_pos hi)

/-- A status byte goes into `rx_status` and `rx_sum`. -/
theorem step_status {i : Nat} (hi : ¬ i < shape.valueBytes) (hbody : i < shape.bodyBytes) (sum : Byte) (acc : Word)
    (b : Byte) (rest : List RxAnswer) :
    step (s.receiving i sum acc (.byte b :: rest)) =
      .next ((s.takeStatus sum b).receiving (i + 1) (sum + b) acc rest) :=
  (step_receiving hp hshape hv i sum acc b rest).trans ((if_neg hi).trans (if_pos hbody))

/-- The byte after the value and the status completes. -/
theorem step_trailing {i : Nat} (hi : i = shape.bodyBytes) (sum : Byte) (acc : Word) (b : Byte)
    (rest : List RxAnswer) :
    step (s.receiving i sum acc (.byte b :: rest)) =
      complete (chkMatches sum b) (s.receiving (i + 1) sum acc rest) := by
  have hle := shape.valueBytes_le_bodyBytes
  exact (step_receiving hp hshape hv i sum acc b rest).trans ((if_neg (by omega)).trans (if_neg (by omega)))

/-- The value bytes are taken one a step. -/
theorem stepN_values {i : Nat} (vs : List Byte) (hroom : i + vs.length ≤ shape.valueBytes) (sum : Byte) (acc : Word)
    (rest : List RxAnswer) :
    stepN vs.length (s.receiving i sum acc (vs.map .byte ++ rest)) =
      .next (s.receiving (i + vs.length) (sum + sum8 vs) (vs.foldl accShift acc) rest) := by
  induction vs generalizing i sum acc with
  | nil => simp [sum8]
  | cons b vs ih =>
    rw [List.length_cons] at hroom
    have hstep := step_value hp hshape hv (i := i) (by omega) sum acc b (vs.map .byte ++ rest)
    have hrun := ih (i := i + 1) (by omega) (sum + b) (accShift acc b)
    rw [BitVec.add_assoc, Nat.add_assoc, Nat.add_comm 1] at hrun
    exact (stepN_succ_of_next hstep).trans hrun

/-- After the value, the status byte, where the shape has one, and the trailing byte end the operation. -/
theorem stepN_status_trailing {op : Sel} (hop : s.codec.curOp = some op) {i : Nat} (hi : i = shape.valueBytes)
    {st : Option Byte} (hbody : i + st.toList.length = shape.bodyBytes) (sum : Byte) (acc : Word) (c : Byte)
    (rest : List RxAnswer) :
    ∃ t, stepN (st.toList.length + 1) (s.receiving i sum acc (st.toList.map .byte ++ .byte c :: rest)) = .next t ∧
      Answered s t rest s.desync (readResult s.par.modesM1High op acc st (chkMatches (sum + sum8 st.toList) c)) := by
  subst hi
  cases st with
  | none =>
    have hstatus : (s.receiving (shape.valueBytes + 1) sum acc rest).statusFor shape = none := by
      cases shape with
      | sDwordStatus => simp [Shape.valueBytes, Shape.bodyBytes] at hbody
      | sByte | sWord | sDword | sString | sAck | sNone => rfl
    have hlast := (step_trailing hp hshape hv hbody sum acc c rest).trans
      (complete_fixed (s := s.receiving _ sum acc rest) hop hshape rfl hv hstatus hbody _)
    have hsum : sum + sum8 (none : Option Byte).toList = sum := by simp [sum8]
    rw [hsum]
    exact ⟨_, stepN_succ_of_next hlast, (s.receiving (shape.valueBytes + 1) sum acc rest).codec, rfl⟩
  | some b =>
    simp only [Option.toList_some, List.length_singleton] at hbody
    have hstatus : ((s.takeStatus sum b).receiving (shape.valueBytes + 1 + 1) (sum + b) acc rest).statusFor shape =
        some b := by
      cases shape with
      | sDwordStatus => rfl
      | sByte | sWord | sDword | sString | sAck | sNone => simp [Shape.valueBytes, Shape.bodyBytes] at hbody
    have hfirst := step_status hp hshape hv (lt_irrefl _) (by omega) sum acc b (.byte c :: rest)
    have hlast := (step_trailing (s := s.takeStatus sum b) hp hshape hv hbody (sum + b) acc c rest).trans
      (complete_fixed (s := (s.takeStatus sum b).receiving _ (sum + b) acc rest) hop hshape rfl hv hstatus hbody _)
    have hsum : sum8 (some b).toList = b := by simp [sum8]
    rw [hsum]
    exact ⟨_, (stepN_succ_of_next hfirst).trans (stepN_succ_of_next hlast), _, rfl⟩

end

/-! Whole operations -/

/-- A read of a value, whole: its response is the value bytes, a status byte where the shape has one, and the checksum byte
(`40_codec.md` R135 to R138). -/
theorem runOperation_readValue {row : ReadRow} (hrow : row ∈ readRows) {s : State} (hp : s.phase = .idle)
    {vs : List Byte} {st : Option Byte} {c : Byte} {rest : List RxAnswer} (hv : 0 < row.shape.valueBytes)
    (hvs : vs.length = row.shape.valueBytes) (hbody : vs.length + st.toList.length = row.shape.bodyBytes)
    (hans : s.link.rxAnswers = vs.map .byte ++ (st.toList.map .byte ++ .byte c :: rest)) {res : ResRegs}
    (hres : readResult s.par.modesM1High row.sel (vs.foldl accShift 0) st
      (respValid s.cfg.address (s.par.opc.get row.kind) (vs ++ st.toList) c) = res) :
    ∃ t, runOperation row.instr
        ((readFrame s.par s.cfg.address (s.par.opc.get row.kind)).length + (vs.length + (st.toList.length + 1))) s =
          .next t ∧
      Completed s t (readFrame s.par s.cfg.address (s.par.opc.get row.kind)) rest s.desync res := by
  subst hres
  have hstart : readStarted row s = (readStarted row s).receiving 0 (respSeed s.cfg.address (s.par.opc.get row.kind)) 0
      (vs.map .byte ++ (st.toList.map .byte ++ .byte c :: rest)) := by rw [← hans]; rfl
  have hvalues := stepN_values (s := readStarted row s) (i := 0) rfl rfl hv vs (by omega)
    (respSeed s.cfg.address (s.par.opc.get row.kind)) 0 (st.toList.map .byte ++ .byte c :: rest)
  rw [Nat.zero_add, ← hstart] at hvalues
  obtain ⟨t, ht, hanswered⟩ := stepN_status_trailing (s := readStarted row s) (shape := row.shape) rfl rfl hv rfl hvs hbody
    (respSeed s.cfg.address (s.par.opc.get row.kind) + sum8 vs) (vs.foldl accShift 0) c rest
  refine ⟨t, (runOperation_read hrow hp _).trans ((stepN_add_of_next hvalues).trans ht), ?_⟩
  rw [BitVec.add_assoc, ← sum8_append] at hanswered
  exact completed_of_answered hanswered

/-- The condition of a read's result, over the sum of the bytes received (`40_codec.md` R143). -/
theorem readResult_respValid (m1High : Bool) (op : Sel) (value : Word) (st : Option Byte) (addr opc c : Byte)
    (body : List Byte) :
    readResult m1High op value st (respValid addr opc body c) =
      if body.foldl (· + ·) (addr + opc) &&& 0x7F = c then { valueResult m1High op value with resStatus := st }
      else noValueResult op false .checksumMismatch := by
  simp only [readResult, respValid, chkMatches_iff, respSum_eq_foldl]

/-- Only `ReadCurrents` and `ReadEncoderModes` split their value (`41_operations.md` R170). -/
theorem valueResult_unsplit (m1High : Bool) {op : Sel} (hcurrents : op ≠ 0x08) (hmodes : op ≠ 0x09) (v : Word) :
    valueResult m1High op v = { noValueResult op true .ok with resValue := some v } := by
  simp only [valueResult, splitHalves, hcurrents, hmodes, if_false]
  rfl

/-- Settles O21: four value bytes, the status and the checksum byte. -/
theorem readDwordStatusOperations : Obligations.ReadDwordStatusOperations := by
  unfold Obligations.ReadDwordStatusOperations
  intro row hrow hshape s v3 v2 v1 v0 st c rest hp hans opc
  have hsel : ∀ row ∈ readRows, row.shape = .sDwordStatus → row.sel ≠ 0x08 ∧ row.sel ≠ 0x09 := by decide
  obtain ⟨h8, h9⟩ := hsel row hrow hshape
  refine runOperation_readValue hrow hp (vs := [v3, v2, v1, v0]) (st := some st) (by rw [hshape]; decide)
    (by rw [hshape]; rfl) (by rw [hshape]; rfl) hans ?_
  rw [readResult_respValid, valueResult_unsplit _ h8 h9]
  simp only [List.foldl_cons, List.foldl_nil, accShift_word]
  rfl

/-- Settles O22: two value bytes and the checksum byte. -/
theorem readWordOperations : Obligations.ReadWordOperations := by
  unfold Obligations.ReadWordOperations
  intro row hrow hsel s v1 v0 c rest hp hans opc
  have hrows : ∀ row ∈ readRows, row.sel = 0x05 ∨ row.sel = 0x07 →
      row.shape = .sWord ∧ row.sel ≠ 0x08 ∧ row.sel ≠ 0x09 := by decide
  obtain ⟨hshape, h8, h9⟩ := hrows row hrow hsel
  refine runOperation_readValue hrow hp (vs := [v1, v0]) (st := none) (by rw [hshape]; decide)
    (by rw [hshape]; rfl) (by rw [hshape]; rfl) hans ?_
  rw [readResult_respValid, valueResult_unsplit _ h8 h9]
  simp only [List.foldl_cons, List.foldl_nil, accShift_half]
  rfl

/-- Settles O24: one value byte and the checksum byte. -/
theorem readErrorStateOperation : Obligations.ReadErrorStateOperation := by
  unfold Obligations.ReadErrorStateOperation
  intro s v c rest hp hans opc
  refine runOperation_readValue (row := ⟨.readErrorState, 0x06, .error, .sByte⟩) (by simp [readRows]) hp (vs := [v])
    (st := none) (by decide) rfl rfl hans ?_
  rw [readResult_respValid, valueResult_unsplit _ (by decide) (by decide)]
  simp only [List.foldl_cons, List.foldl_nil, accShift_byte]
  rfl

/-- The halves of the word of two bytes are these bytes (`30_encoding.md` R105). -/
theorem splitModes_append (m1High : Bool) (v1 v0 : Byte) :
    splitModes m1High ((v1 ++ v0 : BitVec 16).setWidth 32) =
      ((if m1High then v1 else v0).setWidth 16, (if m1High then v0 else v1).setWidth 16) := by
  have hhigh : ((v1 ++ v0 : BitVec 16).setWidth 32).extractLsb' 8 8 = v1 := by
    rw [BitVec.extractLsb'_setWidth_of_le (by decide), BitVec.extractLsb'_append_eq_left]
  have hlow : ((v1 ++ v0 : BitVec 16).setWidth 32).extractLsb' 0 8 = v0 := by
    rw [BitVec.extractLsb'_setWidth_of_le (by decide), BitVec.extractLsb'_append_eq_right]
  cases m1High <;> simp [splitModes, hhigh, hlow]

/-- The halves of the word of four bytes are those of two (`30_encoding.md` R105). -/
theorem splitCurrents_append (v3 v2 v1 v0 : Byte) :
    splitCurrents (v3 ++ v2 ++ v1 ++ v0) = (v3 ++ v2, v1 ++ v0) := by
  have hhalves : v3 ++ v2 ++ v1 ++ v0 = (v3 ++ v2) ++ (v1 ++ v0) := BitVec.append_assoc
  rw [hhalves]
  exact Prod.ext BitVec.extractLsb'_append_eq_left BitVec.extractLsb'_append_eq_right

/-- Settles O23: two value bytes and the checksum byte, and the value's halves. -/
theorem readEncoderModesOperation : Obligations.ReadEncoderModesOperation := by
  unfold Obligations.ReadEncoderModesOperation
  intro s v1 v0 c rest hp hans opc
  refine runOperation_readValue (row := ⟨.readEncoderModes, 0x09, .modes, .sWord⟩) (by simp [readRows]) hp
    (vs := [v1, v0]) (st := none) (by decide) rfl rfl hans ?_
  rw [readResult_respValid]
  simp only [List.foldl_cons, List.foldl_nil, accShift_half, valueResult, splitHalves, splitModes_append]
  rfl

/-- Settles O25: four value bytes and the checksum byte, and the value's halves. -/
theorem readCurrentsOperation : Obligations.ReadCurrentsOperation := by
  unfold Obligations.ReadCurrentsOperation
  intro s v3 v2 v1 v0 c rest hp hans opc
  refine runOperation_readValue (row := ⟨.readCurrents, 0x08, .currents, .sDword⟩) (by simp [readRows]) hp
    (vs := [v3, v2, v1, v0]) (st := none) (by decide) rfl rfl hans ?_
  rw [readResult_respValid]
  simp only [List.foldl_cons, List.foldl_nil, accShift_word, valueResult, splitHalves, splitCurrents_append]
  rfl

end Sys2Proof.Machine
end

section
/-! SUPPORT. `ReadVersion` from the command to the result: the string, byte by byte. -/
namespace Sys2Proof.Machine

open Sys2Proof

/-- The state in reception of a string with `i` bytes counted and summed up to `sum`, the array `str`, the mark `term` of a
terminator, and the answers to come (`10_state.md` R25 to R29). -/
def State.receivingString (i : Nat) (sum : Byte) (str : Vector (Option Byte) 32) (term : Bool)
    (answers : List RxAnswer) (s : State) : State :=
  { s with
    link := { s.link with rxAnswers := answers }
    codec := { s.codec with rxIdx := some i, rxSum := some sum, rxStr := str, rxTerm := some term } }

/-! Completion -/

/-- The result of a read of a string (`40_codec.md` R139, R142). -/
def stringReadResult (op : Sel) (str : List Byte) (valid : Bool) : ResRegs :=
  if valid then stringResult op str else noValueResult op false .checksumMismatch

/-- A string whose array holds its terminator completes with the bytes up to it (`40_codec.md` R139). -/
theorem complete_sString {s : State} {op : Sel} {str : List Byte} (hop : s.codec.curOp = some op)
    (hshape : s.codec.rxShape = some .sString) (hstr : readString s.codec.rxStr.toList = some str) (valid : Bool) :
    complete valid s = .next (s.finish (stringReadResult op str valid)) := by
  cases valid with
  | false => exact completeError_next.mpr ⟨op, hop, rfl⟩
  | true => simp only [complete, if_true, completeValid, hop, hshape, hstr, need_some, stringReadResult]

/-- Before the terminator a byte is taken, and is malformed where it is not zero and the last of the array
(`40_codec.md` R139). -/
theorem rxString_unterminated {s : State} {sum : Byte} (hterm : s.codec.rxTerm = some false)
    (hsum : s.codec.rxSum = some sum) (i : Nat) (b : Byte) :
    rxString i b s =
      if b ≠ 0 ∧ i = strMax - 1 then malformed (s.takeChar i sum b false) else .next (s.takeChar i sum b false) := by
  simp only [rxString, hterm, hsum, need_some, Bool.false_eq_true, if_false]

section
variable {s : State} (hp : s.phase = .rx) (hshape : s.codec.rxShape = some .sString)
include hp hshape

/-! The steps of a string -/

/-- A byte answered is counted, and goes the string's way (`40_codec.md` R134). -/
theorem step_receivingString (i : Nat) (sum : Byte) (a : Vector (Option Byte) 32) (term : Bool) (b : Byte)
    (rest : List RxAnswer) :
    step (s.receivingString i sum a term (.byte b :: rest)) =
      rxString i b (s.receivingString (i + 1) sum a term rest) :=
  (step_rx_byte (s := s.receivingString i sum a term (.byte b :: rest)) hp rfl).trans (need_of_eq hshape)

/-- A byte before the terminator goes into `rx_str` and `rx_sum`, and the terminator is marked (`40_codec.md` R139). -/
theorem step_char {i : Nat} {b : Byte} (hroom : b = 0 ∨ i < 31) (sum : Byte)
    (a : Vector (Option Byte) 32) (rest : List RxAnswer) :
    step (s.receivingString i sum a false (.byte b :: rest)) =
      .next (s.receivingString (i + 1) (sum + b) (a.setIfInBounds i (some b)) (if b = 0 then true else false) rest) :=
  (step_receivingString hp hshape i sum a false b rest).trans ((rxString_unterminated rfl rfl i b).trans
    (if_neg fun ⟨hb, hi⟩ => (hroom.resolve_left hb).ne hi))

/-- A byte other than zero at the last index is malformed (`40_codec.md` R139). -/
theorem step_lastChar {op : Sel} (hop : s.codec.curOp = some op) {b : Byte} (hb : b ≠ 0) (sum : Byte)
    (a : Vector (Option Byte) 32) (rest : List RxAnswer) :
    ∃ t, step (s.receivingString 31 sum a false (.byte b :: rest)) = .next t ∧
      Answered s t rest true (noValueResult op false .malformedResponse) :=
  ⟨_, (step_receivingString hp hshape 31 sum a false b rest).trans ((rxString_unterminated rfl rfl 31 b).trans
    ((if_pos ⟨hb, rfl⟩).trans (malformed_next.mpr ⟨op, hop, rfl⟩))), _, rfl⟩

/-- The bytes of a string before its terminator are taken one a step, and the array holds them. -/
theorem stepN_chars (str : List Byte) (hlen : str.length ≤ 31) (hnonzero : ∀ b ∈ str, b ≠ 0) (sum : Byte)
    (a : Vector (Option Byte) 32) (rest : List RxAnswer) :
    ∃ a', stepN str.length (s.receivingString 0 sum a false (str.map .byte ++ rest)) =
        .next (s.receivingString str.length (sum + sum8 str) a' false rest) ∧
      a'.toList.take str.length = str.map some := by
  induction str using List.reverseRecOn generalizing rest with
  | nil => exact ⟨a, by simp [sum8], rfl⟩
  | append_singleton str b ih =>
    rw [List.length_append, List.length_singleton] at hlen ⊢
    rw [List.forall_mem_append] at hnonzero
    obtain ⟨hstr, hb⟩ := hnonzero
    obtain ⟨a', hrun, htake⟩ := ih (by omega) hstr (.byte b :: rest)
    have hstep := step_char hp hshape (i := str.length) (b := b) (.inr (by omega)) (sum + sum8 str) a' rest
    have harray := toList_takeChar (s := s.receivingString str.length (sum + sum8 str) a' false rest) 0 b false
      (show str.length < 32 by omega) htake
    refine ⟨a'.setIfInBounds str.length (some b), ?_, ?_⟩
    · rw [List.map_append, List.append_assoc]
      refine (stepN_add_of_next hrun).trans ((stepN_succ_of_next hstep).trans ?_)
      rw [if_neg (by simpa using hb)]
      simp [sum8_append, sum8, BitVec.add_assoc]
    · refine (congrArg (List.take (str.length + 1)) harray).trans ?_
      simp [List.take_append]

/-- The terminator and the byte after it end the operation (`40_codec.md` R139, R143). -/
theorem stepN_terminator {op : Sel} (hop : s.codec.curOp = some op) {str : List Byte} (hlen : str.length ≤ 31)
    (hnonzero : ∀ b ∈ str, b ≠ 0) (sum : Byte) {a : Vector (Option Byte) 32}
    (htake : a.toList.take str.length = str.map some) (c : Byte) (rest : List RxAnswer) :
    ∃ t, stepN 2 (s.receivingString str.length sum a false (.byte 0 :: .byte c :: rest)) = .next t ∧
      Answered s t rest s.desync (stringReadResult op (str ++ [0]) (chkMatches sum c)) := by
  have harray := toList_takeChar (s := s.receivingString str.length sum a false rest) 0 0 false
    (Nat.lt_succ_of_le hlen) htake
  have hread : readString (a.setIfInBounds str.length (some 0)).toList = some (str ++ [0]) :=
    readString_of_stringOf ((congrArg stringOf harray).trans (stringOf_map str hnonzero _))
  have hzero := step_char hp hshape (i := str.length) (.inl rfl) sum a (.byte c :: rest)
  rw [if_pos rfl, show sum + 0 = sum by simp] at hzero
  have hlast := (step_receivingString hp hshape (str.length + 1) sum (a.setIfInBounds str.length (some 0)) true c
    rest).trans (complete_sString (s := s.receivingString _ sum _ true rest) hop hshape hread _)
  exact ⟨_, (stepN_succ_of_next hzero).trans (stepN_succ_of_next hlast), _, rfl⟩

end

/-! Whole operations -/

/-- The row of `ReadVersion` (`30_encoding.md` R108, R109). -/
def versionRow : ReadRow := ⟨.readVersion, 0x00, .version, .sString⟩

theorem versionRow_mem : versionRow ∈ readRows := List.mem_cons_self

/-- `ReadVersion` as far as the bytes before the terminator: the request, and one step for each. -/
theorem runOperation_readVersion {s : State} (hp : s.phase = .idle) {str : List Byte} (hlen : str.length ≤ 31)
    (hnonzero : ∀ b ∈ str, b ≠ 0) {rest : List RxAnswer} (hans : s.link.rxAnswers = str.map .byte ++ rest) (k : Nat) :
    ∃ a, a.toList.take str.length = str.map some ∧
      runOperation .readVersion ((readFrame s.par s.cfg.address s.par.opc.version).length + (str.length + k)) s =
        stepN k ((readStarted versionRow s).receivingString str.length (respSum s.cfg.address s.par.opc.version str) a
          false rest) := by
  have hstart : readStarted versionRow s = (readStarted versionRow s).receivingString 0
      (respSeed s.cfg.address s.par.opc.version) s.codec.rxStr false (str.map .byte ++ rest) := by rw [← hans]; rfl
  obtain ⟨a, hrun, htake⟩ := stepN_chars (s := readStarted versionRow s) rfl rfl str hlen hnonzero
    (respSeed s.cfg.address s.par.opc.version) s.codec.rxStr rest
  rw [← hstart] at hrun
  exact ⟨a, htake, (runOperation_read versionRow_mem hp _).trans (stepN_add_of_next hrun)⟩

/-- The result of `ReadVersion` counts the bytes before the terminator (`40_codec.md` R139). -/
theorem stringReadResult_append_zero (op : Sel) (str : List Byte) (valid : Bool) :
    stringReadResult op (str ++ [0]) valid =
      if valid then
        { noValueResult op true .ok with resStr := some (str ++ [0]), resStrLen := some (BitVec.ofNat 6 str.length) }
      else noValueResult op false .checksumMismatch := by
  simp only [stringReadResult, stringResult, List.length_append, List.length_singleton, Nat.add_sub_cancel]
  rfl

/-- Settles O26: the string's bytes, its terminator and the checksum byte. -/
theorem readVersionOperation : Obligations.ReadVersionOperation := by
  unfold Obligations.ReadVersionOperation
  intro s str c rest hp hlen hnonzero hans opc
  rw [List.map_append, List.append_assoc] at hans
  obtain ⟨a, htake, hrun⟩ := runOperation_readVersion hp hlen hnonzero hans 2
  obtain ⟨t, ht, hanswered⟩ := stepN_terminator (s := readStarted versionRow s) rfl rfl rfl hlen hnonzero
    (respSum s.cfg.address opc str) htake c rest
  rw [Nat.add_assoc, ← stringReadResult_append_zero]
  exact ⟨t, hrun.trans ht, completed_of_answered hanswered⟩

/-- Settles O27: after 31 bytes other than zero a 32nd is malformed. -/
theorem unterminatedVersionIsMalformed : Obligations.UnterminatedVersionIsMalformed := by
  unfold Obligations.UnterminatedVersionIsMalformed
  intro s str rest hp hlen hnonzero hans opc
  obtain ⟨init, b, rfl⟩ : ∃ init b, str = init ++ [b] :=
    List.eq_nil_or_concat' str |>.resolve_left (by rintro rfl; simp at hlen)
  rw [List.length_append, List.length_singleton] at hlen
  have hinit : init.length = 31 := by omega
  rw [List.forall_mem_append] at hnonzero
  obtain ⟨hnonzero, hb⟩ := hnonzero
  rw [List.map_append, List.append_assoc] at hans
  obtain ⟨a, -, hrun⟩ := runOperation_readVersion hp hinit.le hnonzero hans 1
  rw [hinit] at hrun
  obtain ⟨t, ht, hanswered⟩ := step_lastChar (s := readStarted versionRow s) rfl rfl rfl (b := b) (by simpa using hb)
    (respSum s.cfg.address opc init) a rest
  exact ⟨t, hrun.trans (stepN_succ_of_next ht), completed_of_answered hanswered⟩

end Sys2Proof.Machine
end

section
/-!
SUPPORT. What `Update` and `Mix` do in `IDLE`, and all that they can do: from it their frame, and the skipped `Update`.
-/
namespace Sys2Proof.Machine

open Sys2Proof

/-! Accepted operations -/

/-- An `Update` with either validity operand 0 reads no other operand (`42_odometry.md` R221). -/
theorem execUpdate_skips {s : State} (hp : s.phase = .idle) {lv rv : Bool} (h : (lv && rv) = false)
    (now : Option NumVal) (l r : Option Word) : execUpdate now l r lv rv s = .next s.skipUpdate := by
  rw [execUpdate, accept_idle hp, h, if_neg Bool.false_ne_true]

/-- At a finite time, with both tick operands, the integrator is written (`42_odometry.md` R220). -/
theorem updateValid_integrates {now : NumVal} (hf : now.isFinite = true) (l r : Word) (s : State) :
    updateValid (some now) (some l) (some r) s = .next { s with odo := integrate s now l r } := by
  simp only [updateValid, hf, if_true, updateWith]

theorem execUpdate_integrates {s : State} (hp : s.phase = .idle) {now : NumVal} (hf : now.isFinite = true) (l r : Word) :
    execUpdate (some now) (some l) (some r) true true s = .next { s with odo := integrate s now l r } :=
  (execUpdate_valid hp _ _ _).trans (updateValid_integrates hf l r s)

/-- Finite operands of `Mix` write the latches (`43_mixer.md` R250). -/
theorem execMix_latches {s : State} (hp : s.phase = .idle) {a b c d : NumVal} (ha : a.isFinite = true)
    (hb : b.isFinite = true) (hc : c.isFinite = true) (hd : d.isFinite = true) :
    execMix a b c d s = .next
      { s with mix := ⟨some (mixLeftRate a b c d), some (mixRightRate a b c d), true⟩ } := by
  rw [execMix, accept_idle hp, ha, hb, hc, hd]
  rfl

/-- Settles O32: the skipped `Update`. -/
theorem invalidReadsSkipTheUpdate : Obligations.InvalidReadsSkipTheUpdate := by
  unfold Obligations.InvalidReadsSkipTheUpdate
  exact fun s now l r lv rv hp h => execUpdate_skips hp h now l r

/-- Settles O38: whether an operand is finite is all that the two operations ask of it. -/
theorem finiteOperandsRun : Obligations.FiniteOperandsRun := by
  unfold Obligations.FiniteOperandsRun
  exact ⟨fun s now l r hp hf => ⟨integrate s now l r, execUpdate_integrates hp hf l r, rfl, rfl, rfl, rfl⟩,
    fun s a b c d hp ha hb hc hd => ⟨_, _, execMix_latches hp ha hb hc hd⟩⟩

/-! All that they can do -/

/-- An `Update` that is not skipped and does not stop integrates, or refuses its time (`42_odometry.md` R220). -/
theorem updateValid_next {now : Option NumVal} {left right : Option Word} {s t : State}
    (h : updateValid now left right s = .next t) :
    (∃ n l r, t = { s with odo := integrate s n l r }) ∨ t = s.refuse .nonFinite := by
  cases now with
  | none => cases h
  | some n =>
    by_cases hf : n.isFinite = true
    · match left, right with
      | none, _ => rw [updateValid_missingTicks hf (.inl rfl)] at h; cases h
      | some _, none => rw [updateValid_missingTicks hf (.inr rfl)] at h; cases h
      | some l, some r =>
        rw [updateValid_integrates hf] at h
        cases h
        exact .inl ⟨n, l, r, rfl⟩
    · rw [updateValid_notFinite (Bool.eq_false_iff.mpr hf)] at h
      cases h
      exact .inr rfl

/-- `Update` is not accepted, integrates, refuses its time or is skipped (`42_odometry.md` R220, R221). -/
theorem execUpdate_next {now : Option NumVal} {left right : Option Word} {lv rv : Bool} {s t : State}
    (h : execUpdate now left right lv rv s = .next t) :
    t = s ∨ (∃ n l r, t = { s with odo := integrate s n l r }) ∨ t = s.refuse .nonFinite ∨ t = s.skipUpdate := by
  obtain ⟨-, h⟩ | ⟨-, rfl⟩ := accept_next h
  · split at h
    · exact .inr ((updateValid_next h).imp_right .inl)
    · cases h
      exact .inr (.inr (.inr rfl))
  · exact .inl rfl

/-- `Mix` is not accepted, latches two rates or refuses an operand (`43_mixer.md` R250). -/
theorem execMix_next {a b c d : NumVal} {s t : State} (h : execMix a b c d s = .next t) :
    t = s ∨ t = { s with mix := ⟨some (mixLeftRate a b c d), some (mixRightRate a b c d), true⟩ } ∨
      t = s.refuse .nonFinite := by
  obtain ⟨-, h⟩ | ⟨-, rfl⟩ := accept_next h
  · split at h <;> cases h
    · exact .inr (.inl rfl)
    · exact .inr (.inr rfl)
  · exact .inl rfl

/-- Settles O40, by all that the two operations can do: a refusal writes the mark alone, and every other outcome leaves
it. -/
theorem localOperationsTouchNoChannel : Obligations.LocalOperationsTouchNoChannel := by
  unfold Obligations.LocalOperationsTouchNoChannel
  constructor
  · intro s t now l r lv rv h
    obtain rfl | ⟨n, a, b, rfl⟩ | rfl | rfl := execUpdate_next h
    · exact ⟨rfl, .inl rfl⟩
    · exact ⟨rfl, .inr rfl⟩
    · exact ⟨rfl, .inl rfl⟩
    · exact ⟨rfl, .inr rfl⟩
  · intro s t a b c d h
    obtain rfl | rfl | rfl := execMix_next h
    · exact ⟨rfl, .inl rfl⟩
    · exact ⟨rfl, .inr rfl⟩
    · exact ⟨rfl, .inl rfl⟩

end Sys2Proof.Machine
end

section
/-!
SUPPORT. The integrator's tick differences, and its registers after an `Update` on real operands and on rational ones.
-/
namespace Sys2Proof.Machine

open Sys2Proof

/-! Tick differences (`42_odometry.md` R222) -/

theorem tickDelta_exact (new last : Word) : tickDelta .exact new last = new.toInt - last.toInt := rfl

/-- Under `WRAP32` the difference is taken modulo 2^32, in the range centred on 0. -/
theorem tickDelta_wrap32 (new last : Word) : tickDelta .wrap32 new last = (new.toInt - last.toInt).bmod (2 ^ 32) :=
  BitVec.toInt_sub

/-- Settles O36, by the balanced remainder of the exact difference. -/
theorem tickDifferencesWrap : Obligations.TickDifferencesWrap := by
  unfold Obligations.TickDifferencesWrap
  intro new last
  rw [tickDelta_wrap32, tickDelta_exact]
  refine ⟨⟨-(new.toInt - last.toInt).bdiv (2 ^ 32), ?_⟩, ?_, ?_, rfl, fun hlow hhigh => ?_⟩
  · have := Int.bmod_add_bdiv (new.toInt - last.toInt) (2 ^ 32)
    omega
  · exact Int.le_bmod (by decide)
  · exact Int.le_of_lt_add_one (Int.bmod_lt (by decide))
  · exact Int.bmod_eq_of_le hlow (Int.lt_add_one_of_le hhigh)

/-! On real operands -/

/-- The velocity over the time since the last `Update`: 0 where none has passed (`42_odometry.md` R223). -/
theorem velocitySince_denotes {now last a : NumVal} {t la q : ℝ} (hn : now.Denotes t) (hl : last.Denotes la)
    (ha : a.Denotes q) : (velocityOf (subN now last) a).Denotes (if t ≤ la then 0 else q / (t - la)) := by
  simpa only [sub_nonpos] using velocityOf_denotes (subN_denotes hn hl) ha

/-- No change, no velocity, however long it took. -/
theorem velocityOf_zero {elapsed a : NumVal} {e : ℝ} (he : elapsed.Denotes e) (ha : a.Denotes 0) :
    (velocityOf elapsed a).Denotes 0 := by
  simpa using velocityOf_denotes he ha

/-! On rational operands -/

theorem ne_zero_of_denotes {q : ℚ} {x : ℝ} (h : (NumVal.ofRat q).Denotes x) (hx : x ≠ 0) : q ≠ 0 := by
  rintro rfl
  exact hx (h.unique (by simpa using NumVal.denotes_ofRat 0))

theorem wheelDist_ofRat {s : State} {tpm : ℚ} (h : s.cfg.ticksPerMeter = .ofRat tpm) (hn : tpm ≠ 0) (new last : Word) :
    wheelDist s new last = .ofRat (tickDelta s.par.tickDeltaMode new last / tpm) := by
  rw [wheelDist, h, divN_ofRat _ hn]

theorem centreDist_ofRat (p q : ℚ) : centreDist (.ofRat p) (.ofRat q) = .ofRat ((p + q) / 2) := by
  rw [centreDist, addN_real, RealNum.plus_ofRat, divN_ofRat _ two_ne_zero]

theorem headingDelta_ofRat {base : ℚ} (h : base ≠ 0) (p q : ℚ) :
    headingDelta (.ofRat base) (.ofRat p) (.ofRat q) = .ofRat ((q - p) / base) := by
  rw [headingDelta, subN_real, RealNum.minus_ofRat, divN_ofRat _ h]

theorem turn_ofRat (p q : ℚ) : turn (.ofRat p) (.ofRat q) = .ofRat (p + q) := by
  unfold turn
  split
  · next h =>
    rw [eqN_ofRat, decide_eq_true_eq] at h
    rw [h, add_zero]
  · rfl

theorem leN_ofRat (p q : ℚ) : leN (.ofRat p) (.ofRat q) = true ↔ p ≤ q := by
  rw [leN_real, RealNum.val_ofRat, RealNum.val_ofRat, Rat.cast_le]

theorem velocityOf_ofRat (e q : ℚ) : velocityOf (.ofRat e) (.ofRat q) = .ofRat (if e ≤ 0 then 0 else q / e) := by
  unfold velocityOf
  by_cases h : e ≤ 0
  · rw [if_pos h, if_pos ((leN_ofRat e 0).mpr h)]
  · rw [if_neg h, if_neg (h ∘ (leN_ofRat e 0).mp), divN_ofRat q fun h0 => h h0.le]

/-- On rational operands the heading and the velocities are written as rationals (log entry 1). -/
theorem integrate_ofRat {s : State} {now la th tpm base : ℚ} (hlast : s.odo.lastTime = .ofRat la)
    (htheta : s.odo.theta = .ofRat th) (htpm : s.cfg.ticksPerMeter = .ofRat tpm) (htpm0 : tpm ≠ 0)
    (hbase : s.cfg.wheelBase = .ofRat base) (hbase0 : base ≠ 0) (l r : Word) :
    ∃ th' v w : ℚ, (integrate s (.ofRat now) l r).theta = .ofRat th' ∧ (integrate s (.ofRat now) l r).vLin = .ofRat v ∧
      (integrate s (.ofRat now) l r).vAng = .ofRat w := by
  simp only [integrate, hlast, htheta, hbase, wheelDist_ofRat htpm htpm0, centreDist_ofRat, headingDelta_ofRat hbase0,
    turn_ofRat, subN_real, RealNum.minus_ofRat, velocityOf_ofRat]
  exact ⟨_, _, _, rfl, rfl, rfl⟩

/-! `Update` -/

/-- Settles O34: each register of the integrator by the formula of its step. -/
theorem updateIntegratesThePose : Obligations.UpdateIntegratesThePose := by
  unfold Obligations.UpdateIntegratesThePose
  intro s now l r x0 y0 theta t last tpm base hp htpm htpm0 hbase hbase0 hx hy htheta hlast hnow distLeft distRight dist
    dtheta dx dy
  have hl : (wheelDist s l s.odo.lastLeft).Denotes distLeft := wheelDist_denotes htpm htpm0 l _
  have hr : (wheelDist s r s.odo.lastRight).Denotes distRight := wheelDist_denotes htpm htpm0 r _
  have hdist := centreDist_denotes hl hr
  have hturn := headingDelta_denotes hbase hbase0 hl hr
  obtain ⟨hx', hy'⟩ := translatePose_denotes htheta hdist hturn hx hy
  refine ⟨integrate s now l r, execUpdate_integrates hp (isFinite_of_denotes hnow) l r, hx', hy', fun hzero => ?_,
    turn_denotes htheta hturn, fun hzero => turn_zero _ (hzero ▸ hturn), velocitySince_denotes hnow hlast hdist,
    velocitySince_denotes hnow hlast hturn, rfl, rfl, rfl, rfl, ?_⟩
  · exact Prod.mk.inj (translatePose_zero s.odo.theta _ s.odo.x s.odo.y (hzero ▸ hdist))
  · rintro n la th tp ba rfl hla hth htp hba
    exact integrate_ofRat hla hth htp (ne_zero_of_denotes (htp ▸ htpm) htpm0) hba (ne_zero_of_denotes (hba ▸ hbase) hbase0)
      l r

/-- Settles O35: with opposite tick differences the centre stands and the wheels turn it. -/
theorem standingAndTurningKeepThePlace : Obligations.StandingAndTurningKeepThePlace := by
  unfold Obligations.StandingAndTurningKeepThePlace
  intro s now l r t last tpm base hp htpm htpm0 hbase hbase0 hlast hnow hopposite
  have hl := wheelDist_denotes htpm htpm0 l s.odo.lastLeft
  have hr := wheelDist_denotes htpm htpm0 r s.odo.lastRight
  rw [hopposite, Int.cast_neg, neg_div] at hl
  have hdist := centreDist_denotes hl hr
  rw [neg_add_cancel, zero_div] at hdist
  have hturn := headingDelta_denotes hbase hbase0 hl hr
  rw [sub_neg_eq_add, ← two_mul] at hturn
  have helapsed := subN_denotes hnow hlast
  obtain ⟨hx, hy⟩ := Prod.mk.inj (translatePose_zero s.odo.theta _ s.odo.x s.odo.y hdist)
  refine ⟨integrate s now l r, execUpdate_integrates hp (isFinite_of_denotes hnow) l r, hx, hy,
    velocityOf_zero helapsed hdist, fun hzero => ?_, fun theta htheta => turn_denotes htheta hturn⟩
  rw [hzero, Int.cast_zero, zero_div, mul_zero, zero_div] at hturn
  exact ⟨turn_zero _ hturn, velocityOf_zero helapsed hturn⟩

end Sys2Proof.Machine
end

section
/-!
SUPPORT. The mixer's latches after a `Mix` on real operands.
-/
namespace Sys2Proof.Machine

open Sys2Proof

theorem halfTurn_denotes {a w : NumVal} {x b : ℝ} (ha : a.Denotes x) (hw : w.Denotes b) :
    (halfTurn a w).Denotes (x * b / 2) := by
  have := divN_denotes (mulN_denotes ha hw) (NumVal.denotes_ofRat 2) (by norm_num)
  rwa [Rat.cast_ofNat] at this

theorem mixLeftRate_denotes {l a w t : NumVal} {v x b n : ℝ} (hl : l.Denotes v) (ha : a.Denotes x) (hw : w.Denotes b)
    (ht : t.Denotes n) : (mixLeftRate l a w t).Denotes ((v - x * b / 2) * n) :=
  mulN_denotes (subN_denotes hl (halfTurn_denotes ha hw)) ht

theorem mixRightRate_denotes {l a w t : NumVal} {v x b n : ℝ} (hl : l.Denotes v) (ha : a.Denotes x) (hw : w.Denotes b)
    (ht : t.Denotes n) : (mixRightRate l a w t).Denotes ((v + x * b / 2) * n) :=
  mulN_denotes (addN_denotes hl (halfTurn_denotes ha hw)) ht

/-- Settles O37: each rate by its formula, and their order by the sign of their difference. -/
theorem mixComputesTheWheelRates : Obligations.MixComputesTheWheelRates := by
  unfold Obligations.MixComputesTheWheelRates
  intro s a b c d hp
  have ha := NumVal.denotes_real a
  have hb := NumVal.denotes_real b
  have hc := NumVal.denotes_real c
  have hd := NumVal.denotes_real d
  have hleft := mixLeftRate_denotes ha hb hc hd
  have hright := mixRightRate_denotes ha hb hc hd
  refine ⟨_, _, execMix_latches hp rfl rfl rfl rfl, hleft, hright, fun x y hx hy => ?_⟩
  have hdiff : y - x = b.val * c.val * d.val := by
    rw [hx.unique hleft, hy.unique hright]
    ring
  refine ⟨hdiff, fun hturn hbase hticks => sub_pos.mp ?_⟩
  rw [hdiff]
  exact mul_pos (mul_pos hturn hbase) hticks

end Sys2Proof.Machine
end

section
/-! SUPPORT. What a step does to the phase: what is left of a step in `FATAL`, and which steps lead there. -/
namespace Sys2Proof.Machine

open Sys2Proof

/-! From `FATAL` -/

/-- In `FATAL`, unless a `CLOSE` is offered, there is no step (`60_exceptions.md` R274). -/
theorem step_fatal_stuck {s : State} (hp : s.phase = .fatal) (hl : s.host.lifecycle.head? ≠ some .closeReq) :
    step s = .fault .transportUnavailable := by
  rcases hlife : s.host.lifecycle.head? with _ | _ | _
  case some.closeReq => exact absurd hlife hl
  all_goals simp [step, nextAction, hp, hlife]

/-- A `CLOSE` leaves `FATAL` as it is (`70_reset_and_hazards.md` R303). -/
theorem closeLink_fatal {s : State} (hp : s.phase = .fatal) : closeLink s = s := by
  obtain ⟨⟩ := s
  cases hp
  rfl

/-- A `CLOSE` in `FATAL` is taken, with no other effect (`70_reset_and_hazards.md` R303). -/
theorem step_fatal_close {s : State} (hp : s.phase = .fatal) (hl : s.host.lifecycle.head? = some .closeReq) :
    step s = .next s.popLifecycle := by
  simp [step, nextAction, hp, hl, closeLink_fatal]

/-! Into `FATAL` -/

theorem txStep_phase {s t : State} (h : txStep s = .next t) :
    t.phase = s.phase ∨ t.phase = .idle ∨ t.phase = .rx := by
  obtain ⟨frame, i, b, len, shape, -, -, -, -, -, ⟨-, rfl⟩ | ⟨-, -, hc⟩ | ⟨-, -, opc, -, rfl⟩⟩ := txStep_next h
  · exact .inl rfl
  · obtain ⟨op, r, -, rfl, -⟩ := complete_next hc
    exact .inr (.inl rfl)
  · exact .inr (.inr rfl)

theorem rxStep_phase {s t : State} (h : rxStep s = .next t) : t.phase = s.phase ∨ t.phase = .idle := by
  obtain ⟨c, -, -, -, rfl⟩ | hends := rxStep_next h
  · exact .inl rfl
  · obtain ⟨hidle, -⟩ := hends.res_cases
    exact .inr hidle

/-- An operation changes the phase only by sending its request (`41_operations.md` R170). -/
theorem exec_phase {i : Instr} {s t : State} (h : exec i s = .next t) : t.phase = s.phase ∨ t.phase = .tx := by
  obtain ⟨-, rfl⟩ | ⟨-, ⟨kind, p, shape, rfl, -⟩ | ⟨r, rfl⟩ | ⟨now, l, r, -, -, rfl⟩ | ⟨-, rfl⟩ |
    ⟨a, b, c, d, -, rfl⟩⟩ := exec_cases h
  case inr.inl => exact .inr rfl
  all_goals exact .inl rfl

theorem Accepts.phase {c : Command} {u t : State} (h : Accepts c u t) : t.phase = u.phase ∨ t.phase = .tx := by
  obtain ⟨i, -, hexec⟩ | rfl := h
  · exact exec_phase hexec
  · exact .inl rfl

/-- An `OPEN` leads to `FATAL` where its answer is `OPEN_FAIL` (`70_reset_and_hazards.md` R303). -/
theorem openLink_phase_eq_fatal {s : State} : (openLink s).phase = .fatal ↔ s.link.openAnswer.1 = .fail := by
  cases ha : s.link.openAnswer.1 <;> simp [openLink, ha]

theorem closeLink_phase_eq_fatal {s : State} : (closeLink s).phase = .fatal ↔ s.phase = .fatal := by
  cases hp : s.phase <;> simp [closeLink, hp]

/-- A step that enters `FATAL` is a failed `OPEN`: the codec's steps lead to `TX`, `RX` or `IDLE`, a command to `IDLE` or
`TX`, and a `CLOSE` to `CLOSED`. -/
theorem step_enters_fatal {s t : State} (h : step s = .next t) (ht : t.phase = .fatal) (hs : s.phase ≠ .fatal) :
    s.phase = .closed ∧ s.host.lifecycle.head? = some .openReq ∧ s.link.openAnswer.1 = .fail := by
  obtain ⟨-, htx⟩ | ⟨-, hrx⟩ | ⟨hp, hl, rfl⟩ | ⟨-, -, rfl | rfl⟩ | ⟨-, c, u, -, hu, hrun⟩ | ⟨-, rfl⟩ := step_cases h
  · simpa [ht, hs.symm] using txStep_phase htx
  · simpa [ht, hs.symm] using rxStep_phase hrx
  · exact ⟨hp, hl, openLink_phase_eq_fatal.mp ht⟩
  · exact absurd (closeLink_phase_eq_fatal.mp ht) hs
  · exact absurd (closeLink_phase_eq_fatal.mp ht) hs
  · have hacc : Accepts c u t := hrun.imp_right fun ⟨_, _, hrefuse⟩ => hrefuse
    have hphase : u.phase = s.phase := by obtain rfl | rfl := hu <;> rfl
    simpa [ht, hphase, hs.symm] using hacc.phase
  · exact absurd ht hs

/-- Settles O55: a step from `FATAL` takes a `CLOSE` or is a fault, and a step into it is a failed `OPEN`. -/
theorem fatalIsTerminal : Obligations.FatalIsTerminal := by
  unfold Obligations.FatalIsTerminal
  refine ⟨fun s hp hl => step_fatal_stuck hp hl, fun s t hp hs => ?_, fun s t => step_enters_fatal⟩
  by_cases hl : s.host.lifecycle.head? = some .closeReq
  · rw [step_fatal_close hp hl] at hs
    cases hs
    rfl
  · rw [step_fatal_stuck hp hl] at hs
    cases hs

end Sys2Proof.Machine
end

section
/-! SUPPORT. What the host makes of the result port: the error's code, the signed ticks and the `Update` of two readings. -/
namespace Sys2Proof.Machine

open Sys2Proof

/-- The signed view of a word, in natural numbers (`30_encoding.md` R102). -/
theorem toS32_eq_toNat (w : Word) :
    toS32 w = if w.toNat < 2147483648 then (w.toNat : Int) else (w.toNat : Int) - 4294967296 := by
  rw [toS32, BitVec.toInt_eq_toNat_cond]
  split <;> split <;> omega

theorem State.readErr_of_some {s : State} {e : ErrCode} (h : s.res.resErr = some e) : s.readErr = .ok e.code := by
  simp [State.readErr, h, Except.map]

theorem State.readErr_of_none {s : State} (h : s.res.resErr = none) : s.readErr = .error (.noValue .resErr) := by
  simp [State.readErr, h, Except.map]

/-- M1's reading is the left wheel's under `LEFT_IS_M1` (`42_odometry.md` R227). -/
theorem hostUpdate_left {p : Params} (h : p.leftIsM1 = true) (now : NumVal) (m1 m2 : EncoderReading) :
    hostUpdate p now m1 m2 = .update (some now) m1.ticks m2.ticks m1.valid m2.valid := by
  simp [hostUpdate, h]

/-- M1's reading is the right wheel's without `LEFT_IS_M1` (`42_odometry.md` R227). -/
theorem hostUpdate_right {p : Params} (h : p.leftIsM1 = false) (now : NumVal) (m1 m2 : EncoderReading) :
    hostUpdate p now m1 m2 = .update (some now) m2.ticks m1.ticks m2.valid m1.valid := by
  simp [hostUpdate, h]

/-- Settles O59: a read of the error by its code, the ticks by the signed view, and the `Update` by either setting. -/
theorem resultPortReadings : Obligations.ResultPortReadings := by
  unfold Obligations.ResultPortReadings
  refine ⟨fun s => ⟨State.readErr_of_some, State.readErr_of_some, State.readErr_of_some, State.readErr_of_some,
      State.readErr_of_some, State.readErr_of_none⟩, fun w st v => ?_, fun st v => rfl,
    fun p now m1 m2 => ⟨fun h => hostUpdate_left h now m1 m2, fun h => hostUpdate_right h now m1 m2⟩⟩
  rw [← toS32_eq_toNat]
  rfl

end Sys2Proof.Machine
end

section
/-!
SUPPORT. How long an operation in progress lasts: every codec step lowers a count of the steps that are left
(`70_reset_and_hazards.md` R316).
-/
namespace Sys2Proof.Machine

open Sys2Proof

/-! The steps that are left -/

/-- A bound on the steps until `IDLE`: the bytes of the frame that are left, and 33 receive steps or what is left of
these. -/
def State.stepsLeft (s : State) : Nat :=
  match s.phase with
  | .tx => s.codec.txLen.getD 0 - s.codec.txIdx.getD 0 + (strMax + 1)
  | .rx => strMax + 1 - s.codec.rxIdx.getD 0
  | .closed | .fatal | .idle => 0

theorem stepsLeft_tx {s : State} {len i : Nat} (hp : s.phase = .tx) (hlen : s.codec.txLen = some len)
    (hidx : s.codec.txIdx = some i) : s.stepsLeft = len - i + 33 := by
  simp [State.stepsLeft, hp, hlen, hidx]

theorem stepsLeft_rx {s : State} {i : Nat} (hp : s.phase = .rx) (hidx : s.codec.rxIdx = some i) :
    s.stepsLeft = 33 - i := by
  simp [State.stepsLeft, hp, hidx]

theorem stepsLeft_idle {s : State} (hp : s.phase = .idle) : s.stepsLeft = 0 := by simp [State.stepsLeft, hp]

/-! The transmit step -/

/-- Under the invariant a transmit step lowers the count, also where it ends its frame. -/
theorem txStep_stepsLeft {s t : State} (hp : s.phase = .tx) (hinv : TxInv s) (h : txStep s = .next t) :
    t.stepsLeft < s.stepsLeft := by
  obtain ⟨-, -, frame, i, -, -, -, -, -, hlen, hidx, -, -, hi, -⟩ := hinv
  rw [stepsLeft_tx hp hlen hidx]
  obtain ⟨-, j, b, len, -, -, hj, -, hl, -, ⟨-, rfl⟩ | ⟨-, -, hc⟩ | ⟨-, -, opc, -, rfl⟩⟩ := txStep_next h
  · cases hidx.symm.trans hj
    rw [stepsLeft_tx (s := s.sent i b) hp hlen rfl]
    omega
  · obtain ⟨op, r, -, rfl, -⟩ := complete_next hc
    rw [stepsLeft_idle rfl]
    omega
  · rw [stepsLeft_rx (s := (s.sent j b).startRx opc) rfl rfl]
    omega

/-! The receive step -/

/-- A byte of a fixed shape ends the operation or leaves `rx_idx` as `receive` counted it. -/
theorem rxFixed_rxIdx {shape : Shape} {i : Nat} {b : Byte} {s t : State} (h : rxFixed shape i b s = .next t) :
    t.phase = .idle ∨ t.codec.rxIdx = s.codec.rxIdx := by
  unfold rxFixed at h
  obtain ⟨sum, -, h⟩ := need_eq_next.mp h
  split at h
  · obtain ⟨acc, -, h⟩ := need_eq_next.mp h
    cases h
    exact .inr rfl
  · split at h
    · cases h
      exact .inr rfl
    · obtain ⟨op, r, -, rfl, -⟩ := complete_next h
      exact .inl rfl

/-- A byte of a string ends the operation or leaves `rx_idx` as `receive` counted it. -/
theorem rxString_rxIdx {i : Nat} {b : Byte} {s t : State} (h : rxString i b s = .next t) :
    t.phase = .idle ∨ t.codec.rxIdx = s.codec.rxIdx := by
  unfold rxString at h
  obtain ⟨term, -, h⟩ := need_eq_next.mp h
  obtain ⟨sum, -, h⟩ := need_eq_next.mp h
  split at h
  · obtain ⟨op, r, -, rfl, -⟩ := complete_next h
    exact .inl rfl
  · split at h
    · obtain ⟨op, -, rfl⟩ := malformed_next.mp h
      exact .inl rfl
    · cases h
      exact .inr rfl

/-- A received byte ends the operation or is counted in `rx_idx` (`40_codec.md` R134). -/
theorem receive_rxIdx {b : Byte} {i : Nat} {s t : State} (hidx : s.codec.rxIdx = some i) (h : receive b s = .next t) :
    t.phase = .idle ∨ t.codec.rxIdx = some (i + 1) := by
  unfold receive at h
  obtain ⟨shape, -, h⟩ := need_eq_next.mp h
  rw [hidx, need_some] at h
  cases shape with
  | sByte | sWord | sDword | sDwordStatus => exact rxFixed_rxIdx h
  | sString => exact rxString_rxIdx h
  | sAck =>
    obtain ⟨chk, -, h⟩ := need_eq_next.mp h
    obtain ⟨op, r, -, rfl, -⟩ := complete_next h
    exact .inl rfl
  | sNone =>
    cases h
    exact .inr rfl

/-- A receive step ends the operation or counts its byte. -/
theorem rxStep_rxIdx {i : Nat} {s t : State} (hidx : s.codec.rxIdx = some i) (h : rxStep s = .next t) :
    t.phase = .idle ∨ t.codec.rxIdx = some (i + 1) := by
  rcases ha : s.link.rxByte.1 with b | _
  · rw [rxStep_byte ha] at h
    exact receive_rxIdx (s := { s with link := s.link.rxByte.2 }) hidx h
  · rw [rxStep_timeout ha] at h
    obtain ⟨op, -, rfl⟩ := timeout_next.mp h
    exact .inl rfl

theorem length_le_of_stringOf {a : List (Option Byte)} {str : List Byte} (h : stringOf a = some str) :
    str.length ≤ a.length := by
  induction a generalizing str with
  | nil => cases h
  | cons o bs ih =>
    cases o with
    | none => cases h
    | some b =>
      simp only [stringOf] at h
      split at h
      · cases h
        simp
      · obtain ⟨rest, hrest, rfl⟩ := Option.map_eq_some_iff.mp h
        simpa using ih hrest

/-- A string so far fits into its array (`40_codec.md` R139). -/
theorem StringRx.le_strMax {s : State} {opc sum : Byte} {i : Nat} {term : Bool} (h : StringRx s opc i sum term) :
    i ≤ strMax := by
  cases term with
  | true =>
    obtain ⟨str, hstr, rfl, -⟩ := h
    simpa using length_le_of_stringOf hstr
  | false =>
    obtain ⟨hi, -⟩ := h
    exact hi.le

/-- Under the invariant at most 32 bytes of a response are received before the next (`10_state.md` R25). -/
theorem ShapeRx.le_strMax {s : State} {opc sum : Byte} {shape : Shape} {i : Nat} {acc : Word} {term : Bool}
    (h : ShapeRx s opc shape i sum acc term) : i ≤ strMax := by
  cases shape with
  | sByte | sWord | sDword | sDwordStatus =>
    obtain ⟨hi, -⟩ := h
    exact hi.trans (by decide)
  | sString => exact StringRx.le_strMax h
  | sAck =>
    cases h
    exact Nat.zero_le _
  | sNone => exact h.elim

/-- Under the invariant a receive step lowers the count, whatever the environment answers. -/
theorem rxStep_stepsLeft {s t : State} (hp : s.phase = .rx) (hinv : RxInv s) (h : rxStep s = .next t) :
    t.stepsLeft < s.stepsLeft := by
  obtain ⟨opc, shape, i, sum, acc, term, ⟨-, -, -, -, -, -, hidx, -⟩, hshape⟩ := rxInv_iff.mp hinv
  have hi : i ≤ 32 := hshape.le_strMax
  rw [stepsLeft_rx hp hidx]
  by_cases hidle : t.phase = .idle
  · rw [stepsLeft_idle hidle]
    omega
  · have ht : t.phase = .rx := ((rxStep_phase h).resolve_right hidle).trans hp
    rw [stepsLeft_rx ht ((rxStep_rxIdx hidx h).resolve_left hidle)]
    omega

/-! The operation -/

theorem inOperation_iff {s : State} : s.inOperation = true ↔ s.phase = .tx ∨ s.phase = .rx := by
  rcases hp : s.phase <;> simp [State.inOperation, hp]

/-- An operation in progress is of at most 19 transmit steps and 33 receive steps. -/
theorem stepsLeft_le {s : State} (h : CodecInv s) : s.stepsLeft ≤ 52 := by
  rcases hp : s.phase with _ | _ | _ | _ | _
  case tx =>
    simp only [CodecInv, hp] at h
    obtain ⟨-, -, frame, i, -, -, -, -, -, hlen, hidx, -, -, -, -, hle, -⟩ := h
    rw [stepsLeft_tx hp hlen hidx]
    omega
  case rx =>
    simp only [CodecInv, hp] at h
    obtain ⟨-, -, -, -, i, -, -, -, -, -, -, -, hidx, -⟩ := h
    rw [stepsLeft_rx hp hidx]
    omega
  all_goals simp [State.stepsLeft, hp]

/-- A step of an operation in progress leads to `IDLE` or goes on with the operation, and lowers the count. -/
theorem step_stepsLeft {s t : State} (h : CodecInv s) (ho : s.inOperation = true) (hs : step s = .next t) :
    (t.phase = .idle ∨ t.inOperation = true) ∧ t.stepsLeft < s.stepsLeft := by
  obtain hp | hp := inOperation_iff.mp ho
  · rw [step_tx hp] at hs
    simp only [CodecInv, hp] at h
    refine ⟨?_, txStep_stepsLeft hp h hs⟩
    obtain hsame | hidle | hrx := txStep_phase hs
    · exact .inr (inOperation_iff.mpr (.inl (hsame.trans hp)))
    · exact .inl hidle
    · exact .inr (inOperation_iff.mpr (.inr hrx))
  · rw [step_rx hp] at hs
    simp only [CodecInv, hp] at h
    refine ⟨?_, rxStep_stepsLeft hp h hs⟩
    obtain hsame | hidle := rxStep_phase hs
    · exact .inr (inOperation_iff.mpr (.inr (hsame.trans hp)))
    · exact .inl hidle

/-- An operation in progress is back in `IDLE` within the steps that are left of it. -/
theorem stepN_idle_within_stepsLeft {s : State} (h : CodecInv s) (ho : s.inOperation = true) :
    ∃ k t, 0 < k ∧ k ≤ s.stepsLeft ∧ stepN k s = .next t ∧ t.phase = .idle := by
  induction hn : s.stepsLeft using Nat.strong_induction_on generalizing s with
  | _ n ih =>
    obtain ⟨t, hs, hinv⟩ := step_goesOn h ho
    obtain ⟨hidle | hop, hlt⟩ := step_stepsLeft h ho hs
    · exact ⟨1, t, Nat.one_pos, by omega, stepN_succ_of_next hs, hidle⟩
    · obtain ⟨k, u, -, hk, hrun, hu⟩ := ih t.stepsLeft (by omega) hinv hop rfl
      exact ⟨k + 1, u, k.succ_pos, by omega, (stepN_succ_of_next hs).trans hrun, hu⟩

/-- Settles O31, by the count of the steps that are left. -/
theorem operationsEndWithin52Steps : Obligations.OperationsEndWithin52Steps := by
  unfold Obligations.OperationsEndWithin52Steps
  intro s h hp
  obtain ⟨k, t, hpos, hk, hrun, hidle⟩ := stepN_idle_within_stepsLeft h (inOperation_iff.mpr hp)
  exact ⟨k, t, hpos, hk.trans (stepsLeft_le h), hrun, hidle⟩

end Sys2Proof.Machine
end

section
/-! SUPPORT. The lifecycle: what becomes of an `OPEN` and of a `CLOSE`, and where the block waits. -/
namespace Sys2Proof.Machine

open Sys2Proof

/-- An `OPEN` leads to `IDLE` or `FATAL` by the environment's answer (`70_reset_and_hazards.md` R301, R303). -/
theorem openLink_eq (s : State) :
    openLink s =
      { s with
        link := s.link.openAnswer.2
        phase := if s.link.openAnswer.1 = .ok then .idle else .fatal } := by
  cases ha : s.link.openAnswer.1 <;> simp [openLink, ha]

theorem popLifecycle_cons {s : State} {r : LifeReq} {ls : List LifeReq} (hl : s.host.lifecycle = r :: ls) :
    s.popLifecycle = { s with host := { s.host with lifecycle := ls } } := by
  simp [State.popLifecycle, hl]

/-- A `CLOSE` taken in `IDLE` closes the block, and changes nothing else (`70_reset_and_hazards.md` R305). -/
theorem closeLink_popLifecycle {s : State} {ls : List LifeReq} (hp : s.phase = .idle)
    (hl : s.host.lifecycle = .closeReq :: ls) :
    closeLink s.popLifecycle = { s with phase := .closed, host := { s.host with lifecycle := ls } } := by
  simp [popLifecycle_cons hl, closeLink, hp]

/-- In `CLOSED` an `OPEN` offered is taken (`70_reset_and_hazards.md` R301). -/
theorem step_closed_open {s : State} (hp : s.phase = .closed) (hl : s.host.lifecycle.head? = some .openReq) :
    step s = .next (openLink s.popLifecycle) := by
  simp [step, nextAction, hp, hl]

/-- In `CLOSED` without an `OPEN` offered the block waits (`70_reset_and_hazards.md` R306). -/
theorem step_closed_wait {s : State} (hp : s.phase = .closed) (hl : s.host.lifecycle.head? ≠ some .openReq) :
    step s = .next s := by
  rcases hlife : s.host.lifecycle.head? with _ | _ | _
  case some.openReq => exact absurd hlife hl
  all_goals simp [step, nextAction, hp, hlife]

/-- In `IDLE` with nothing offered the block waits (`70_reset_and_hazards.md` R306). -/
theorem step_idle_wait {s : State} (hp : s.phase = .idle) (hc : s.host.cmds = []) (hl : s.host.lifecycle = []) :
    step s = .next s := by
  simp [step, nextAction, hp, idleAction, hc, hl]

/-- In `IDLE` a `CLOSE` offered alone is taken (`70_reset_and_hazards.md` R305). -/
theorem step_idle_close {s : State} {ls : List LifeReq} (hp : s.phase = .idle)
    (hl : s.host.lifecycle = .closeReq :: ls) (hc : s.host.cmds = []) :
    step s = .next { s with phase := .closed, host := { s.host with lifecycle := ls } } := by
  have hstep : step s = .next (closeLink s.popLifecycle) := by simp [step, nextAction, hp, idleAction, hl, hc]
  rw [hstep, closeLink_popLifecycle hp hl]

/-- In `IDLE` with a `CLOSE` and a command offered a free choice is drawn of the two (log entry 4). -/
theorem step_idle_choice {s : State} {ls : List LifeReq} {c : Command} {cs : List Command} (hp : s.phase = .idle)
    (hl : s.host.lifecycle = .closeReq :: ls) (hc : s.host.cmds = c :: cs) :
    step s = if Config.lifecycleFirst s.link.draws then .next (closeLink s.drawn.popLifecycle)
      else acceptCommand c s.drawn.popCmd := by
  cases hf : Config.lifecycleFirst s.link.draws <;> simp [step, nextAction, hp, idleAction, hl, hc, hf]

/-- Settles O54: the `OPEN` is taken, and answered. -/
theorem openLeadsToIdleOrFatal : Obligations.OpenLeadsToIdleOrFatal := by
  unfold Obligations.OpenLeadsToIdleOrFatal
  intro s ls hp hl
  rw [step_closed_open hp (by rw [hl, List.head?_cons]), openLink_eq, popLifecycle_cons hl]

/-- Settles O56: in `IDLE` by what is offered, and in `TX` and `RX` by the frames of the codec's steps. -/
theorem closeIsTakenInIdle : Obligations.CloseIsTakenInIdle := by
  unfold Obligations.CloseIsTakenInIdle
  refine ⟨fun s ls => step_idle_close, fun s ls c cs hp hl hc => ?_, fun s t hp hs => ?_,
    fun s => step_idle_wait, fun s => step_closed_wait⟩
  · intro drawn
    rw [step_idle_choice hp hl hc]
    split
    · left
      rw [closeLink_popLifecycle (s := s.drawn) hp hl]
      rfl
    · right
      simp only [State.popCmd, State.drawn, hc, List.tail_cons, drawn]
  · obtain hp | hp := hp
    · exact (txStep_keeps (step_tx hp ▸ hs)).host
    · exact (rxStep_keeps (step_rx hp ▸ hs)).host

end Sys2Proof.Machine
end

section
/-!
SUPPORT. Shutdown: the stop command from `IDLE` to `IDLE`, whatever the environment answers, the `CLOSE` that follows it,
and the end of a run (`70_reset_and_hazards.md` R305, R317).
-/
namespace Sys2Proof.Machine

open Sys2Proof

/-! A write operation to its end -/

/-- The one receive step of an acknowledgement ends the operation, whatever the environment answers (`40_codec.md` R140,
R141). -/
theorem rxStep_sAck {s : State} {op : Sel} {chk : Byte} {i : Nat} (hop : s.codec.curOp = some op)
    (hchk : s.codec.txChk = some chk) (hshape : s.codec.rxShape = some .sAck) (hidx : s.codec.rxIdx = some i) :
    ∃ t, rxStep s = .next t ∧ t.phase = .idle := by
  rcases ha : s.link.rxByte.1 with b | _
  · exact ⟨_, (rxStep_byte ha).trans
      (receive_sAck (s := { s with link := s.link.rxByte.2 }) hop hchk hshape hidx b), rfl⟩
  · exact ⟨_, (rxStep_timeout ha).trans (timeout_next.mpr ⟨op, hop, rfl⟩), rfl⟩

/-- A write operation is back in `IDLE` with its frame sent, after one step for each byte and at most one more for the
acknowledgement (`30_encoding.md` R100). -/
theorem runOperation_write_idle {s : State} {i : Instr} {r : Request} (hp : s.phase = .idle)
    (hreq : i.request s.par = some r) (hwrite : r.kind.isRead = false) :
    ∃ k t, k ≤ (r.frame s.par s.cfg.address).length + 1 ∧ runOperation i k s = .next t ∧ t.phase = .idle ∧
      t.link.txStream = s.link.txStream ++ r.frame s.par s.cfg.address ∧ t.host = s.host ∧ t.refused = s.refused := by
  by_cases hack : s.par.ackLen = 0
  · have hnone : writeShape s.par = .sNone := if_pos hack
    have hend : endTx (writeShape s.par) (writeSent i r s) = .next _ :=
      hnone ▸ endTx_sNone rfl (congrArg some hnone)
    exact ⟨_, _, Nat.le_succ _, runOperation_write hp hreq hwrite hend 0, rfl, rfl, rfl, rfl⟩
  · have hshape : writeShape s.par = .sAck := if_neg hack
    have hend : endTx (writeShape s.par) (writeSent i r s) =
        .next ((writeSent i r s).startRx (s.par.opc.get r.kind)) := endTx_of_response (by simp [hshape]) rfl
    obtain ⟨t, hrx, hidle⟩ := rxStep_sAck (s := (writeSent i r s).startRx (s.par.opc.get r.kind)) rfl rfl
      (congrArg some hshape) rfl
    refine ⟨_, t, le_rfl, (runOperation_write hp hreq hwrite hend 1).trans (stepN_succ_of_next ((step_rx rfl).trans hrx)),
      hidle, ?_, (rxStep_keeps hrx).host, (rxStep_keeps hrx).refused⟩
    rw [rxStep_link hrx, Link.rxByte_txStream]
    rfl

/-! The stop command -/

/-- The rate 0 is the word 0 in both encodings (`30_encoding.md` R104). -/
theorem toWireRate_zero (enc : SpeedWireEnc) : toWireRate enc (.ofRat 0) = some 0 := by
  rw [toWireRate_real]
  cases enc <;> simp [wireOfInt]

/-- The stop command's request has the rate 0 for both wheels (`70_reset_and_hazards.md` R305). -/
theorem stopCommand_request (p : Params) : stopCommand.request p = some ⟨.mixed, [0, 0]⟩ := by
  simp [stopCommand, Instr.request, toWireRate_zero]

theorem stopCommand_frame (p : Params) (addr : Byte) :
    Request.frame p addr ⟨.mixed, [0, 0]⟩ =
      [addr, p.opc.mixed, 0, 0, 0, 0, 0, 0, 0, 0, (addr + p.opc.mixed) &&& 0x7F] := by
  rw [requestFrame_of_write (r := ⟨.mixed, [0, 0]⟩) rfl]
  simp [frameBytes, Request.payload, OpcTable.get, reqChk, sum8, bytes32]

/-- The step that takes the stop command is its accept step. -/
theorem stepN_offerStop {s : State} (hp : s.phase = .idle) (k : Nat) :
    stepN (k + 1) s.offerStop = runOperation stopCommand k { s with host := ⟨[], []⟩ } := by
  have hstep : step s.offerStop = exec stopCommand { s with host := ⟨[], []⟩ } := by
    rw [step_idle_command (s := s.offerStop) hp (by simp [State.offerStop]) rfl, acceptCommand, decodeInvertsEncode]
    rfl
  rw [stepN, hstep, runOperation]

/-- The stop command is back in `IDLE` within 13 steps, with its frame sent and nothing more offered or refused. -/
theorem stepN_offerStop_idle {s : State} (hp : s.phase = .idle) :
    ∃ k t, k ≤ 13 ∧ stepN k s.offerStop = .next t ∧ t.phase = .idle ∧ t.host = ⟨[], []⟩ ∧
      t.link.txStream = s.link.txStream ++
        [s.cfg.address, s.par.opc.mixed, 0, 0, 0, 0, 0, 0, 0, 0, (s.cfg.address + s.par.opc.mixed) &&& 0x7F] ∧
      t.refused = s.refused := by
  obtain ⟨k, t, hk, hrun, hidle, hsent, hhost, hrefused⟩ := runOperation_write_idle
    (s := { s with host := ⟨[], []⟩ }) hp (stopCommand_request s.par) rfl
  rw [stopCommand_frame] at hk hsent
  exact ⟨k + 1, t, Nat.succ_le_succ hk, (stepN_offerStop hp k).trans hrun, hidle, hhost, hsent, hrefused⟩

/-! The `CLOSE` and the end of a run -/

/-- In `IDLE` with nothing offered, the `CLOSE` that the host then requests closes the block, and changes nothing else. -/
theorem step_offerClose {s : State} (hp : s.phase = .idle) (hh : s.host = ⟨[], []⟩) :
    step s.offerClose = .next { s with phase := .closed } := by
  have hoffer : s.offerClose = { s with host := ⟨[], [.closeReq]⟩ } := by simp [State.offerClose, hp, hh]
  rw [hoffer, step_idle_close (s := { s with host := ⟨[], [.closeReq]⟩ }) hp rfl rfl, ← hh]

theorem runEnded_iff {s : State} :
    s.runEnded = true ↔ s.inOperation = false ∧ s.host.cmds = [] ∧ s.host.lifecycle = [] := by
  simp [State.runEnded, and_assoc]

theorem goodEnd_iff {s : State} : s.goodEnd = true ↔ s.runEnded = true ∧ s.refused = none := by
  simp [State.goodEnd]

/-- A run that has ended stays as it is, or is stuck in `FATAL` (`70_reset_and_hazards.md` R306, `60_exceptions.md`
R274). -/
theorem step_of_runEnded {s : State} (h : s.runEnded = true) :
    step s = if s.phase = .fatal then .fault .transportUnavailable else .next s := by
  obtain ⟨hop, hc, hl⟩ := runEnded_iff.mp h
  rcases hp : s.phase
  case tx | rx => simp [State.inOperation, hp] at hop
  case closed => exact step_closed_wait hp (by simp [hl])
  case fatal => exact step_fatal_stuck hp (by simp [hl])
  case idle => exact step_idle_wait hp hc hl

/-- Settles O60: the stop command's request to its end, the `CLOSE` taken there, and the end of the run. -/
theorem shutdownStopsThenCloses : Obligations.ShutdownStopsThenCloses := by
  unfold Obligations.ShutdownStopsThenCloses
  refine ⟨fun s hp => ?_, fun s => ?_, fun s hp => ?_, fun s hp => ?_, fun s => step_of_runEnded, fun s => goodEnd_iff⟩
  · intro frame
    obtain ⟨k, t, hk, hrun, hidle, hhost, hsent, hrefused⟩ := stepN_offerStop_idle hp
    have hended : State.runEnded { t with phase := .closed } = true := runEnded_iff.mpr ⟨rfl, by simp [hhost]⟩
    refine ⟨k, t, _, hk, hrun, hidle, by rw [hhost], hsent, step_offerClose hidle hhost, rfl, hended, ?_⟩
    rw [State.goodEnd, hended, Bool.true_and, ← hrefused]
  · simp [State.offerClose, State.offerStop]
  · simp [State.offerClose, hp]
  · simp [State.runEnded, inOperation_iff.mpr hp]

end Sys2Proof.Machine
end
